-- ==== Sys2Proof/Word.lean ====
section
/-! DEFINITION. The word types of the controller: the 32-bit command word (R100) and the 8-bit byte (R14). -/

namespace Sys2Proof

/-- The command word `cw` (30_encoding.md R100). -/
abbrev Word := BitVec 32

/-- `Byte`, an unsigned 8-bit value; bit 0 is its least significant bit (00_scope.md R13, R14). -/
abbrev Byte := BitVec 8

end Sys2Proof
end

