-- ==== Sys2Proof/Syntax.lean ====
section
/-! DEFINITION. The commands of SO595-CMD version 1, one constructor for each row of spec/opcode_table.json. -/

namespace Sys2Proof

/-- `ORD` of WRITE: which bit of a byte is sent first (30_encoding.md R102). -/
inductive BitOrder where
  | lsbFirst
  | msbFirst
deriving DecidableEq, Repr

/-- A decoded command with its operands (30_encoding.md R101, R105).
`write` carries the data operand `wdata`, an 8N-bit number with part 0 in its low byte (20_memory.md R73). -/
inductive Instr where
  | init
  | write (ord : BitOrder) (wdata : Nat)
  | writePin (pin : BitVec 16) (turnOn : Bool)
  | allOff (latch : Bool)
  | state
deriving DecidableEq, Repr

/-- What the host presents: the command word and the data operand (30_encoding.md R100). -/
structure Command where
  cw    : Word
  wdata : Nat
deriving DecidableEq, Repr

end Sys2Proof
end

