-- ==== Sys2Proof/WellFormed.lean ====
section
/-! DEFINITION. Well-formed instructions and port contents for a chain of `n` chips. -/

namespace Sys2Proof

/-- The data operand fits its 8N-bit port (20_memory.md R73), which is "exactly N elements" of the source. -/
def wdataFits (n wdata : Nat) : Bool := decide (wdata < 2 ^ (8 * n))

/-- An instruction is well formed for a chain of `n` chips. WRITE's operand has 8N bits (R73); every 16-bit PIN is
legal as an encoding (30_encoding.md R103); the other operands are single bits. -/
def Instr.wellFormed (n : Nat) : Instr → Bool
  | .init => true
  | .write _ wdata => wdataFits n wdata
  | .writePin _ _ => true
  | .allOff _ => true
  | .state => true

/-- A presented command fits the port (20_memory.md R73). -/
def Command.wellFormed (n : Nat) (c : Command) : Bool := wdataFits n c.wdata

end Sys2Proof
end

