-- ==== Sys2Proof/Decode.lean ====
section
/-! DEFINITION. The decoder, total on every command word (30_encoding.md R120), and the encoder (R100 to R106). -/

namespace Sys2Proof

/-- Why a word is illegal (30_encoding.md R121). The controller reports only the status ILLEGAL;
the names are the model's (DESIGN CHOICE, log entry 24). -/
inductive IllegalWord where
  /-- `RSV` is not 0. -/
  | reservedBits
  /-- `PIN` is not 0 and `OP` is not WRITE_PIN's. -/
  | pinOutsideWritePin
  /-- `F` is 1 in INIT or STATE. -/
  | flagNotZero
  /-- `OP` is `0x0` or in `0x6` to `0xF`. -/
  | unknownOpcode
deriving DecidableEq, Repr

/-- The decoder's answer. -/
inductive Decoded where
  | instr (i : Instr)
  | illegal (why : IllegalWord)
deriving DecidableEq, Repr

/-- `OP`, `cw[3:0]` (R100). -/
def opField (cw : Word) : BitVec 4 := cw.extractLsb' 0 4

/-- `F`, `cw[4]` (R100). -/
def fField (cw : Word) : Bool := cw.getLsbD 4

/-- `RSV`, `cw[15:5]` (R100). -/
def rsvField (cw : Word) : BitVec 11 := cw.extractLsb' 5 11

/-- `PIN`, `cw[31:16]` (R100, R103). -/
def pinField (cw : Word) : BitVec 16 := cw.extractLsb' 16 16

/-- `ORD` from the `F` bit (R102). -/
def ordOfF (f : Bool) : BitOrder := if f then .msbFirst else .lsbFirst

/-- The `F` bit of an `ORD` (R102). -/
def fOfOrd : BitOrder → Bool
  | .lsbFirst => false
  | .msbFirst => true

/-- `decode(cw)` (R120), with the data operand handed on to WRITE, the only command that reads it (R100). -/
def decode (cw : Word) (wdata : Nat) : Decoded :=
  if rsvField cw ≠ 0#11 then .illegal .reservedBits
  else if opField cw ≠ 3#4 ∧ pinField cw ≠ 0#16 then .illegal .pinOutsideWritePin
  else if opField cw = 1#4 then (if fField cw then .illegal .flagNotZero else .instr .init)
  else if opField cw = 2#4 then .instr (.write (ordOfF (fField cw)) wdata)
  else if opField cw = 3#4 then .instr (.writePin (pinField cw) (fField cw))
  else if opField cw = 4#4 then .instr (.allOff (fField cw))
  else if opField cw = 5#4 then (if fField cw then .illegal .flagNotZero else .instr .state)
  else .illegal .unknownOpcode

/-- A command word from its fields, `RSV` zero: `PIN` from bit 16, `F` at bit 4, `OP` from bit 0 (R100). -/
def cmdWord (pin : BitVec 16) (f : Bool) (op : BitVec 4) : Word :=
  BitVec.ofNat 32 (pin.toNat * 2 ^ 16 + f.toNat * 2 ^ 4 + op.toNat)

/-- The command that stands for an instruction (R101 to R105). `wdata` is presented as 0 where it is ignored. -/
def encode : Instr → Command
  | .init => ⟨cmdWord 0#16 false 1#4, 0⟩
  | .write ord wdata => ⟨cmdWord 0#16 (fOfOrd ord) 2#4, wdata⟩
  | .writePin pin turnOn => ⟨cmdWord pin turnOn 3#4, 0⟩
  | .allOff latch => ⟨cmdWord 0#16 latch 4#4, 0⟩
  | .state => ⟨cmdWord 0#16 false 5#4, 0⟩

/-- The match value of a row of the opcode table (R106). -/
def matchOf : Instr → Word
  | .init => 0x00000001
  | .write _ _ => 0x00000002
  | .writePin _ _ => 0x00000003
  | .allOff _ => 0x00000004
  | .state => 0x00000005

/-- The mask of a row of the opcode table (R106). -/
def maskOf : Instr → Word
  | .init => 0xFFFFFFFF
  | .write _ _ => 0xFFFFFFEF
  | .writePin _ _ => 0x0000FFEF
  | .allOff _ => 0xFFFFFFEF
  | .state => 0xFFFFFFFF

/-- The command whose bits are `w`, numbered as the opcode table numbers them: the command word first, then the data
operand; every bit from `nbits` up is 0 (log entry 22). -/
def tableCommand (nbits w : Nat) : Command :=
  ⟨BitVec.ofNat 32 (w % 2 ^ nbits), (w % 2 ^ nbits) / 2 ^ 32⟩

/-- The instruction this decoder reads from a word of the opcode table. -/
def decodeTableWord (nbits w : Nat) : Option Instr :=
  match decode (tableCommand nbits w).cw (tableCommand nbits w).wdata with
  | .instr i => some i
  | .illegal _ => none

end Sys2Proof
end

