-- ==== Sys2Proof/Config.lean ====
section
/-! DEFINITION. The configuration record of one controller (00_scope.md R6 to R12, 10_state.md R30) and the
free values of the chain model, for which the spec says "any value". -/

namespace Sys2Proof

/-- `PIN_POLICY`: what the status of an out-of-range WRITE_PIN reports (00_scope.md R10). -/
inductive PinPolicy where
  | ignore
  | reject
deriving DecidableEq, Repr

/-- The implementation parameters, constant for the life of one controller (10_state.md R30).
Line handles are opaque (R8): the model only compares them. OE and RST are either a handle or not connected (R7).
Durations are in milliseconds (R9). `tStepMin` is `T_STEP_MIN` (R11), which nothing reads;
DESIGN CHOICE, log entry 17: a natural number in no stated unit. -/
structure Config where
  n         : Nat
  idData    : Nat
  idClock   : Nat
  idLatch   : Nat
  idOe      : Option Nat
  idRst     : Option Nat
  tSettle   : Nat
  tRst      : Nat
  pinPolicy : PinPolicy
  tStepMin  : Nat
deriving DecidableEq, Repr

/-- Free value: shift stage `j` of the chain at draw `k` ("any value", 93_implementation_defined.md I3, I5, I6). -/
opaque Config.freeSr : (k j : Nat) → Bool

/-- Free value: storage stage `j` of the chain at draw `k` (I3, I5, I6). -/
opaque Config.freeSt : (k j : Nat) → Bool

/-- Free value: whether output `j` is high-impedance at draw `k`, while the output enable is undriven (I6). -/
opaque Config.freeHighZ : (k j : Nat) → Bool

/-- Free value: the level of output `j` at draw `k` if it is not high-impedance, while OE is undriven (I6). -/
opaque Config.freeQ : (k j : Nat) → Bool

end Sys2Proof
end

