-- ==== Sys2Proof/Machine/Params.lean ====
section
/-! DEFINITION. What follows from a configuration: which optional lines are connected, and its validity. -/

namespace Sys2Proof

/-- `HAS_OE` (00_scope.md R7). -/
def Config.hasOe (c : Config) : Bool := c.idOe.isSome

/-- `HAS_RST` (R7). -/
def Config.hasRst (c : Config) : Bool := c.idRst.isSome

/-- The connected line handles (R8). -/
def Config.handles (c : Config) : List Nat :=
  [c.idData, c.idClock, c.idLatch] ++ c.idOe.toList ++ c.idRst.toList

/-- A configuration is valid (R12). Durations are natural numbers by type. -/
def Config.valid (c : Config) : Bool := decide (1 ≤ c.n ∧ c.n ≤ 8192 ∧ c.handles.Nodup)

/-- The number of logical output bits, `8*N` (R6). -/
def Config.pins (c : Config) : Nat := 8 * c.n

/-- The configuration `State.reset` has: the source's scenario (`N = 3`, 95_test_vectors.md E6, Program 1), Construct's
defaults for OE and RST (70_reset_and_hazards.md R280) and the default parameters (R9, R10).
DESIGN CHOICE, log entry 2: the spec fixes no configuration; the handles 0, 1, 2 and `T_STEP_MIN` 0 are the model's. -/
def Config.scenario : Config where
  n := 3
  idData := 0
  idClock := 1
  idLatch := 2
  idOe := none
  idRst := none
  tSettle := 1
  tRst := 10
  pinPolicy := .ignore
  tStepMin := 0

end Sys2Proof
end

