-- ==== Sys2Proof/Machine/Lines.lean ====
section
/-! DEFINITION. The lines of the bit-bang multiplexer: mode and level registers, and the pins (10_state.md R31, R36
to R39). -/

namespace Sys2Proof.Machine

/-- The line set (10_state.md R31). -/
inductive Line where
  | data
  | clock
  | latch
  | oe
  | rst
deriving DecidableEq, Repr

/-- `Level` (00_scope.md R14). -/
inductive Level where
  | low
  | high
deriving DecidableEq, Repr

/-- A line's mode register (R36). -/
inductive LineMode where
  | unconfigured
  | output
deriving DecidableEq, Repr

/-- What a pin shows (R38). -/
inductive Pin where
  | driven (v : Level)
  | undriven
deriving DecidableEq, Repr

/-- The two registers of one connected line (R36, R37). -/
structure LineReg where
  mode  : LineMode
  level : Level
deriving DecidableEq, Repr

/-- The registers of the connected lines. "Only connected lines have registers" (R31): OE and RST have none when they
are not connected (log entry 23). -/
structure LineFile where
  data  : LineReg
  clock : LineReg
  latch : LineReg
  oe    : Option LineReg
  rst   : Option LineReg
deriving DecidableEq, Repr

/-- `lvl(x)` (00_scope.md R14). -/
def lvl (x : Bool) : Level := if x then .high else .low

/-- A line is connected (R31). -/
def connected (c : Config) : Line → Bool
  | .data => true
  | .clock => true
  | .latch => true
  | .oe => c.hasOe
  | .rst => c.hasRst

/-- The registers of a line, none where the line is not connected. -/
def LineFile.get (f : LineFile) : Line → Option LineReg
  | .data => some f.data
  | .clock => some f.clock
  | .latch => some f.latch
  | .oe => f.oe
  | .rst => f.rst

/-- Change the registers of one line; a line without registers has nothing to change. -/
def LineFile.modify (f : LineFile) (l : Line) (g : LineReg → LineReg) : LineFile :=
  match l with
  | .data => { f with data := g f.data }
  | .clock => { f with clock := g f.clock }
  | .latch => { f with latch := g f.latch }
  | .oe => { f with oe := f.oe.map g }
  | .rst => { f with rst := f.rst.map g }

/-- `mode[l] <- OUTPUT` (R36, R46). -/
def LineFile.configure (f : LineFile) (l : Line) : LineFile := f.modify l fun r => { r with mode := .output }

/-- `level[l] <- v` (R37, R46). -/
def LineFile.drive (f : LineFile) (l : Line) (v : Level) : LineFile := f.modify l fun r => { r with level := v }

/-- `pin(l)` from the line's registers (R38). -/
def LineReg.pin (r : LineReg) : Pin :=
  match r.mode with
  | .output => .driven r.level
  | .unconfigured => .undriven

/-- `pin(l)` of a connected line (R38); a line that is not connected has no pin. -/
def LineFile.pin (f : LineFile) (l : Line) : Option Pin := (f.get l).map LineReg.pin

/-- Some connected line is `UNDRIVEN` (60_exceptions.md R266). -/
def LineFile.anyUndriven (f : LineFile) : Bool :=
  [Line.data, .clock, .latch, .oe, .rst].any fun l => f.pin l == some .undriven

/-- The reset values of the line registers (R39, 70_reset_and_hazards.md R281). -/
def LineFile.reset (c : Config) : LineFile where
  data := ⟨.unconfigured, .low⟩
  clock := ⟨.unconfigured, .low⟩
  latch := ⟨.unconfigured, .low⟩
  oe := if c.hasOe then some ⟨.unconfigured, .high⟩ else none
  rst := if c.hasRst then some ⟨.unconfigured, .high⟩ else none

end Sys2Proof.Machine
end

