-- ==== Sys2Proof/Machine/Chain.lean ====
section
/-! DEFINITION. The reference model of the external chain of 74HC595-class chips (60_exceptions.md R260 to R266).
It only observes the pins; no rule of the controller reads it. Its edge polarity, stage naming and clear scope are the
spec's own general-knowledge passages G1 to G4 (93_implementation_defined.md). -/

namespace Sys2Proof.Machine

/-- The stages of the chain, by global cell `j = 8*c + s` for stage `s` of chip `c` (R260, R263): chip 0 is nearest the
controller, and the serial overflow of chip `c` is cell `8*c + 7`. Both lists have 8N entries. -/
structure Chain where
  sr : List Bool
  st : List Bool
deriving DecidableEq, Repr

/-- `SR[c][s]` (R260). -/
def Chain.shiftStage (ch : Chain) (c s : Nat) : Option Bool := ch.sr[8 * c + s]?

/-- `ST[c][s]`, the latched image (R260). -/
def Chain.storageStage (ch : Chain) (c s : Nat) : Option Bool := ch.st[8 * c + s]?

/-- The stages hold any value: draw `k` of the free values (R260, R266, R283; log entry 12). -/
def Chain.unknown (n k : Nat) : Chain where
  sr := (List.range (8 * n)).map (Config.freeSr k)
  st := (List.range (8 * n)).map (Config.freeSt k)

/-- A line's pin goes from LOW to HIGH in a step (R261, R262). -/
def risingEdge (before after : LineFile) (l : Line) : Bool :=
  before.pin l == some (.driven .low) && after.pin l == some (.driven .high)

/-- `pin(RST)` is LOW: the clear is active (R264). Where RST is not connected the clear is never active (R260). -/
def clearActive (f : LineFile) : Bool := f.pin .rst == some (.driven .low)

/-- Every shift stage moves by one, and the first takes `pin(DATA)` (R261). -/
def Chain.shiftIn (d : Bool) (sr : List Bool) : List Bool := (d :: sr).take sr.length

/-- The shift stages after a step of driven lines: cleared while RST is LOW (R264), else shifted on a rising clock edge
(R261), else as they were. -/
def Chain.nextSr (before after : LineFile) (ch : Chain) : List Bool :=
  if clearActive after then ch.sr.map fun _ => false
  else if risingEdge before after .clock then Chain.shiftIn (after.data.level == .high) ch.sr
  else ch.sr

/-- The storage stages after a step of driven lines: the shift stages on a rising latch edge, else as they were (R262;
the clear does not reach them, R264). -/
def Chain.nextSt (before after : LineFile) (ch : Chain) : List Bool :=
  if risingEdge before after .latch then ch.sr else ch.st

/-- What the chain does in one step of the lines. While a chain input is undriven, before or after the step, the stages
become any value (R266; DEDUCED, log entry 13). -/
def Chain.observe (n tick : Nat) (before after : LineFile) (ch : Chain) : Chain :=
  if before.anyUndriven || after.anyUndriven then Chain.unknown n tick
  else { sr := Chain.nextSr before after ch, st := Chain.nextSt before after ch }

/-- Every stage 0: what the frame of a completed INIT leaves (40_bringup.md R143, 60_exceptions.md R263). -/
def Chain.cleared (n : Nat) : Chain where
  sr := List.replicate (8 * n) false
  st := List.replicate (8 * n) false

/-- What the chain holds after one step of the controller. While a reset has abandoned a command and no INIT has completed
since, the stages hold any value (70_reset_and_hazards.md R283, 93_implementation_defined.md I3); in the step in which that
INIT completes they are what its frame left; otherwise they follow the lines (log entry 20). -/
def Chain.afterStep (n tick : Nat) (abandonedBefore abandonedAfter : Bool) (before after : LineFile) (ch : Chain) : Chain :=
  if abandonedAfter then Chain.unknown n tick
  else Chain.observe n tick before after (if abandonedBefore then Chain.cleared n else ch)

/-- A physical output (R262). -/
inductive Output where
  | driven (x : Bool)
  | highZ
deriving DecidableEq, Repr

/-- An output of any value: high-impedance or either level, at draw `tick` (R266, R283; log entry 12). -/
def Chain.freeOutput (tick j : Nat) : Output :=
  if Config.freeHighZ tick j then .highZ else .driven (Config.freeQ tick j)

/-- `Q[c][s]`, none where the chain has no such stage. Where the chain is known: the latched stage while `pin(OE)` is LOW or
OE is not connected, high-impedance while it is HIGH (R262). Otherwise, some chain input being undriven (R266) or an
abandoned command pending its INIT (70_reset_and_hazards.md R283): any value. -/
def Chain.output (known : Bool) (f : LineFile) (tick : Nat) (ch : Chain) (c s : Nat) : Option Output :=
  (ch.storageStage c s).map fun x =>
    if known then
      match f.pin .oe with
      | none => .driven x
      | some (.driven .low) => .driven x
      | some (.driven .high) => .highZ
      | some .undriven => Chain.freeOutput tick (8 * c + s)
    else Chain.freeOutput tick (8 * c + s)

end Sys2Proof.Machine
end

