-- ==== Sys2Proof/Machine/Memory.lean ====
section
/-! DEFINITION. The shadow register, the controller's only memory (20_memory.md R70), as a list of (part, byte) cells
in one canonical form: parts strictly rising, no cell equal to what an unlisted part reads as. -/

namespace Sys2Proof.Machine

/-- The bytes of the shadow that are not 0, by part. -/
abbrev Memory := List Host.Cell

/-- What an unlisted part reads as: the reset contents, 0 (10_state.md R33). -/
def Memory.unlisted : Byte := 0

/-- `MemRead(p, 1)`, which is `shadow[p]` (00_scope.md R15). -/
def Memory.read : Memory → Nat → Byte
  | [], _ => Memory.unlisted
  | (a, v) :: m, p => if p = a then v else Memory.read m p

/-- A cell that is listed only if it differs from an unlisted one. -/
def Memory.cell (p : Nat) (v : Byte) : Memory := if v = Memory.unlisted then [] else [(p, v)]

/-- `MemWrite(p, 1, v)`, which is `shadow[p] <- v` (00_scope.md R15). -/
def Memory.write : Memory → Nat → Byte → Memory
  | [], p, v => Memory.cell p v
  | (a, w) :: m, p, v =>
    if p < a then Memory.cell p v ++ (a, w) :: m
    else if p = a then Memory.cell p v ++ m
    else (a, w) :: Memory.write m p v

/-- Parts strictly rising from `lo` on, none at `n` or above, no cell that an unlisted part would read as. -/
def Memory.wfFrom (n : Nat) : Nat → Memory → Bool
  | _, [] => true
  | lo, (a, v) :: m => decide (lo ≤ a ∧ a < n ∧ v ≠ Memory.unlisted) && Memory.wfFrom n (a + 1) m

/-- The canonical form of the shadow of a chain of `n` chips: cells for parts 0 to `n - 1` only (R70). -/
def Memory.wf (n : Nat) (m : Memory) : Bool := Memory.wfFrom n 0 m

end Sys2Proof.Machine
end

