-- ==== Sys2Proof/Machine/State.lean ====
section
/-! DEFINITION. The state of the controller, its host interface and the chain, as plain data (10_state.md R55,
60_exceptions.md R260), and the state after reset (70_reset_and_hazards.md R281). -/

namespace Sys2Proof.Machine

/-- The status of a command (30_encoding.md R104). Code 3 is reserved and has no name: it is never produced. -/
inductive Status where
  | ok
  | outOfRange
  | illegal
deriving DecidableEq, Repr

/-- A micro-operation (10_state.md R43). -/
inductive MicroOp where
  | cfg (l : Line)
  | set (l : Line) (v : Level)
  | wait (t : Nat)
  | shb (p b : Nat) (x : Bool)
  | shz
deriving DecidableEq, Repr

/-- An event of the trace (10_state.md R46, R47, R51). `rdata` is the 8N-bit image of the shadow (20_memory.md R74). -/
inductive Event where
  | cfg (l : Line)
  | set (l : Line) (v : Level)
  | wait (t : Nat)
  | done (st : Status) (rdata : Nat)
deriving DecidableEq, Repr

/-- The sequencer (10_state.md R41). -/
inductive Seq where
  | idle
  | busy (prog : List MicroOp) (upc : Nat) (st : Status)
deriving DecidableEq, Repr

/-- Why the machine stops. The spec has no fault (60_exceptions.md R230): each of these is raised only in a state that no
run reaches (log entry 9). All are safe: the model stops. -/
inductive Fault where
  /-- Raised by a CFG or SET micro-operation on a line that is not connected, which no micro-program names
  (10_state.md R31). Safe. -/
  | noSuchLine (l : Line)
  /-- Raised by an SHB micro-operation outside `0 <= p < N`, `0 <= b <= 7` (R43). Safe. -/
  | noSuchShadowBit (p b : Nat)
  /-- Raised by a sequencer with `upc > length(prog)`, against R41. Safe. -/
  | upcPastEnd (upc : Nat)
deriving DecidableEq, Repr

/-- Why the machine has no meaning to give. -/
inductive Refusal where
  /-- Raised by the dispatch arm of a command that has no meaning in the model. Safe. -/
  | notModelled (mnemonic : String)
  /-- Raised by `step` under an invalid configuration: "no controller exists for it" (00_scope.md R12, I12). Safe. -/
  | invalidConfig
deriving DecidableEq, Repr

/-- The whole state. The controller's own part is `shadow`, `lines` and `seq` (10_state.md R55). -/
structure State where
  /-- The configuration (R30). It is carried here and no step writes it (log entry 1). -/
  cfg        : Config
  /-- The N shadow bytes (R32). -/
  shadow     : Memory
  /-- The mode and level registers of the connected lines (R36, R37). -/
  lines      : LineFile
  /-- The sequencer (R41). -/
  seq        : Seq
  /-- The observation: every event emitted so far, in order (R51; log entry 8). -/
  trace      : List Event
  /-- The length of the trace at each step in which reset was asserted (70_reset_and_hazards.md R282; log entry 8). -/
  resetMarks : List Nat
  /-- The commands the host will present, in order; it presents the head until it is transferred (R50; log entry 3). -/
  cmdPort    : List Command
  /-- The coming samples of the reset input, one for each step; deasserted past the end (R282; log entry 4). -/
  resetIn    : List Bool
  /-- The chain (60_exceptions.md R260). -/
  chain      : Chain
  /-- A reset has abandoned a command in flight and no INIT has completed since: the chain is unknown
  (70_reset_and_hazards.md R283; log entry 20). -/
  abandoned  : Bool
  /-- The model's own: the number of the next draw of free values (log entry 12). -/
  freeTick   : Nat
deriving DecidableEq, Repr

/-- The machine right after reset under a configuration (R281), the chain at power-on (R260). -/
def State.resetOf (c : Config) : State where
  cfg := c
  shadow := []
  lines := LineFile.reset c
  seq := .idle
  trace := []
  resetMarks := []
  cmdPort := []
  resetIn := []
  chain := Chain.unknown c.n 0
  abandoned := false
  freeTick := 1

/-- The machine right after reset, under the configuration of log entry 2. -/
def State.reset : State := State.resetOf Config.scenario

end Sys2Proof.Machine
end

