-- ==== Sys2Proof/Machine/Operands.lean ====
section
/-! DEFINITION. Operand forms: the pin-to-bit mapping, the layout of `wdata` and `rdata`, bits of a byte, and the order
of parts and bits on the wire (20_memory.md R71 to R75, 30_encoding.md R105). -/

namespace Sys2Proof.Machine

/-- `part(k) = k / 8` (20_memory.md R71). -/
def pinPart (k : Nat) : Nat := k / 8

/-- `bit(k) = k mod 8` (R71). -/
def pinBit (k : Nat) : Nat := k % 8

/-- The number of a pin operand, zero-extended (30_encoding.md R103). -/
def pinNumber (pin : BitVec 16) : Nat := pin.toNat

/-- `wdata[8p+b]`, bit `b` of `values[p]` (20_memory.md R73). -/
def wdataBit (wdata p b : Nat) : Bool := wdata.testBit (8 * p + b)

/-- `values[p] = wdata[8p+7 : 8p]` (R73). -/
def wdataByte (wdata p : Nat) : Byte := BitVec.ofNat 8 (wdata / 256 ^ p)

/-- The sum over the first `n` parts of `f p * 256^p` (R74). -/
def packParts (f : Nat → Byte) : Nat → Nat
  | 0 => 0
  | n + 1 => packParts f n + (f n).toNat * 256 ^ n

/-- `v` with bit `b` replaced by `x` (00_scope.md R15). -/
def setBit (v : Byte) (b : Nat) (x : Bool) : Byte :=
  if x then v ||| ((1 : Byte) <<< b) else v &&& ~~~((1 : Byte) <<< b)

/-- `shadow[p][b]` (00_scope.md R13, R15). -/
def Memory.bit (m : Memory) (p b : Nat) : Bool := (m.read p).getLsbD b

/-- `shadow[p][b] <- x` (00_scope.md R15). -/
def Memory.writeBit (m : Memory) (p b : Nat) (x : Bool) : Memory := m.write p (setBit (m.read p) b x)

/-- The value bit sent `i`-th of a part (20_memory.md R75). -/
def wireBit (ord : BitOrder) (i : Nat) : Nat :=
  match ord with
  | .lsbFirst => i
  | .msbFirst => 7 - i

/-- `[ (p, i) | p <- 0 .. N-1, i <- 0 .. 7 ]`, part-major: part 0 is sent first (20_memory.md R72). -/
def slots (n : Nat) : List (Nat × Nat) :=
  (List.range n).flatMap fun p => (List.range 8).map fun i => (p, i)

/-- `rdata`, the 8N-bit image of the shadow (20_memory.md R74). -/
def rdataOf (n : Nat) (m : Memory) : Nat := packParts m.read n

/-- `rdata` of a state. -/
def State.rdata (s : State) : Nat := rdataOf s.cfg.n s.shadow

/-- `cmd_ready` (10_state.md R42). -/
def State.cmdReady (s : State) : Bool := s.seq == .idle

/-- `pin(l)` (10_state.md R38). -/
def State.pin (s : State) (l : Line) : Option Pin := s.lines.pin l

/-- The chain's contents follow from the lines: no connected line is undriven (60_exceptions.md R266), and no abandoned
command is pending its INIT (70_reset_and_hazards.md R283). -/
def State.chainKnown (s : State) : Bool := !s.abandoned && !s.lines.anyUndriven

/-- `Q[c][s]`, a physical output of the chain (60_exceptions.md R262, R266). -/
def State.output (s : State) (c stage : Nat) : Option Output :=
  s.chain.output s.chainKnown s.lines s.freeTick c stage

end Sys2Proof.Machine
end

