-- ==== Sys2Proof/Machine/Frame.lean ====
section
/-! DEFINITION. The wire encoding (30_encoding.md R110 to R115): cells, frames and bit streams. -/

namespace Sys2Proof.Machine

/-- `pulse clock HIGH then LOW`, the tail of a fast cell (30_encoding.md R112). -/
def clockPulse : List MicroOp := [.set .clock .high, .set .clock .low]

/-- The fast cell of bit `d` (R112). -/
def fastCell (d : Bool) : List MicroOp := .set .data (lvl d) :: clockPulse

/-- The settled cell of bit `d` (R111). -/
def settledCell (tSettle : Nat) (d : Bool) : List MicroOp :=
  [.set .data (lvl d), .set .clock .high, .wait tSettle, .set .clock .low]

/-- The latch framing of a body of cells (R110). -/
def latchedFrame (body : List MicroOp) : List MicroOp :=
  .set .latch .low :: (body ++ [.set .latch .high])

/-- The bit stream of WRITE (R113). -/
def writeStream (n : Nat) (ord : BitOrder) (wdata : Nat) : List Bool :=
  (slots n).map fun x => wdataBit wdata x.1 (wireBit ord x.2)

/-- The MSB-first bit stream of a shadow (R114). -/
def shadowStream (n : Nat) (m : Memory) : List Bool :=
  (slots n).map fun x => m.bit x.1 (wireBit .msbFirst x.2)

/-- The bit stream of ALL_OFF (R114). -/
def zeroStream (n : Nat) : List Bool := List.replicate (8 * n) false

end Sys2Proof.Machine
end

