-- ==== Sys2Proof/Machine/Flags.lean ====
section
/-! DEFINITION. The controller has no condition codes and no status flags (10_state.md R40). What a command reports is a
2-bit status code (30_encoding.md R104). -/

namespace Sys2Proof.Machine

/-- The code of a status (R104). -/
def statusCode : Status → BitVec 2
  | .ok => 0
  | .outOfRange => 1
  | .illegal => 2

/-- The status of a code; code 3 is reserved (R104). -/
def statusOfCode (code : BitVec 2) : Option Status :=
  if code = 0 then some .ok
  else if code = 1 then some .outOfRange
  else if code = 2 then some .illegal
  else none

/-- The status of an out-of-range WRITE_PIN (10_state.md R45, 60_exceptions.md R232). -/
def outOfRangeStatus : PinPolicy → Status
  | .ignore => .ok
  | .reject => .outOfRange

end Sys2Proof.Machine
end

