-- ==== Sys2Proof/Machine/Ops.lean ====
section
/-! DEFINITION. The named operations every command shares: starting a micro-program, rejecting a command, performing one
micro-operation, completing, and the controller's reset (10_state.md R45 to R47, 60_exceptions.md R231,
70_reset_and_hazards.md R282). -/

namespace Sys2Proof.Machine

/-- `seq <- q`. -/
def State.withSeq (s : State) (q : Seq) : State := { s with seq := q }

/-- The commands the host still presents. -/
def State.withPort (s : State) (cs : List Command) : State := { s with cmdPort := cs }

/-- `seq <- BUSY(prog, 0, st)` of the accept step (10_state.md R45). No transfer happens while the sequencer is busy
(R42, R50): the state is then as it was. -/
def startCommand (prog : List MicroOp) (st : Status) (s : State) : Host.Outcome State Fault Refusal :=
  match s.seq with
  | .idle => .next (s.withSeq (.busy prog 0 st))
  | .busy _ _ _ => .next s

/-- `raise Reject(status)`: an empty micro-program with that status (60_exceptions.md R231). This is the whole exception
mechanism: no state is saved, no mode changes, no vector exists and nothing returns (R230, R234). -/
def rejectCommand (st : Status) (s : State) : Host.Outcome State Fault Refusal := startCommand [] st s

/-- The event of a micro-operation; SHB and SHZ have none (10_state.md R46). -/
def MicroOp.event : MicroOp → Option Event
  | .cfg l => some (.cfg l)
  | .set l v => some (.set l v)
  | .wait t => some (.wait t)
  | .shb _ _ _ => none
  | .shz => none

/-- What is wrong with a micro-operation under a configuration: R43 asks for a connected line, `0 <= p < N` and
`0 <= b <= 7`. -/
def MicroOp.check (c : Config) : MicroOp → Option Fault
  | .cfg l => if connected c l then none else some (.noSuchLine l)
  | .set l _ => if connected c l then none else some (.noSuchLine l)
  | .wait _ => none
  | .shb p b _ => if p < c.n ∧ b < 8 then none else some (.noSuchShadowBit p b)
  | .shz => none

/-- What a micro-operation does to the line registers (10_state.md R46). -/
def MicroOp.onLines : MicroOp → LineFile → LineFile
  | .cfg l, f => f.configure l
  | .set l v, f => f.drive l v
  | .wait _, f => f
  | .shb _ _ _, f => f
  | .shz, f => f

/-- What a micro-operation does to the shadow (10_state.md R46). SHZ leaves every part 0, which is nothing listed. -/
def MicroOp.onShadow : MicroOp → Memory → Memory
  | .cfg _, m => m
  | .set _ _, m => m
  | .wait _, m => m
  | .shb p b x, m => m.writeBit p b x
  | .shz, _ => []

/-- The effect and the event of one micro-operation (10_state.md R46). -/
def applyOp (op : MicroOp) (s : State) : State :=
  { s with
    lines := op.onLines s.lines
    shadow := op.onShadow s.shadow
    trace := s.trace ++ op.event.toList }

/-- Perform one micro-operation, or stop where it names what does not exist. -/
def perform (op : MicroOp) (s : State) : Host.Outcome State Fault Refusal :=
  match op.check s.cfg with
  | none => .next (applyOp op s)
  | some f => .fault f

/-- The completion step: `emit Done(st, rdata)` and `seq <- IDLE` (10_state.md R47). -/
def complete (st : Status) (s : State) : State :=
  { s with seq := .idle, trace := s.trace ++ [.done st s.rdata] }

/-- Every controller state at its reset value (70_reset_and_hazards.md R281, R283); the point is marked beside the trace
(R282). The configuration is not reset, and no event is emitted. A command in flight is abandoned (R283). -/
def controllerReset (s : State) : State :=
  { s with
    shadow := []
    lines := LineFile.reset s.cfg
    seq := .idle
    abandoned := s.abandoned || s.seq != .idle
    resetMarks := s.resetMarks ++ [s.trace.length] }

/-- The chain sees the step from `before` to `after`, and the draw of free values is counted
(60_exceptions.md R260 to R266, 70_reset_and_hazards.md R283). -/
def observeChain (before after : State) : State :=
  { after with
    chain := Chain.afterStep after.cfg.n before.freeTick before.abandoned after.abandoned before.lines after.lines
      before.chain
    freeTick := before.freeTick + 1 }

end Sys2Proof.Machine
end

