-- ==== Sys2Proof/Machine/AllOff.lean ====
section
/-! DEFINITION. ALL_OFF (43_all_off.md R200 to R206). -/

namespace Sys2Proof.Machine

/-- `replicate (8*N) [SET(DATA, LOW), SET(CLOCK, HIGH), SET(CLOCK, LOW)]` (43_all_off.md R201). -/
def zeroCells (n : Nat) : List MicroOp := (List.replicate (8 * n) (fastCell false)).flatten

/-- `prog_alloff(cfg, latch)` (R201). -/
def progAllOff (c : Config) (latch : Bool) : List MicroOp :=
  if latch then latchedFrame (zeroCells c.n) ++ [.shz] else zeroCells c.n

/-- ALL_OFF's accept step (10_state.md R45). -/
def execAllOff (latch : Bool) (s : State) : Host.Outcome State Fault Refusal :=
  startCommand (progAllOff s.cfg latch) .ok s

end Sys2Proof.Machine
end

