-- ==== Sys2Proof/Machine/BringUp.lean ====
section
/-! DEFINITION. INIT (40_bringup.md R140 to R146). -/

namespace Sys2Proof.Machine

/-- Step 1: configure DATA, LATCH and CLOCK, then drive all three LOW (40_bringup.md R141). -/
def initLines : List MicroOp :=
  [.cfg .data, .cfg .latch, .cfg .clock, .set .data .low, .set .latch .low, .set .clock .low]

/-- Step 2: the output enable is configured and driven HIGH (R141). -/
def initOe (c : Config) : List MicroOp :=
  if c.hasOe then [.cfg .oe, .set .oe .high] else []

/-- Step 3: the reset pulse (R141). -/
def initRst (c : Config) : List MicroOp :=
  if c.hasRst then
    [.cfg .rst, .set .rst .high, .wait c.tRst, .set .rst .low, .wait c.tRst, .set .rst .high]
  else []

/-- Step 5: the outputs are enabled (R141). -/
def initEnable (c : Config) : List MicroOp :=
  if c.hasOe then [.set .oe .low] else []

/-- `prog_init(cfg)`; step 4 is ALL_OFF with LATCH = 1 (R141). -/
def progInit (c : Config) : List MicroOp :=
  initLines ++ initOe c ++ initRst c ++ progAllOff c true ++ initEnable c

/-- INIT's accept step (10_state.md R45). -/
def execInit (s : State) : Host.Outcome State Fault Refusal :=
  startCommand (progInit s.cfg) .ok s

end Sys2Proof.Machine
end

