-- ==== Sys2Proof/Machine/StateAccess.lean ====
section
/-! DEFINITION. STATE (44_state.md R220 to R224). -/

namespace Sys2Proof.Machine

/-- `prog_state` (44_state.md R221). -/
def progState : List MicroOp := []

/-- STATE's accept step (10_state.md R45). -/
def execState (s : State) : Host.Outcome State Fault Refusal := startCommand progState .ok s

end Sys2Proof.Machine
end

