-- ==== Sys2Proof/Machine/Write.lean ====
section
/-! DEFINITION. WRITE (41_write.md R160 to R166). -/

namespace Sys2Proof.Machine

/-- `cellW(p, i)`: the settled cell of the bit, then the shadow bit write (41_write.md R161). -/
def writeCell (c : Config) (ord : BitOrder) (wdata p i : Nat) : List MicroOp :=
  settledCell c.tSettle (wdataBit wdata p (wireBit ord i))
    ++ [.shb p (wireBit ord i) (wdataBit wdata p (wireBit ord i))]

/-- `prog_write(cfg, wdata, ord)` (R161). -/
def progWrite (c : Config) (wdata : Nat) (ord : BitOrder) : List MicroOp :=
  latchedFrame ((slots c.n).flatMap fun x => writeCell c ord wdata x.1 x.2)

/-- WRITE's accept step (10_state.md R45). -/
def execWrite (ord : BitOrder) (wdata : Nat) (s : State) : Host.Outcome State Fault Refusal :=
  startCommand (progWrite s.cfg wdata ord) .ok s

end Sys2Proof.Machine
end

