-- ==== Sys2Proof/Machine/WritePin.lean ====
section
/-! DEFINITION. WRITE_PIN (42_write_pin.md R180 to R187). -/

namespace Sys2Proof.Machine

/-- `cellP(p, i)`: the target cell writes the shadow bit between its DATA set and its clock pulse; every other cell sends
the shadow's own bit (42_write_pin.md R181). -/
def pinCell (m : Memory) (pin : Nat) (turnOn : Bool) (p i : Nat) : List MicroOp :=
  if p = pinPart pin ∧ wireBit .msbFirst i = pinBit pin then
    .set .data (lvl turnOn) :: .shb p (wireBit .msbFirst i) turnOn :: clockPulse
  else fastCell (m.bit p (wireBit .msbFirst i))

/-- `prog_pin(cfg, s, pin, on)` of a pin in range (R181). -/
def progPin (c : Config) (m : Memory) (pin : Nat) (turnOn : Bool) : List MicroOp :=
  latchedFrame ((slots c.n).flatMap fun x => pinCell m pin turnOn x.1 x.2)

/-- WRITE_PIN's accept step (10_state.md R45): the shadow is read here; out of range, the micro-program is empty. -/
def execWritePin (pin : BitVec 16) (turnOn : Bool) (s : State) : Host.Outcome State Fault Refusal :=
  if pinNumber pin < s.cfg.pins then
    startCommand (progPin s.cfg s.shadow (pinNumber pin) turnOn) .ok s
  else rejectCommand (outOfRangeStatus s.cfg.pinPolicy) s

end Sys2Proof.Machine
end

