-- ==== Sys2Proof/Machine/Dispatch.lean ====
section
/-! DEFINITION. One arm for each command: its accept step (10_state.md R45). -/

namespace Sys2Proof.Machine

def exec (i : Instr) (s : State) : Host.Outcome State Fault Refusal :=
  match i with
  | .init => Sys2Proof.Machine.execInit s
  | .write ord wdata => Sys2Proof.Machine.execWrite ord wdata s
  | .writePin pin turnOn => Sys2Proof.Machine.execWritePin pin turnOn s
  | .allOff latch => Sys2Proof.Machine.execAllOff latch s
  | .state => Sys2Proof.Machine.execState s

end Sys2Proof.Machine
end

