-- ==== Sys2Proof/Machine/Sequencer.lean ====
section
/-! DEFINITION. The sequencer: the accept, micro-operation and completion steps (10_state.md R45 to R48), one step of the
controller with the chain looking on, and the step in which reset is asserted. -/

namespace Sys2Proof.Machine

/-- `accept(cw, wdata)` (10_state.md R45): the instruction's accept step, or the rejection of an illegal word. -/
def acceptCommand (c : Command) (s : State) : Host.Outcome State Fault Refusal :=
  match decode c.cw c.wdata with
  | .instr i => exec i s
  | .illegal _ => rejectCommand .illegal s

/-- A step of an idle sequencer: the presented command is transferred (R45, R50), or the controller waits (R48). -/
def idleStep (s : State) : Host.Outcome State Fault Refusal :=
  match s.cmdPort with
  | [] => .next s
  | c :: rest => acceptCommand c (s.withPort rest)

/-- A completed INIT ends the time in which an abandoned command leaves the chain unknown (70_reset_and_hazards.md R283). The
command is told by its micro-program, the only thing the sequencer keeps of it (10_state.md R41). -/
def settleInit (prog : List MicroOp) (s : State) : State :=
  { s with abandoned := s.abandoned && prog != progInit s.cfg }

/-- A step of a busy sequencer: the micro-operation step (R46) or the completion step (R47). -/
def busyStep (prog : List MicroOp) (upc : Nat) (st : Status) (s : State) : Host.Outcome State Fault Refusal :=
  match prog[upc]? with
  | some op => perform op (s.withSeq (.busy prog (upc + 1) st))
  | none => if upc = prog.length then .next (settleInit prog (complete st s)) else .fault (.upcPastEnd upc)

/-- The controller's step (R48). -/
def controllerStep (s : State) : Host.Outcome State Fault Refusal :=
  match s.seq with
  | .idle => idleStep s
  | .busy prog upc st => busyStep prog upc st s

/-- A step with reset deasserted: the controller's, and what the chain sees of it. -/
def advance (s : State) : Host.Outcome State Fault Refusal :=
  match controllerStep s with
  | .next t => .next (observeChain s t)
  | .fault f => .fault f
  | .refused r => .refused r

/-- The reset input in this step; past the listed samples it is deasserted (70_reset_and_hazards.md R282). -/
def State.resetNow (s : State) : Bool := s.resetIn.headD false

/-- The state with this step's sample of the reset input taken. -/
def State.sampled (s : State) : State := { s with resetIn := s.resetIn.tail }

/-- A step with reset asserted: every controller state is at its reset value and no command is transferred
(70_reset_and_hazards.md R282, 60_exceptions.md R233; log entry 5). The chain sees its inputs become undriven. -/
def resetStep (s : State) : State := observeChain s (controllerReset s)

/-- The state with a command presented next, in a step that can take it (log entry 6). -/
def State.presenting (c : Command) (s : State) : State :=
  { s with seq := .idle, cmdPort := c :: s.cmdPort, resetIn := false :: s.resetIn }

end Sys2Proof.Machine
end

