-- ==== Sys2Proof/Machine/Step.lean ====
section
/-! DEFINITION. One step of the machine, and the placing of a command where the next step takes it. -/

namespace Sys2Proof.Machine

/-- One step. No controller exists for an invalid configuration (00_scope.md R12); reset beats everything else
(60_exceptions.md R233); otherwise the controller takes its step (10_state.md R48). -/
def step (s : State) : Host.Outcome State Fault Refusal :=
  if s.cfg.valid then
    if s.resetNow then .next (resetStep s.sampled) else advance s.sampled
  else .refused .invalidConfig

/-- The state in which the next step takes the command whose bits are `w` (log entry 6). -/
def State.withFetchWord (s : State) (nbits w : Nat) : State := s.presenting (tableCommand nbits w)

end Sys2Proof.Machine
end

