-- ==== Sys2Proof/Machine/Assembler.lean ====
section
/-! DEFINITION. Assembly syntax and pseudo-commands (30_encoding.md R123, R124): an assembler line as text, as abstract
syntax, and as the command it stands for. It is no part of the machine: `step` never calls it. -/

namespace Sys2Proof.Machine

/-- A line of assembly (30_encoding.md R123, R124). -/
inductive AsmLine where
  | init
  | write (ord : BitOrder) (values : List Nat)
  | writePin (k : Nat) (turnOn : Bool)
  | allOff (latch : Bool)
  | state
  | setPin (k : Nat)
  | clrPin (k : Nat)
  | clear
  | shiftZero
deriving DecidableEq, Repr

/-- `v0` in the low byte (R123, 20_memory.md R73). -/
def packValues : List Nat → Nat
  | [] => 0
  | v :: vs => v + 256 * packValues vs

/-- WRITE_PIN's instruction if `k` fits in 16 bits (R123). -/
def pinInstr (k : Nat) (turnOn : Bool) : Option Instr :=
  if k < 2 ^ 16 then some (.writePin (BitVec.ofNat 16 k) turnOn) else none

/-- The instruction of a line for a chain of `n` chips. "A WRITE must list exactly N values, and `k` must fit in 16 bits.
An assembler refuses a line that breaks either constraint" (R123). A value above 255 is refused too (log entry 21). -/
def AsmLine.instr? (n : Nat) : AsmLine → Option Instr
  | .init => some .init
  | .write ord values =>
    if values.length = n ∧ values.all (· < 256) then some (.write ord (packValues values)) else none
  | .writePin k turnOn => pinInstr k turnOn
  | .allOff latch => some (.allOff latch)
  | .state => some .state
  | .setPin k => pinInstr k true
  | .clrPin k => pinInstr k false
  | .clear => some (.allOff true)
  | .shiftZero => some (.allOff false)

/-- The command a line assembles to (R123). -/
def assemble (n : Nat) (l : AsmLine) : Option Command := (l.instr? n).map encode

/-- The text of a line before its comment (R123: `;` starts a comment). -/
def dropComment (cs : List Char) : List Char := cs.takeWhile (· ≠ ';')

/-- Cut a text at every character for which `sep` holds. -/
def cutAt (sep : Char → Bool) : List Char → List (List Char)
  | [] => [[]]
  | c :: cs =>
    if sep c then [] :: cutAt sep cs
    else match cutAt sep cs with
      | [] => [[c]]
      | w :: ws => (c :: w) :: ws

/-- The blank-separated words of a text. -/
def wordsOf (cs : List Char) : List (List Char) :=
  (cutAt (fun c => c == ' ' || c == '\t') cs).filter fun w => !w.isEmpty

/-- The value of a digit in any of the three radixes (R123); hex digits in either case (log entry 21). -/
def digitValue (c : Char) : Option Nat :=
  if '0' ≤ c ∧ c ≤ '9' then some (c.toNat - 48)
  else if 'a' ≤ c ∧ c ≤ 'f' then some (c.toNat - 87)
  else if 'A' ≤ c ∧ c ≤ 'F' then some (c.toNat - 55)
  else none

/-- Digits of a radix, most significant first, after the value `acc`. -/
def digitsFrom (radix acc : Nat) : List Char → Option Nat
  | [] => some acc
  | c :: cs =>
    match digitValue c with
    | some d => if d < radix then digitsFrom radix (acc * radix + d) cs else none
    | none => none

/-- A non-empty run of digits. -/
def digits (radix : Nat) (cs : List Char) : Option Nat :=
  if cs.isEmpty then none else digitsFrom radix 0 cs

/-- A number: decimal, `0x` hex or `0b` binary (R123). -/
def numberOf : List Char → Option Nat
  | '0' :: 'x' :: cs => digits 16 cs
  | '0' :: 'b' :: cs => digits 2 cs
  | cs => digits 10 cs

/-- A list of numbers, none if one of them is not a number. -/
def numbersOf : List (List Char) → Option (List Nat)
  | [] => some []
  | w :: ws =>
    match numberOf w, numbersOf ws with
    | some v, some vs => some (v :: vs)
    | _, _ => none

/-- `LSB` or `MSB` (R123). -/
def orderOf (w : List Char) : Option BitOrder :=
  if w = ['L', 'S', 'B'] then some .lsbFirst
  else if w = ['M', 'S', 'B'] then some .msbFirst
  else none

/-- `ON` or `OFF` (R123). -/
def onOff (w : List Char) : Option Bool :=
  if w = ['O', 'N'] then some true else if w = ['O', 'F', 'F'] then some false else none

/-- `LATCH` or `NOLATCH` (R123). -/
def latchWord (w : List Char) : Option Bool :=
  if w = ['L', 'A', 'T', 'C', 'H'] then some true
  else if w = ['N', 'O', 'L', 'A', 'T', 'C', 'H'] then some false
  else none

/-- A line from its mnemonic and its comma-separated operands (R123, R124). -/
def lineOf (mnemonic : List Char) (operands : List (List Char)) : Option AsmLine :=
  if mnemonic = ['I', 'N', 'I', 'T'] then
    if operands.isEmpty then some .init else none
  else if mnemonic = ['W', 'R', 'I', 'T', 'E'] then
    match operands with
    | o :: vs =>
      match orderOf o, numbersOf vs with
      | some ord, some values => some (.write ord values)
      | _, _ => none
    | [] => none
  else if mnemonic = ['W', 'R', 'I', 'T', 'E', '_', 'P', 'I', 'N'] then
    match operands with
    | [k, x] =>
      match numberOf k, onOff x with
      | some pin, some turnOn => some (.writePin pin turnOn)
      | _, _ => none
    | _ => none
  else if mnemonic = ['A', 'L', 'L', '_', 'O', 'F', 'F'] then
    match operands with
    | [x] => (latchWord x).map .allOff
    | _ => none
  else if mnemonic = ['S', 'T', 'A', 'T', 'E'] then
    if operands.isEmpty then some .state else none
  else if mnemonic = ['S', 'E', 'T', 'P', 'I', 'N'] then
    match operands with
    | [k] => (numberOf k).map .setPin
    | _ => none
  else if mnemonic = ['C', 'L', 'R', 'P', 'I', 'N'] then
    match operands with
    | [k] => (numberOf k).map .clrPin
    | _ => none
  else if mnemonic = ['C', 'L', 'E', 'A', 'R'] then
    if operands.isEmpty then some .clear else none
  else if mnemonic = ['S', 'H', 'I', 'F', 'T', 'Z', 'E', 'R', 'O'] then
    if operands.isEmpty then some .shiftZero else none
  else none

/-- The one word of each text after the first comma, none if one of them is not exactly one word. -/
def singleWords : List (List Char) → Option (List (List Char))
  | [] => some []
  | cs :: rest =>
    match wordsOf cs, singleWords rest with
    | [w], some ws => some (w :: ws)
    | _, _ => none

/-- A line of text (R123): a mnemonic, a blank, and operands separated by commas; blanks around operands and the comment
do not matter. None is a line that an assembler refuses, or one without a command. -/
def parseLine (cs : List Char) : Option AsmLine :=
  match cutAt (· == ',') (dropComment cs) with
  | [] => none
  | head :: rest =>
    match wordsOf head, singleWords rest with
    | [mnemonic], some [] => lineOf mnemonic []
    | [mnemonic, w], some ws => lineOf mnemonic (w :: ws)
    | _, _ => none

/-- A line of text to its command, for a chain of `n` chips. -/
def assembleText (n : Nat) (cs : List Char) : Option Command := (parseLine cs).bind (assemble n)

end Sys2Proof.Machine
end

