-- ==== Sys2Proof/Machine/Command.lean ====
section
/-! DEFINITION. Command-level semantics (10_state.md R52): the accept step, then the micro-operation steps, then the
completion step, with no reset between them. The spec calls this composition `exec`; the host's name `exec` is the
accept step here (log entry 7). -/

namespace Sys2Proof.Machine

/-- `k` steps with reset deasserted. -/
def advanceN : Nat → State → Host.Outcome State Fault Refusal
  | 0, s => .next s
  | k + 1, s =>
    match advance s with
    | .next t => advanceN k t
    | .fault f => .fault f
    | .refused r => .refused r

/-- How many steps the command in flight still takes: its micro-operations and its completion (10_state.md R48). -/
def Seq.stepsLeft : Seq → Nat
  | .idle => 0
  | .busy prog upc _ => prog.length - upc + 1

/-- Run the command in flight to its `Done` (R46, R47). -/
def finish (s : State) : Host.Outcome State Fault Refusal := advanceN s.seq.stepsLeft s

/-- From the outcome of an accept step at `s` to the `Done` of the command. -/
def toDone (s : State) (accepted : Host.Outcome State Fault Refusal) : Host.Outcome State Fault Refusal :=
  match accepted with
  | .next t => finish (observeChain s t)
  | .fault f => .fault f
  | .refused r => .refused r

/-- One instruction from an idle controller to its `Done` (R52). -/
def runInstr (i : Instr) (s : State) : Host.Outcome State Fault Refusal := toDone s (exec i s)

/-- `exec(s, cw, wdata)` of R52: one presented command, illegal words included. -/
def runCommand (c : Command) (s : State) : Host.Outcome State Fault Refusal := toDone s (acceptCommand c s)

/-- Commands one after another, each to its `Done` (R42, R50). -/
def runCommands : List Command → State → Host.Outcome State Fault Refusal
  | [], s => .next s
  | c :: cs, s =>
    match runCommand c s with
    | .next t => runCommands cs t
    | .fault f => .fault f
    | .refused r => .refused r

/-- The micro-program of an instruction at its accept step (R45). -/
def programOf (c : Config) (m : Memory) : Instr → List MicroOp
  | .init => progInit c
  | .write ord wdata => progWrite c wdata ord
  | .writePin pin turnOn => if pinNumber pin < c.pins then progPin c m (pinNumber pin) turnOn else []
  | .allOff latch => progAllOff c latch
  | .state => progState

/-- The status of an instruction, decided at its accept step (R45). -/
def statusOf (c : Config) : Instr → Status
  | .init => .ok
  | .write _ _ => .ok
  | .writePin pin _ => if pinNumber pin < c.pins then .ok else outOfRangeStatus c.pinPolicy
  | .allOff _ => .ok
  | .state => .ok

/-- The micro-program of a presented command; empty for an illegal word (R45, 60_exceptions.md R231). -/
def commandProgram (c : Config) (m : Memory) (cmd : Command) : List MicroOp :=
  match decode cmd.cw cmd.wdata with
  | .instr i => programOf c m i
  | .illegal _ => []

/-- The status of a presented command (R45; illegal first, then the pin range: 60_exceptions.md R233). -/
def commandStatus (c : Config) (cmd : Command) : Status :=
  match decode cmd.cw cmd.wdata with
  | .instr i => statusOf c i
  | .illegal _ => .illegal

end Sys2Proof.Machine
end

