-- ==== Sys2Proof/Machine/Timing.lean ====
section
/-! DEFINITION. The counts of the timing table (70_reset_and_hazards.md R300), as functions of a micro-program. The model
keeps no time (10_state.md R49). -/

namespace Sys2Proof.Machine

/-- The events a micro-program emits, in order (10_state.md R46). -/
def progEvents (prog : List MicroOp) : List Event := prog.filterMap MicroOp.event

/-- The duration of a WAIT. -/
def MicroOp.waitTime : MicroOp → Option Nat
  | .wait t => some t
  | .cfg _ => none
  | .set _ _ => none
  | .shb _ _ _ => none
  | .shz => none

/-- Line and wait events before `Done`. -/
def eventCount (prog : List MicroOp) : Nat := (progEvents prog).length

/-- `Wait` events. -/
def waitCount (prog : List MicroOp) : Nat := (prog.filterMap MicroOp.waitTime).length

/-- `SET(CLOCK, HIGH)` micro-operations: the rising edges on CLOCK, since each cell ends with CLOCK LOW. -/
def clockRises (prog : List MicroOp) : Nat := prog.count (.set .clock .high)

/-- The least real duration in ms: the sum of the waits (R49, R300). -/
def leastDuration (prog : List MicroOp) : Nat := (prog.filterMap MicroOp.waitTime).sum

/-- `oe` or `rst` of R300: 1 if the line is connected, else 0. -/
def bit01 (x : Bool) : Nat := if x then 1 else 0

/-- The timing row of a micro-program: micro-operations, events, waits, rising CLOCK edges, least duration. -/
structure TimingRow where
  ops      : Nat
  events   : Nat
  waits    : Nat
  rises    : Nat
  duration : Nat
deriving DecidableEq, Repr

/-- The timing row of a micro-program (R300). -/
def timingOf (prog : List MicroOp) : TimingRow where
  ops := prog.length
  events := eventCount prog
  waits := waitCount prog
  rises := clockRises prog
  duration := leastDuration prog

end Sys2Proof.Machine
end

