-- ==== Sys2Proof/Safety.lean ====
section
/-! DEFINITION. What counts as a state of the machine and a safe run, in the terms the claims use: the invariant, the
booted state, and the physical match between the shadow and the latched image. -/

namespace Sys2Proof.Machine

/-- OE and RST have registers exactly where they are connected (10_state.md R31). -/
def linesMatch (c : Config) (f : LineFile) : Bool :=
  f.oe.isSome == c.hasOe && f.rst.isSome == c.hasRst

/-- A sequencer as 10_state.md R41 and R43 describe it: `upc <= length(prog)`, every micro-operation names what exists,
and a command that reports a failure has an empty micro-program (60_exceptions.md R231). -/
def seqWf (c : Config) : Seq → Bool
  | .idle => true
  | .busy prog upc st =>
    decide (upc ≤ prog.length) && prog.all (fun op => (op.check c).isNone) && (st == .ok || prog.isEmpty)

/-- The invariant of the machine: a valid configuration (00_scope.md R12), a canonical shadow of N parts, registers for the
connected lines, a well-formed sequencer, a chain of 8N stages, and commands that fit the port. -/
def State.inv (s : State) : Bool :=
  s.cfg.valid && s.shadow.wf s.cfg.n && linesMatch s.cfg s.lines && seqWf s.cfg s.seq
    && s.chain.sr.length == 8 * s.cfg.n && s.chain.st.length == 8 * s.cfg.n
    && s.cmdPort.all (Command.wellFormed s.cfg.n)

/-- `State.inv` as a proposition. -/
abbrev State.Inv (s : State) : Prop := s.inv = true

/-- A connected line's mode, none where it is not connected. -/
def State.mode (s : State) (l : Line) : Option LineMode := (s.lines.get l).map LineReg.mode

/-- A connected line's level, none where it is not connected. -/
def State.level (s : State) (l : Line) : Option Level := (s.lines.get l).map LineReg.level

/-- What INIT leaves on the lines and every later command keeps (10_state.md R53, 40_bringup.md R143): every connected line
an output, CLOCK LOW, LATCH HIGH, OE LOW and RST HIGH. -/
def LineFile.booted (f : LineFile) : Bool :=
  f.data.mode == .output && f.clock == ⟨.output, .low⟩ && f.latch == ⟨.output, .high⟩
    && (f.oe == none || f.oe == some ⟨.output, .low⟩) && (f.rst == none || f.rst == some ⟨.output, .high⟩)

/-- The stage of a chip that value bit `b` lands on, by the order of the frame (60_exceptions.md R263). -/
def stageOf (ord : BitOrder) (b : Nat) : Nat :=
  match ord with
  | .msbFirst => b
  | .lsbFirst => 7 - b

/-- The latched image equals the shadow under the layout of `ord` (60_exceptions.md R265). -/
def State.PhysicalMatch (s : State) (ord : BitOrder) : Prop :=
  ∀ p, p < s.cfg.n → ∀ b, b < 8 →
    s.chain.storageStage (s.cfg.n - 1 - p) (stageOf ord b) = some (s.shadow.bit p b)

/-- The bit order of the last latched frame after a command, given the order before it (60_exceptions.md R265): a WRITE's
`ORD`, MSB_FIRST for a WRITE_PIN in range, either order for an all-zero frame, and no new frame otherwise. -/
def orderAfter (c : Config) (before : BitOrder) (cmd : Command) : BitOrder :=
  match decode cmd.cw cmd.wdata with
  | .instr (.write ord _) => ord
  | .instr (.writePin pin _) => if pinNumber pin < c.pins then .msbFirst else before
  | .instr .init => before
  | .instr (.allOff _) => before
  | .instr .state => before
  | .illegal _ => before

/-- The bit order of the last latched frame after a list of commands. -/
def ordersAfter (c : Config) : BitOrder → List Command → BitOrder
  | ord, [] => ord
  | ord, cmd :: cs => ordersAfter c (orderAfter c ord cmd) cs

/-- Reset is not asserted in the next `k` steps. -/
def State.QuietFor (s : State) (k : Nat) : Prop := ∀ x ∈ s.resetIn.take k, x = false

/-- The micro-operation that the next step performs if reset is not asserted (10_state.md R46). -/
def State.currentOp (s : State) : Option MicroOp :=
  match s.seq with
  | .idle => none
  | .busy prog upc _ => prog[upc]?

/-- What lies outside the controller is as it was: the configuration, the commands still to be presented, the coming reset
samples and the reset marks. -/
def State.OutsideUnchanged (s u : State) : Prop :=
  u.cfg = s.cfg ∧ u.cmdPort = s.cmdPort ∧ u.resetIn = s.resetIn ∧ u.resetMarks = s.resetMarks

/-- A frame reaches a known chain: every connected line an output, no abandoned command pending its INIT, CLOCK LOW, RST not
LOW (60_exceptions.md R263, R266, 70_reset_and_hazards.md R283). -/
def State.WireReady (s : State) : Prop :=
  s.chainKnown = true ∧ s.level .clock = some .low ∧ s.level .rst ≠ some .low

/-- A micro-operation writes bit `b` of shadow byte `p`. -/
def MicroOp.writesBit (p b : Nat) : MicroOp → Bool
  | .cfg _ => false
  | .set _ _ => false
  | .wait _ => false
  | .shb q c _ => q == p && c == b
  | .shz => true

/-- An event is a `Wait`. -/
def Event.isWait : Event → Bool
  | .cfg _ => false
  | .set _ _ => false
  | .wait _ => true
  | .done _ _ => false

/-- An event is a `Done`. -/
def Event.isDone : Event → Bool
  | .cfg _ => false
  | .set _ _ => false
  | .wait _ => false
  | .done _ _ => true

/-- The events of a fast cell (30_encoding.md R112). -/
def fastEvents (d : Bool) : List Event := [.set .data (lvl d), .set .clock .high, .set .clock .low]

/-- The events of a settled cell (30_encoding.md R111). -/
def settledEvents (t : Nat) (d : Bool) : List Event :=
  [.set .data (lvl d), .set .clock .high, .wait t, .set .clock .low]

/-- The events of a latched frame (30_encoding.md R110). -/
def latchedEvents (cells : List Event) : List Event := .set .latch .low :: (cells ++ [.set .latch .high])

/-- The bit stream an instruction sends, none where it sends no frame (30_encoding.md R113, R114). -/
def streamOf (c : Config) (m : Memory) : Instr → Option (List Bool)
  | .init => some (zeroStream c.n)
  | .write ord wdata => some (writeStream c.n ord wdata)
  | .writePin pin x =>
    if pinNumber pin < c.pins then
      some (shadowStream c.n (m.writeBit (pinPart (pinNumber pin)) (pinBit (pinNumber pin)) x))
    else none
  | .allOff _ => some (zeroStream c.n)
  | .state => none

/-- `k` steps of the machine (Host/Core.lean). -/
def runSteps (k : Nat) (s : State) : Host.Outcome State Fault Refusal := Host.Core.run Sys2Proof.core k s

/-- Change the next state of an outcome. -/
def mapNext (f : State → State) (o : Host.Outcome State Fault Refusal) : Host.Outcome State Fault Refusal :=
  match o with
  | .next s => .next (f s)
  | .fault e => .fault e
  | .refused r => .refused r

/-- The state under another configuration. -/
def State.withCfg (s : State) (c : Config) : State := { s with cfg := c }

/-- The state beside another chain, at another draw of free values, with or without an abandoned command on the chain. -/
def State.withChain (s : State) (ch : Chain) (k : Nat) (x : Bool) : State :=
  { s with chain := ch, freeTick := k, abandoned := x }

/-- The state with other coming samples of the reset input. -/
def State.withResetIn (s : State) (rs : List Bool) : State := { s with resetIn := rs }

end Sys2Proof.Machine
end

