-- ==== Sys2Proof/Certificates/Slice0/Obligations.lean ====
section
/-! DEFINITION. The statements for the provers. Each docstring names the rule of spec/ it formalises. -/

open Sys2Proof Sys2Proof.Machine

/-! ### Encoding -/

/-- Decoding an encoded instruction gives it back, with every operand at every value the encoding admits
(30_encoding.md R100 to R106, R120). -/
def Obligations.DecodeEncode : Prop :=
  ∀ i : Instr, decode (encode i).cw (encode i).wdata = .instr i

/-- Every legal word is the word of the instruction it decodes to, and WRITE alone keeps the data operand (R100, R120). -/
def Obligations.EncodeDecode : Prop :=
  ∀ (cw : Word) (wdata : Nat) (i : Instr), decode cw wdata = .instr i →
    (encode i).cw = cw ∧ (∀ ord w, i = .write ord w → w = wdata)

/-- 30_encoding.md R106: the match and mask of each row, and its free bits. -/
def Obligations.OpcodeTableRows : Prop :=
  ∀ (cw : Word) (wdata : Nat),
    (decode cw wdata = .instr .init ↔ cw &&& 0xFFFFFFFF#32 = 0x00000001#32) ∧
    ((∃ ord w, decode cw wdata = .instr (.write ord w)) ↔ cw &&& 0xFFFFFFEF#32 = 0x00000002#32) ∧
    ((∃ pin x, decode cw wdata = .instr (.writePin pin x)) ↔ cw &&& 0x0000FFEF#32 = 0x00000003#32) ∧
    ((∃ latch, decode cw wdata = .instr (.allOff latch)) ↔ cw &&& 0xFFFFFFEF#32 = 0x00000004#32) ∧
    (decode cw wdata = .instr .state ↔ cw &&& 0xFFFFFFFF#32 = 0x00000005#32) ∧
    (∀ ord w, decode cw wdata = .instr (.write ord w) →
      (ord = .msbFirst ↔ cw.getLsbD 4 = true) ∧ (ord = .lsbFirst ↔ cw.getLsbD 4 = false) ∧ w = wdata) ∧
    (∀ pin x, decode cw wdata = .instr (.writePin pin x) →
      x = cw.getLsbD 4 ∧ pin.toNat = cw.toNat / 2 ^ 16) ∧
    (∀ latch, decode cw wdata = .instr (.allOff latch) → latch = cw.getLsbD 4)

/-- 30_encoding.md R121: which words are illegal, and that an illegal word is rejected with status ILLEGAL: an empty
micro-program, no shadow bit and no line written, and no event but its `Done`. -/
def Obligations.IllegalWordsRejected : Prop :=
  (∀ (cw : Word) (wdata : Nat),
    (∃ why, decode cw wdata = .illegal why) ↔
      ((cw.toNat % 16 = 0 ∨ 6 ≤ cw.toNat % 16) ∨ cw.toNat / 32 % 2 ^ 11 ≠ 0
        ∨ (cw.toNat / 2 ^ 16 ≠ 0 ∧ cw.toNat % 16 ≠ 3)
        ∨ (cw.getLsbD 4 = true ∧ (cw.toNat % 16 = 1 ∨ cw.toNat % 16 = 5)))) ∧
  (∀ (s : State) (c : Command) (why : IllegalWord), s.seq = .idle → decode c.cw c.wdata = .illegal why →
    acceptCommand c s = .next (s.withSeq (.busy [] 0 .illegal)) ∧
    ∃ u, runCommand c s = .next u ∧ u.seq = .idle ∧ u.shadow = s.shadow ∧ u.lines = s.lines ∧
      u.trace = s.trace ++ [.done .illegal s.rdata] ∧ s.OutsideUnchanged u)

/-- Words of every command, written out from the encodings of R100 to R103 and the vectors of 95_test_vectors.md 2.1. -/
def Obligations.WordsDecode : Prop :=
  decode 0b00000000000000000000000000000001#32 0 = .instr .init ∧
  decode 0b00000000000000000000000000000010#32 7 = .instr (.write .lsbFirst 7) ∧
  decode 0b00000000000000000000000000010010#32 7 = .instr (.write .msbFirst 7) ∧
  decode 0b00000000000010000000000000010011#32 0 = .instr (.writePin 8 true) ∧
  decode 0b11111111111111110000000000000011#32 0 = .instr (.writePin 65535 false) ∧
  decode 0b00000000000000000000000000010100#32 0 = .instr (.allOff true) ∧
  decode 0b00000000000000000000000000000100#32 0 = .instr (.allOff false) ∧
  decode 0b00000000000000000000000000000101#32 0 = .instr .state

/-- `wdata` is read only by WRITE: a command word with another opcode is accepted with the same effect whatever `wdata` is
presented with it (R100). -/
def Obligations.DataOperandReadOnlyByWrite : Prop :=
  ∀ (s : State) (cw : Word) (w w' : Nat), cw.toNat % 16 ≠ 2 →
    acceptCommand ⟨cw, w⟩ s = acceptCommand ⟨cw, w'⟩ s ∧ runCommand ⟨cw, w⟩ s = runCommand ⟨cw, w'⟩ s

/-- The status codes of 30_encoding.md R104; code 3 is no status's. -/
def Obligations.StatusCodes : Prop :=
  statusCode .ok = 0#2 ∧ statusCode .outOfRange = 1#2 ∧ statusCode .illegal = 2#2 ∧
  (∀ st, statusCode st ≠ 3#2) ∧ (∀ st, statusOfCode (statusCode st) = some st) ∧ statusOfCode 3#2 = none

/-! ### The sequencer -/

/-- A step runs the decoded command: with reset deasserted, an idle controller and a command presented that decodes to `i`,
the step is the accept step of `i` on the state that no longer presents it, as the chain sees it (10_state.md R45, R50). -/
def Obligations.StepRunsDecodedCommand : Prop :=
  ∀ (s : State) (c : Command) (rest : List Command) (i : Instr),
    s.cfg.valid = true → s.resetNow = false → s.seq = .idle → s.cmdPort = c :: rest →
    decode c.cw c.wdata = .instr i →
    ∃ t, exec i (s.sampled.withPort rest) = .next t ∧ step s = .next (observeChain s.sampled t) ∧
      (observeChain s.sampled t).seq = t.seq ∧ t.cmdPort = rest

/-- 10_state.md R45: what the accept step of each command puts into the sequencer, and that it changes nothing else: it
emits no event and writes no line or shadow. Nothing the host presents afterwards changes the command in flight. -/
def Obligations.AcceptStep : Prop :=
  (∀ (s : State) (wdata : Nat), s.seq = .idle →
    (∀ cw i, decode cw wdata = .instr i → acceptCommand ⟨cw, wdata⟩ s = exec i s) ∧
    (∀ cw why, decode cw wdata = .illegal why →
      acceptCommand ⟨cw, wdata⟩ s = .next (s.withSeq (.busy [] 0 .illegal))) ∧
    exec .init s = .next (s.withSeq (.busy (progInit s.cfg) 0 .ok)) ∧
    (∀ ord, exec (.write ord wdata) s = .next (s.withSeq (.busy (progWrite s.cfg wdata ord) 0 .ok))) ∧
    (∀ pin x, pin.toNat < 8 * s.cfg.n →
      exec (.writePin pin x) s = .next (s.withSeq (.busy (progPin s.cfg s.shadow pin.toNat x) 0 .ok))) ∧
    (∀ pin x, 8 * s.cfg.n ≤ pin.toNat → exec (.writePin pin x) s
      = .next (s.withSeq (.busy [] 0 (if s.cfg.pinPolicy = .reject then .outOfRange else .ok)))) ∧
    (∀ latch, exec (.allOff latch) s = .next (s.withSeq (.busy (progAllOff s.cfg latch) 0 .ok))) ∧
    exec .state s = .next (s.withSeq (.busy [] 0 .ok))) ∧
  (∀ (s : State) (cs : List Command), s.seq ≠ .idle → step (s.withPort cs) = mapNext (·.withPort cs) (step s))

/-- The effect and the event of each micro-operation, and `upc <- upc + 1` (10_state.md R46; the spacing in time that a WAIT
asks for is not modelled, R49). -/
def Obligations.MicroOperationStep : Prop :=
  ∀ (s : State) (prog : List MicroOp) (upc : Nat) (st : Status) (op : MicroOp),
    s.Inv → s.resetNow = false → s.seq = .busy prog upc st → prog[upc]? = some op →
    ∃ t, step s = .next t ∧ t.seq = .busy prog (upc + 1) st ∧
      t.cfg = s.cfg ∧ t.cmdPort = s.cmdPort ∧ t.resetMarks = s.resetMarks ∧
      match op with
      | .cfg l => (∀ l', t.mode l' = if l' = l then some .output else s.mode l') ∧ (∀ l', t.level l' = s.level l') ∧
          t.shadow = s.shadow ∧ t.trace = s.trace ++ [.cfg l]
      | .set l v => (∀ l', t.level l' = if l' = l then some v else s.level l') ∧ (∀ l', t.mode l' = s.mode l') ∧
          t.shadow = s.shadow ∧ t.trace = s.trace ++ [.set l v]
      | .wait d => t.lines = s.lines ∧ t.shadow = s.shadow ∧ t.trace = s.trace ++ [.wait d]
      | .shb p b x => t.lines = s.lines ∧ t.trace = s.trace ∧
          (∀ q c, c < 8 → t.shadow.bit q c = if q = p ∧ c = b then x else s.shadow.bit q c)
      | .shz => t.lines = s.lines ∧ t.trace = s.trace ∧ (∀ q, t.shadow.read q = 0)

/-- 10_state.md R47: the completion step emits `Done(st, rdata)` with the shadow's image and makes the sequencer idle. -/
def Obligations.CompletionStep : Prop :=
  ∀ (s : State) (prog : List MicroOp) (st : Status),
    s.cfg.valid = true → s.resetNow = false → s.seq = .busy prog prog.length st →
    ∃ t rdata, step s = .next t ∧ t.seq = .idle ∧ t.trace = s.trace ++ [.done st rdata] ∧
      (∀ p, p < s.cfg.n → rdata / 256 ^ p % 256 = (s.shadow.read p).toNat) ∧ rdata < 256 ^ s.cfg.n ∧
      t.shadow = s.shadow ∧ t.lines = s.lines ∧ t.cfg = s.cfg ∧ t.cmdPort = s.cmdPort

/-- 10_state.md R48: a busy sequencer performs one micro-operation a step and is idle after exactly
`length(prog) - upc + 1` steps; an idle one with nothing presented waits. -/
def Obligations.CommandLatency : Prop :=
  (∀ (s : State) (prog : List MicroOp) (upc : Nat) (st : Status),
    s.Inv → s.seq = .busy prog upc st → s.QuietFor (prog.length - upc + 1) →
    (∀ k, upc + k ≤ prog.length → ∃ t, runSteps k s = .next t ∧ t.seq = .busy prog (upc + k) st) ∧
    ∃ u, runSteps (prog.length - upc + 1) s = .next u ∧ u.seq = .idle) ∧
  (∀ s : State, s.Inv → s.resetNow = false → s.seq = .idle → s.cmdPort = [] →
    ∃ t, step s = .next t ∧ t.seq = .idle ∧ t.shadow = s.shadow ∧ t.lines = s.lines ∧ t.trace = s.trace)

/-- 10_state.md R44: `upc` starts at 0, moves by exactly 1, never passes the end of its micro-program and never branches;
INIT's micro-program with both optional lines has `18 + 24*N` micro-operations, which fit in 18 bits, and bounds that of
every command but WRITE. WRITE has `2 + 40*N` (41_write.md R162), which R44 passes over (log entry 11). -/
def Obligations.ProgramCounterBounds : Prop :=
  (∀ (s t : State) (prog : List MicroOp) (upc : Nat) (st : Status), s.Inv → step s = .next t → t.seq = .busy prog upc st →
    upc ≤ prog.length ∧ ((s.seq = .idle ∧ upc = 0) ∨ ∃ k, s.seq = .busy prog k st ∧ upc = k + 1)) ∧
  (∀ (c : Config) (m : Memory), c.hasOe = true → c.hasRst = true → (programOf c m .init).length = 18 + 24 * c.n) ∧
  (∀ c : Config, c.valid = true → 18 + 24 * c.n < 2 ^ 18) ∧
  (∀ (c : Config) (m : Memory) (cmd : Command),
    (commandProgram c m cmd).length ≤ 18 + 24 * c.n ∨
    ∃ ord w, decode cmd.cw cmd.wdata = .instr (.write ord w) ∧ (commandProgram c m cmd).length = 2 + 40 * c.n)

/-- 60_exceptions.md R230: every accepted command completes with exactly one `Done(status, rdata)` event, its last. -/
def Obligations.EveryCommandCompletesOnce : Prop :=
  ∀ (s : State) (c : Command), s.seq = .idle →
    ∃ u evs, runCommand c s = .next u ∧ u.seq = .idle ∧
      u.trace = s.trace ++ evs ++ [.done (commandStatus s.cfg c) u.rdata] ∧ (∀ e ∈ evs, e.isDone = false) ∧
      s.OutsideUnchanged u

/-- 10_state.md R42: `cmd_ready` is 1 exactly when the sequencer is idle; a command is transferred only in such a step (and
not in one with reset asserted, which is the model's reading, log entry 5); a command in flight stays the one in flight
until its end. -/
def Obligations.CommandHandshake : Prop :=
  ∀ s t : State, step s = .next t →
    (s.cmdReady = true ↔ s.seq = .idle) ∧
    t.cmdPort = (if s.cmdReady && !s.resetNow then s.cmdPort.tail else s.cmdPort) ∧
    (∀ prog upc st, s.seq = .busy prog upc st →
      t.seq = .idle ∨ (t.seq = .busy prog (upc + 1) st ∧ upc < prog.length))

/-- 10_state.md R52: the step-level rules compose to the command level: a command presented to an idle controller, with no
reset in the meantime, is run by `length(prog) + 2` steps of the machine as `runCommand` runs it. -/
def Obligations.StepsComposeToCommand : Prop :=
  ∀ (s : State) (c : Command) (rest : List Command) (k : Nat),
    s.Inv → s.seq = .idle → s.cmdPort = c :: rest → k = (commandProgram s.cfg s.shadow c).length + 2 → s.QuietFor k →
    ∃ u tr, runCommand c ((s.withPort rest).withResetIn (s.resetIn.drop k)) = .next u ∧ runSteps k s = .next u ∧
      u.seq = .idle ∧ u.trace = s.trace ++ tr

/-! ### Reset and configuration -/

/-- The reset values of the shadow, the line registers and the sequencer under every configuration, and that a line
configured from them drives its inactive level (10_state.md R33, R39, R41; 70_reset_and_hazards.md R281). That the trace is
empty at reset is the model's choice (log entry 8). The empty port and reset samples and the free-value counter, which the
spec gives no reset value either, are not stated here. -/
def Obligations.ResetValues : Prop :=
  ∀ c : Config,
    (∀ p, (State.resetOf c).shadow.read p = 0#8) ∧
    (∀ l, connected c l = true → (State.resetOf c).mode l = some .unconfigured) ∧
    (State.resetOf c).level .data = some .low ∧ (State.resetOf c).level .clock = some .low ∧
    (State.resetOf c).level .latch = some .low ∧
    (c.hasOe = true → (State.resetOf c).level .oe = some .high) ∧
    (c.hasRst = true → (State.resetOf c).level .rst = some .high) ∧
    (∀ l v, (State.resetOf c).level l = some v → ((State.resetOf c).lines.configure l).pin l = some (.driven v)) ∧
    (State.resetOf c).seq = .idle ∧ (State.resetOf c).cmdReady = true ∧ (State.resetOf c).trace = [] ∧
    (State.resetOf c).cfg = c

/-- Reset at any step abandons the command in flight: no event and no `Done`, the shadow zero whatever had been written,
every line undriven, and nothing presented is transferred (R282, R283; the last point is the model's reading, log
entry 5). -/
def Obligations.ResetAbandonsCommand : Prop :=
  ∀ s : State, s.cfg.valid = true → s.resetNow = true →
    ∃ t, step s = .next t ∧ t.trace = s.trace ∧ (∀ p, t.shadow.read p = 0#8) ∧
      (∀ l, connected s.cfg l = true → t.pin l = some .undriven) ∧
      t.level .data = some .low ∧ t.level .clock = some .low ∧ t.level .latch = some .low ∧
      (s.cfg.hasOe = true → t.level .oe = some .high) ∧ (s.cfg.hasRst = true → t.level .rst = some .high) ∧
      t.seq = .idle ∧ t.cfg = s.cfg ∧ t.cmdPort = s.cmdPort ∧ t.resetIn = s.resetIn.tail

/-- 00_scope.md R12: a configuration is valid iff `1 <= N <= 8192` and the connected handles are pairwise distinct, and the
model refuses every state of an invalid one. -/
def Obligations.InvalidConfigurationRefused : Prop :=
  ∀ s : State,
    (step s = .refused .invalidConfig ↔
      ¬(1 ≤ s.cfg.n ∧ s.cfg.n ≤ 8192 ∧
        ([s.cfg.idData, s.cfg.idClock, s.cfg.idLatch] ++ s.cfg.idOe.toList ++ s.cfg.idRst.toList).Nodup))

/-- The invariant holds at reset under every valid configuration. -/
def Obligations.ResetInv : Prop :=
  (∀ c : Config, c.valid = true → (State.resetOf c).Inv) ∧ State.reset.Inv

/-- Every step keeps the invariant: the shadow stays canonical, the lines keep their registers, the sequencer stays within
its micro-program and names only what exists, the chain keeps its stages. -/
def Obligations.StepKeepsInv : Prop :=
  ∀ s t : State, s.Inv → step s = .next t → t.Inv

/-- The machine never stops: no behaviour of the controller is a fault, and none is stuck (93_implementation_defined.md
section 1, 60_exceptions.md R230). -/
def Obligations.InvStateNeverStops : Prop :=
  ∀ s : State, s.Inv → ∃ t, step s = .next t ∧ t.Inv

/-- 10_state.md R30: no step writes the configuration. -/
def Obligations.ConfigurationImmutable : Prop :=
  ∀ s t : State, step s = .next t → t.cfg = s.cfg

/-- Line handles are never interpreted and `T_STEP_MIN` is read by nothing (00_scope.md R8, R11): under another valid
configuration that differs in these alone, every step is the same step. -/
def Obligations.HandlesAndSpacingUnread : Prop :=
  ∀ (s : State) (c : Config), s.cfg.valid = true → c.valid = true → c.n = s.cfg.n → c.hasOe = s.cfg.hasOe →
    c.hasRst = s.cfg.hasRst → c.tSettle = s.cfg.tSettle → c.tRst = s.cfg.tRst → c.pinPolicy = s.cfg.pinPolicy →
    step (s.withCfg c) = mapNext (·.withCfg c) (step s)

/-! ### Whole-machine rules -/

/-- The trace only grows, and by at most one event a step (10_state.md R46, R51; 20_memory.md R81). -/
def Obligations.TraceExtendsByAtMostOneEvent : Prop :=
  ∀ s t : State, step s = .next t → t.trace = s.trace ∨ ∃ e, t.trace = s.trace ++ [e]

/-- 10_state.md R36: a mode register is written only by CFG, which sets OUTPUT; no micro-operation returns a line to
UNCONFIGURED, only reset does. -/
def Obligations.ModeWrittenOnlyByCfg : Prop :=
  ∀ (s t : State) (l : Line), step s = .next t →
    (s.resetNow = false →
      t.mode l = if s.currentOp = some (.cfg l) then (s.mode l).map (fun _ => .output) else s.mode l) ∧
    (s.resetNow = true → connected s.cfg l = true → t.mode l = some .unconfigured)

/-- 10_state.md R37: a level register is written only by SET, on an unconfigured line too, and its event is emitted; the pin
of an unconfigured line stays undriven. -/
def Obligations.LevelWrittenOnlyBySet : Prop :=
  ∀ (s t : State) (l : Line), s.resetNow = false → step s = .next t →
    (∀ v, s.currentOp = some (.set l v) →
      t.level l = (s.level l).map (fun _ => v) ∧ t.trace = s.trace ++ [.set l v] ∧
      (s.mode l = some .unconfigured → t.pin l = some .undriven)) ∧
    ((∀ v, s.currentOp ≠ some (.set l v)) → t.level l = s.level l)

/-- 10_state.md R38: the pin of a connected line shows its level if it is an output, and is undriven otherwise. -/
def Obligations.PinDriven : Prop :=
  ∀ (s : State) (l : Line),
    (∀ v, s.mode l = some .output → s.level l = some v → s.pin l = some (.driven v)) ∧
    (s.mode l = some .unconfigured → s.pin l = some .undriven)

/-- Outside reset the shadow changes only in an SHB or SHZ step (10_state.md R34). -/
def Obligations.ShadowWrittenOnlyByItsOps : Prop :=
  ∀ s t : State, s.resetNow = false → step s = .next t → t.shadow ≠ s.shadow →
    s.currentOp = some .shz ∨ ∃ p b x, s.currentOp = some (.shb p b x) ∧ t.shadow = s.shadow.writeBit p b x

/-- No step of the controller depends on the chain (92_eei_decisions.md D31): beside any other chain, known or not, the same
step is taken, up to the chain. -/
def Obligations.ControllerIgnoresChain : Prop :=
  ∀ (s : State) (ch : Chain) (k : Nat) (x : Bool), ∃ ch' k' x',
    step (s.withChain ch k x) = mapNext (·.withChain ch' k' x') (step s)

/-! ### The shadow as memory -/

/-- 20_memory.md R71: pin `k` is bit `k mod 8` of shadow byte `k / 8`, and no other pin's bit. -/
def Obligations.PinNamesOneBit : Prop :=
  ∀ (n : Nat) (m : Memory) (k j : Nat) (x : Bool), m.wf n = true → k < 8 * n → j < 8 * n →
    pinPart k = k / 8 ∧ pinBit k = k % 8 ∧ pinPart k < n ∧ pinBit k < 8 ∧
    (m.writeBit (pinPart k) (pinBit k) x).bit (pinPart j) (pinBit j)
      = if j = k then x else m.bit (pinPart j) (pinBit j)

/-- 20_memory.md R74: part `p` of `rdata` is `shadow[p]`, and `rdata` is the sum over the parts of `shadow[p] * 256^p`. -/
def Obligations.ResponseLayout : Prop :=
  ∀ (n : Nat) (m : Memory),
    rdataOf n m = ((List.range n).map fun p => (m.read p).toNat * 256 ^ p).sum ∧
    (∀ p, p < n → rdataOf n m / 256 ^ p % 256 = (m.read p).toNat) ∧
    (∀ p b, p < n → b < 8 → (rdataOf n m).testBit (8 * p + b) = m.bit p b)

/-! ### The commands -/

/-- 40_bringup.md R143: INIT is accepted from every idle state and ends with the shadow zero, every connected line an output
at its idle level, the response `Done(OK, 0)`, the latched image all zero and the outputs enabled. -/
def Obligations.InitEndState : Prop :=
  ∀ s : State, s.Inv → s.seq = .idle →
    exec .init s = .next (s.withSeq (.busy (progInit s.cfg) 0 .ok)) ∧
    ∃ u, runInstr .init s = .next u ∧ u.seq = .idle ∧ (∀ p, u.shadow.read p = 0#8) ∧
      (∀ l, connected s.cfg l = true → u.mode l = some .output) ∧
      u.level .data = some .low ∧ u.level .clock = some .low ∧ u.level .latch = some .high ∧
      (s.cfg.hasOe = true → u.level .oe = some .low) ∧ (s.cfg.hasRst = true → u.level .rst = some .high) ∧
      u.trace.getLast? = some (.done .ok 0) ∧
      (∀ c k, c < s.cfg.n → k < 8 → u.chain.storageStage c k = some false ∧ u.output c k = some (.driven false)) ∧
      s.OutsideUnchanged u

/-- The events of INIT in order (40_bringup.md R141). -/
def Obligations.InitTrace : Prop :=
  ∀ s : State, s.seq = .idle →
    ∃ u, runInstr .init s = .next u ∧
      u.trace = s.trace ++
        ([.cfg .data, .cfg .latch, .cfg .clock, .set .data .low, .set .latch .low, .set .clock .low]
          ++ (if s.cfg.hasOe then [.cfg .oe, .set .oe .high] else [])
          ++ (if s.cfg.hasRst then [.cfg .rst, .set .rst .high, .wait s.cfg.tRst, .set .rst .low, .wait s.cfg.tRst,
                .set .rst .high] else [])
          ++ latchedEvents ((List.replicate (8 * s.cfg.n) (fastEvents false)).flatten)
          ++ (if s.cfg.hasOe then [.set .oe .low] else [])) ++ [.done .ok 0]

/-- With an output enable, OE is driven HIGH in every state of INIT from its `Set(OE, HIGH)` to its last `Set(OE, LOW)`, and
the outputs are high-impedance there (70_reset_and_hazards.md R291) wherever the chain is known: no abandoned command
(R283), and every line driven, which from the ninth micro-operation on INIT has seen to (60_exceptions.md R266; log entry
14). -/
def Obligations.OutputsDisabledDuringInit : Prop :=
  ∀ (s : State) (k : Nat), s.Inv → s.cfg.hasOe = true → s.seq = .busy (progInit s.cfg) 0 .ok →
    8 ≤ k → k < (progInit s.cfg).length →
    ∃ t, advanceN k s = .next t ∧ t.seq = .busy (progInit s.cfg) k .ok ∧ t.pin .oe = some (.driven .high) ∧
      (s.abandoned = false → 9 ≤ k ∨ s.cfg.hasRst = false ∨ s.lines.anyUndriven = false →
        ∀ c j, c < s.cfg.n → j < 8 → t.output c j = some .highZ)

/-- 41_write.md R163: WRITE is accepted from every idle state and ends with `shadow == values`, each bit written exactly
once, LATCH HIGH, CLOCK LOW, DATA at the last bit sent, the response `Done(OK, wdata)`, and, on a known chain, the latched
image under the layout of `ORD`. The other lines, the modes and every other byte are as they were. -/
def Obligations.WriteEndState : Prop :=
  ∀ (s : State) (ord : BitOrder) (wdata : Nat), s.Inv → s.seq = .idle → (Instr.write ord wdata).wellFormed s.cfg.n →
    exec (.write ord wdata) s = .next (s.withSeq (.busy (progWrite s.cfg wdata ord) 0 .ok)) ∧
    (∀ p b, p < s.cfg.n → b < 8 →
      (progWrite s.cfg wdata ord).filter (MicroOp.writesBit p b) = [.shb p b ((wdataByte wdata p).getLsbD b)]) ∧
    ∃ u, runInstr (.write ord wdata) s = .next u ∧ u.seq = .idle ∧
      (∀ p, u.shadow.read p = if p < s.cfg.n then wdataByte wdata p else s.shadow.read p) ∧
      u.level .latch = some .high ∧ u.level .clock = some .low ∧
      u.level .data = some (lvl ((wdataByte wdata (s.cfg.n - 1)).getLsbD (if ord = .lsbFirst then 7 else 0))) ∧
      u.trace.getLast? = some (.done .ok wdata) ∧ (s.WireReady → u.PhysicalMatch ord) ∧
      (∀ l, u.mode l = s.mode l) ∧ u.level .oe = s.level .oe ∧ u.level .rst = s.level .rst ∧ s.OutsideUnchanged u

/-- 30_encoding.md R111 and R113: the trace of WRITE is the latched frame of settled cells of its bit stream, and its `t`-th
bit is the value bit that `ORD` selects. -/
def Obligations.WriteTrace : Prop :=
  ∀ (s : State) (ord : BitOrder) (wdata : Nat), s.seq = .idle →
    (∃ u, runInstr (.write ord wdata) s = .next u ∧
      u.trace = s.trace ++
        latchedEvents ((writeStream s.cfg.n ord wdata).flatMap (settledEvents s.cfg.tSettle)) ++
          [.done .ok u.rdata]) ∧
    (writeStream s.cfg.n ord wdata).length = 8 * s.cfg.n ∧
    (∀ p i, p < s.cfg.n → i < 8 → (writeStream s.cfg.n ord wdata)[8 * p + i]?
      = some ((wdataByte wdata p).getLsbD (if ord = .lsbFirst then i else 7 - i)))

/-- 42_write_pin.md R183: WRITE_PIN in range sets the one bit, keeps every other and leaves the lines as stated; out of
range it changes nothing. Both complete with the shadow in the response. -/
def Obligations.PinEndState : Prop :=
  ∀ (s : State) (pin : BitVec 16) (x : Bool), s.Inv → s.seq = .idle →
    (pin.toNat < 8 * s.cfg.n →
      exec (.writePin pin x) s = .next (s.withSeq (.busy (progPin s.cfg s.shadow pin.toNat x) 0 .ok)) ∧
      ∃ u, runInstr (.writePin pin x) s = .next u ∧ u.seq = .idle ∧
        (∀ p b, b < 8 → u.shadow.bit p b = if p = pin.toNat / 8 ∧ b = pin.toNat % 8 then x else s.shadow.bit p b) ∧
        (s.shadow.bit (pin.toNat / 8) (pin.toNat % 8) = x → u.shadow = s.shadow) ∧
        u.level .latch = some .high ∧ u.level .clock = some .low ∧
        u.level .data = some (lvl (u.shadow.bit (s.cfg.n - 1) 0)) ∧
        u.trace.getLast? = some (.done .ok u.rdata) ∧
        (∀ l, u.mode l = s.mode l) ∧ u.level .oe = s.level .oe ∧ u.level .rst = s.level .rst ∧
        s.OutsideUnchanged u) ∧
    (8 * s.cfg.n ≤ pin.toNat →
      ∃ t u, exec (.writePin pin x) s = .next t ∧ runInstr (.writePin pin x) s = .next u ∧ u.seq = .idle ∧
        u.shadow = s.shadow ∧ u.lines = s.lines ∧
        u.trace = s.trace ++ [.done (if s.cfg.pinPolicy = .reject then .outOfRange else .ok) s.rdata] ∧
        s.OutsideUnchanged u)

/-- 43_all_off.md R203: ALL_OFF with LATCH=1 zeroes the shadow and leaves LATCH HIGH; with LATCH=0 it keeps the shadow and
the LATCH line. Both leave CLOCK and DATA LOW. On a known chain the first zeroes the latched image and the second only the
shift stages. -/
def Obligations.AllOffEndState : Prop :=
  ∀ (s : State) (latch : Bool), s.Inv → s.seq = .idle →
    exec (.allOff latch) s = .next (s.withSeq (.busy (progAllOff s.cfg latch) 0 .ok)) ∧
    ∃ u, runInstr (.allOff latch) s = .next u ∧ u.seq = .idle ∧
      (∀ p, u.shadow.read p = if latch then 0#8 else s.shadow.read p) ∧
      u.level .latch = (if latch then some .high else s.level .latch) ∧
      u.level .clock = some .low ∧ u.level .data = some .low ∧
      u.trace.getLast? = some (.done .ok (if latch then 0 else s.rdata)) ∧
      (s.WireReady → ∀ c k, c < s.cfg.n → k < 8 → u.chain.shiftStage c k = some false ∧
        u.chain.storageStage c k = if latch then some false else s.chain.storageStage c k) ∧
      (∀ l, u.mode l = s.mode l) ∧ u.level .oe = s.level .oe ∧ u.level .rst = s.level .rst ∧ s.OutsideUnchanged u

/-- 30_encoding.md R112 and R114: WRITE_PIN in range and ALL_OFF send fast cells: the MSB-first stream of the new shadow,
and 8N zeros, framed by LATCH only if LATCH=1. -/
def Obligations.FastFrameTraces : Prop :=
  ∀ s : State, s.Inv → s.seq = .idle →
    (∀ (pin : BitVec 16) (x : Bool), pin.toNat < 8 * s.cfg.n →
      ∃ (u : State) (ds : List Bool), runInstr (.writePin pin x) s = .next u ∧ ds.length = 8 * s.cfg.n ∧
        (∀ p i, p < s.cfg.n → i < 8 → ds[8 * p + i]? = some (u.shadow.bit p (7 - i))) ∧
        u.trace = s.trace ++ latchedEvents (ds.flatMap fastEvents) ++ [.done .ok u.rdata]) ∧
    (∃ u, runInstr (.allOff true) s = .next u ∧
      u.trace = s.trace ++ latchedEvents ((List.replicate (8 * s.cfg.n) (fastEvents false)).flatten)
        ++ [.done .ok u.rdata]) ∧
    (∃ u, runInstr (.allOff false) s = .next u ∧
      u.trace = s.trace ++ (List.replicate (8 * s.cfg.n) (fastEvents false)).flatten ++ [.done .ok u.rdata])

/-- 44_state.md R222: STATE writes no shadow bit and no line register and emits no event but its `Done(OK, rdata)`; it is
rejected only for `F = 1` or a nonzero `RSV` or `PIN`. -/
def Obligations.StateEffect : Prop :=
  (∀ s : State, s.seq = .idle →
    exec .state s = .next (s.withSeq (.busy [] 0 .ok)) ∧
    ∃ u, runInstr .state s = .next u ∧ u.seq = .idle ∧ u.shadow = s.shadow ∧ u.lines = s.lines ∧
      u.trace = s.trace ++ [.done .ok s.rdata] ∧ s.OutsideUnchanged u) ∧
  (∀ (cw : Word) (wdata : Nat), cw.toNat % 16 = 5 →
    ((∃ why, decode cw wdata = .illegal why) ↔
      (cw.getLsbD 4 = true ∨ cw.toNat / 32 % 2 ^ 11 ≠ 0 ∨ cw.toNat / 2 ^ 16 ≠ 0)))

/-- 42_write_pin.md R186: an in-range WRITE_PIN has the trace of `WRITE MSB` of its end shadow with the waits removed, and
the same end state. -/
def Obligations.PinAgreesWithWrite : Prop :=
  ∀ (s : State) (pin : BitVec 16) (x : Bool), s.Inv → s.seq = .idle → pin.toNat < 8 * s.cfg.n →
    ∃ u v evs evs', runInstr (.writePin pin x) s = .next u ∧ runInstr (.write .msbFirst u.rdata) s = .next v ∧
      u.trace = s.trace ++ evs ∧ v.trace = s.trace ++ evs' ∧ evs = evs'.filter (fun e => !e.isWait) ∧
      u.shadow = v.shadow ∧ u.lines = v.lines ∧ u.seq = v.seq

/-- 20_memory.md R80: every command run twice in a row with the same operands gives equal traces and equal end states. -/
def Obligations.CommandsAreIdempotent : Prop :=
  ∀ (s : State) (c : Command), s.Inv → s.seq = .idle →
    ∃ u v evs, runCommand c s = .next u ∧ runCommand c u = .next v ∧
      u.trace = s.trace ++ evs ∧ v.trace = u.trace ++ evs ∧
      v.shadow = u.shadow ∧ v.lines = u.lines ∧ v.seq = u.seq

/-- 70_reset_and_hazards.md R300: the timing table, row by row. -/
def Obligations.TimingTable : Prop :=
  ∀ (c : Config) (m : Memory) (ord : BitOrder) (wdata : Nat),
    timingOf (programOf c m .init)
      = ⟨6 + 2 * bit01 c.hasOe + 6 * bit01 c.hasRst + 24 * c.n + 3 + bit01 c.hasOe,
          6 + 3 * bit01 c.hasOe + 6 * bit01 c.hasRst + 24 * c.n + 2, 2 * bit01 c.hasRst, 8 * c.n,
          2 * bit01 c.hasRst * c.tRst⟩ ∧
    timingOf (programOf c m (.write ord wdata)) = ⟨2 + 40 * c.n, 2 + 32 * c.n, 8 * c.n, 8 * c.n, 8 * c.n * c.tSettle⟩ ∧
    (∀ (pin : BitVec 16) (x : Bool), pin.toNat < 8 * c.n →
      timingOf (programOf c m (.writePin pin x)) = ⟨3 + 24 * c.n, 2 + 24 * c.n, 0, 8 * c.n, 0⟩) ∧
    (∀ (pin : BitVec 16) (x : Bool), 8 * c.n ≤ pin.toNat →
      timingOf (programOf c m (.writePin pin x)) = ⟨0, 0, 0, 0, 0⟩) ∧
    timingOf (programOf c m (.allOff true)) = ⟨3 + 24 * c.n, 2 + 24 * c.n, 0, 8 * c.n, 0⟩ ∧
    timingOf (programOf c m (.allOff false)) = ⟨24 * c.n, 24 * c.n, 0, 8 * c.n, 0⟩ ∧
    timingOf (programOf c m .state) = ⟨0, 0, 0, 0, 0⟩ ∧
    (∀ cw why, decode cw wdata = .illegal why → timingOf (commandProgram c m ⟨cw, wdata⟩) = ⟨0, 0, 0, 0, 0⟩)

/-! ### The chain -/

/-- 60_exceptions.md R261, on a known chain: on a rising CLOCK edge, with RST HIGH or not connected, every shift stage moves
at once and the first takes DATA; a falling edge changes nothing. It rests on the spec's general-knowledge passages G1 to G4
about the chips (93_implementation_defined.md section 2). -/
def Obligations.ChainShift : Prop :=
  ∀ s t : State, s.Inv → s.resetNow = false → step s = .next t → s.chainKnown = true →
    s.level .rst ≠ some .low →
    (s.currentOp = some (.set .clock .high) → s.level .clock = some .low →
      (∀ v, s.level .data = some v → t.chain.shiftStage 0 0 = some (v == .high)) ∧
      (∀ c, c + 1 < s.cfg.n → t.chain.shiftStage (c + 1) 0 = s.chain.shiftStage c 7) ∧
      (∀ c k, c < s.cfg.n → k + 1 < 8 → t.chain.shiftStage c (k + 1) = s.chain.shiftStage c k)) ∧
    (s.currentOp = some (.set .clock .low) → t.chain = s.chain)

/-- 60_exceptions.md R262, on a known chain: on a rising LATCH edge every storage stage takes its shift stage; a constant
level or a falling edge changes nothing; the outputs are the storage stages while OE is LOW or not connected, and
high-impedance while it is HIGH. Where the chain is not known an output is a free value (R266, 70_reset_and_hazards.md R283;
log entry 12). It rests on the spec's general-knowledge passages G1 to G4 about the chips (93_implementation_defined.md
section 2). -/
def Obligations.ChainLatchAndOutputs : Prop :=
  (∀ s t : State, s.Inv → s.resetNow = false → step s = .next t → s.chainKnown = true →
    (s.currentOp = some (.set .latch .high) → s.level .latch = some .low → t.chain.st = s.chain.sr) ∧
    (s.currentOp = some (.set .latch .high) → s.level .latch = some .high → t.chain.st = s.chain.st) ∧
    (s.currentOp = some (.set .latch .low) → t.chain.st = s.chain.st)) ∧
  (∀ (s : State) (c k : Nat) (x : Bool), s.chain.storageStage c k = some x →
    (s.chainKnown = true → s.pin .oe = none ∨ s.pin .oe = some (.driven .low) → s.output c k = some (.driven x)) ∧
    (s.chainKnown = true → s.pin .oe = some (.driven .high) → s.output c k = some .highZ) ∧
    (s.chainKnown = false → s.output c k = some (Chain.freeOutput s.freeTick (8 * c + k))))

/-- On a known chain, while RST is driven LOW every shift stage is 0, and the clear does not change the storage stages
(60_exceptions.md R264). It rests on the spec's general-knowledge passages G1 to G4 about the chips
(93_implementation_defined.md section 2). -/
def Obligations.ChainClear : Prop :=
  ∀ s t : State, s.Inv → s.resetNow = false → step s = .next t → s.chainKnown = true →
    t.pin .rst = some (.driven .low) →
    (∀ c k, c < s.cfg.n → k < 8 → t.chain.shiftStage c k = some false) ∧
    (s.currentOp ≠ some (.set .latch .high) → t.chain.st = s.chain.st)

/-- The latched image of a known chain changes only in the step that raises LATCH: a frame's effect on the outputs is atomic
at its latch edge (20_memory.md R79). It rests on the spec's general-knowledge passages G1 to G4 about the chips
(93_implementation_defined.md section 2). -/
def Obligations.LatchedImageChangesOnlyAtLatchEdge : Prop :=
  ∀ s t : State, s.resetNow = false → step s = .next t → s.chainKnown = true → t.chain.st ≠ s.chain.st →
    s.currentOp = some (.set .latch .high) ∧ s.level .latch = some .low

/-- While a chain input is undriven, before or after a step, the chain's stages become a fresh draw of free values, and so
do its outputs (60_exceptions.md R266; 70_reset_and_hazards.md R290; that the draw lasts through the step in which the last
line becomes driven is the model's reading, log entry 13). -/
def Obligations.UndrivenChainUnknown : Prop :=
  ∀ s t : State, step s = .next t → s.lines.anyUndriven = true ∨ t.lines.anyUndriven = true →
    t.chain = Chain.unknown s.cfg.n s.freeTick ∧ t.freeTick = s.freeTick + 1 ∧
    (t.lines.anyUndriven = true → ∀ c k, c < s.cfg.n → k < 8 →
      t.output c k = some (Chain.freeOutput t.freeTick (8 * c + k)))

/-- 70_reset_and_hazards.md R283 and 93_implementation_defined.md I3, for the chain: a reset that cuts a command off leaves
the chain's stages and outputs free values, drawn anew in every step, until the completion step of an INIT, and nothing else
ends or starts that time (log entry 20). -/
def Obligations.AbandonedChainUnknown : Prop :=
  ∀ s t : State, step s = .next t →
    (t.abandoned = true ↔
      (s.resetNow = true ∧ (s.abandoned = true ∨ s.seq ≠ .idle)) ∨
      (s.resetNow = false ∧ s.abandoned = true ∧
        ∀ st, s.seq ≠ .busy (progInit s.cfg) (progInit s.cfg).length st)) ∧
    (t.abandoned = true → t.chain = Chain.unknown s.cfg.n s.freeTick ∧ ∀ c k, c < s.cfg.n → k < 8 →
      t.output c k = some (Chain.freeOutput t.freeTick (8 * c + k)))

/-- 60_exceptions.md R263: after a frame on a known chain, the bit sent `t`-th is at global cell `8N - 1 - t`, whatever the
stages held before: part `p` lands in chip `N-1-p`, its `i`-th bit sent at stage `7 - i`; under MSB_FIRST value bit `b` is
at stage `b`, under LSB_FIRST at stage `7 - b`. It rests on the spec's general-knowledge passages G1 to G4 about the chips
(93_implementation_defined.md section 2). -/
def Obligations.FramePlacement : Prop :=
  ∀ (s : State) (i : Instr) (ds : List Bool), s.Inv → s.seq = .idle → s.WireReady →
    streamOf s.cfg s.shadow i = some ds →
    ds.length = 8 * s.cfg.n ∧
    ∃ u, runInstr i s = .next u ∧
      (∀ t, t < 8 * s.cfg.n → u.chain.shiftStage ((8 * s.cfg.n - 1 - t) / 8) ((8 * s.cfg.n - 1 - t) % 8) = ds[t]?) ∧
      (∀ p j, p < s.cfg.n → j < 8 → u.chain.shiftStage (s.cfg.n - 1 - p) (7 - j) = ds[8 * p + j]?) ∧
      (∀ ord w, i = .write ord w → ∀ p b, p < s.cfg.n → b < 8 →
        u.chain.shiftStage (s.cfg.n - 1 - p) (if ord = .msbFirst then b else 7 - b)
          = some ((wdataByte w p).getLsbD b)) ∧
      (∀ pin x, i = .writePin pin x → ∀ p b, p < s.cfg.n → b < 8 →
        u.chain.shiftStage (s.cfg.n - 1 - p) b = some (u.shadow.bit p b))

/-- What INIT leaves on the lines, every later command keeps (10_state.md R53): LATCH HIGH, CLOCK LOW, OE LOW, RST HIGH,
every connected line an output. INIT also leaves no abandoned command pending, and no command brings one back
(70_reset_and_hazards.md R283). -/
def Obligations.BootedKept : Prop :=
  (∀ s : State, s.Inv → s.seq = .idle →
    ∃ u, runInstr .init s = .next u ∧ u.Inv ∧ u.lines.booted = true ∧ u.abandoned = false) ∧
  (∀ (s : State) (c : Command), s.Inv → s.seq = .idle → s.lines.booted = true →
    ∃ u, runCommand c s = .next u ∧ u.Inv ∧ u.lines.booted = true ∧ (s.abandoned = false → u.abandoned = false))

/-- 60_exceptions.md R265 as an invariant of commands: a booted idle controller whose latched image equals the shadow under
the layout of the last latched frame is one again after any command, under the layout of that command's frame, and under
either order after INIT or a latched ALL_OFF. It rests on the spec's general-knowledge passages G1 to G4 about the chips
(93_implementation_defined.md section 2). -/
def Obligations.CommandKeepsPhysicalMatch : Prop :=
  ∀ (s : State) (ord : BitOrder) (c : Command), s.Inv → s.seq = .idle → s.lines.booted = true → s.abandoned = false →
    s.PhysicalMatch ord →
    ∃ u, runCommand c s = .next u ∧ u.Inv ∧ u.seq = .idle ∧ u.lines.booted = true ∧ u.abandoned = false ∧
      u.PhysicalMatch (orderAfter s.cfg ord c) ∧
      (decode c.cw c.wdata = .instr .init ∨ decode c.cw c.wdata = .instr (.allOff true) → ∀ o, u.PhysicalMatch o)

/-- 60_exceptions.md R265: from any idle state, after INIT and any commands to their `Done`, the latched image equals the
shadow under the layout of the last latched frame, for either order as long as every frame so far is all-zero. It rests on
the spec's general-knowledge passages G1 to G4 about the chips (93_implementation_defined.md section 2). -/
def Obligations.PhysicalInvariant : Prop :=
  ∀ (s : State) (ord : BitOrder) (cs : List Command), s.Inv → s.seq = .idle →
    ∃ u, runCommands (encode .init :: cs) s = .next u ∧ u.seq = .idle ∧
      u.PhysicalMatch (ordersAfter s.cfg ord cs)

/-! ### The assembler -/

/-- 30_encoding.md R123: the command word of each line of assembly, `values` from the low byte up, and the lines an
assembler refuses (that a value above 255 is refused too is the model's choice, log entry 21). -/
def Obligations.AssemblerLines : Prop :=
  ∀ (n : Nat),
    assemble n .init = some ⟨0x00000001#32, 0⟩ ∧
    (∀ vs : List Nat, vs.length = n → (∀ v ∈ vs, v < 256) →
      ∃ w, assemble n (.write .lsbFirst vs) = some ⟨0x00000002#32, w⟩ ∧
        assemble n (.write .msbFirst vs) = some ⟨0x00000012#32, w⟩ ∧ wdataFits n w = true ∧
        ∀ p, p < n → (wdataByte w p).toNat = vs.getD p 0) ∧
    (∀ vs ord, vs.length ≠ n → assemble n (.write ord vs) = none) ∧
    (∀ vs ord, (∃ v ∈ vs, 256 ≤ v) → assemble n (.write ord vs) = none) ∧
    (∀ k, k < 2 ^ 16 →
      assemble n (.writePin k true) = some ⟨(BitVec.ofNat 32 k <<< 16) ||| 0x00000013#32, 0⟩ ∧
      assemble n (.writePin k false) = some ⟨(BitVec.ofNat 32 k <<< 16) ||| 0x00000003#32, 0⟩) ∧
    (∀ k x, 2 ^ 16 ≤ k → assemble n (.writePin k x) = none) ∧
    assemble n (.allOff true) = some ⟨0x00000014#32, 0⟩ ∧
    assemble n (.allOff false) = some ⟨0x00000004#32, 0⟩ ∧
    assemble n .state = some ⟨0x00000005#32, 0⟩

/-- 30_encoding.md R124: each pseudo-command expands to exactly one command. -/
def Obligations.PseudoCommands : Prop :=
  ∀ (n k : Nat),
    assemble n (.setPin k) = assemble n (.writePin k true) ∧
    assemble n (.clrPin k) = assemble n (.writePin k false) ∧
    assemble n .clear = assemble n (.allOff true) ∧
    assemble n .shiftZero = assemble n (.allOff false)
end

