-- ==== Sys2Proof/Laws/Decode.lean ====
section
/-! SUPPORT. Laws of the command word: its fields as numbers, and the fields of a built word (30_encoding.md R100). -/

namespace Sys2Proof

theorem opField_toNat (cw : Word) : (opField cw).toNat = cw.toNat % 16 := by simp [opField]

theorem rsvField_toNat (cw : Word) : (rsvField cw).toNat = cw.toNat / 32 % 2 ^ 11 := by
  simp [rsvField, Nat.shiftRight_eq_div_pow]

theorem pinField_toNat (cw : Word) : (pinField cw).toNat = cw.toNat / 2 ^ 16 := by
  have := cw.isLt
  simp only [pinField, BitVec.extractLsb'_toNat, Nat.shiftRight_eq_div_pow]
  omega

theorem fField_eq (cw : Word) : fField cw = decide (cw.toNat / 16 % 2 = 1) := by
  simp [fField, BitVec.getLsbD, Nat.testBit_eq_decide_div_mod_eq]

theorem cmdWord_toNat (pin : BitVec 16) (f : Bool) (op : BitVec 4) :
    (cmdWord pin f op).toNat = pin.toNat * 2 ^ 16 + f.toNat * 2 ^ 4 + op.toNat := by
  have h1 := pin.isLt
  have h2 := op.isLt
  have h3 : f.toNat ≤ 1 := by cases f <;> simp
  simp only [cmdWord, BitVec.toNat_ofNat]
  omega

theorem opField_cmdWord (pin : BitVec 16) (f : Bool) (op : BitVec 4) : opField (cmdWord pin f op) = op := by
  apply BitVec.eq_of_toNat_eq
  have h2 := op.isLt
  rw [opField_toNat, cmdWord_toNat]
  omega

theorem rsvField_cmdWord (pin : BitVec 16) (f : Bool) (op : BitVec 4) : rsvField (cmdWord pin f op) = 0#11 := by
  apply BitVec.eq_of_toNat_eq
  have h2 := op.isLt
  have h3 : f.toNat ≤ 1 := by cases f <;> simp
  rw [rsvField_toNat, cmdWord_toNat, BitVec.toNat_ofNat]
  omega

theorem pinField_cmdWord (pin : BitVec 16) (f : Bool) (op : BitVec 4) : pinField (cmdWord pin f op) = pin := by
  apply BitVec.eq_of_toNat_eq
  have h2 := op.isLt
  have h3 : f.toNat ≤ 1 := by cases f <;> simp
  rw [pinField_toNat, cmdWord_toNat]
  omega

theorem fField_cmdWord (pin : BitVec 16) (f : Bool) (op : BitVec 4) : fField (cmdWord pin f op) = f := by
  have h2 := op.isLt
  rw [fField_eq, cmdWord_toNat]
  cases f
  · simp only [Bool.toNat_false, decide_eq_false_iff_not]; omega
  · simp only [Bool.toNat_true, decide_eq_true_eq]; omega

/-- A word with `RSV` zero is the word of its own fields. -/
theorem cmdWord_fields {cw : Word} (h : rsvField cw = 0#11) :
    cmdWord (pinField cw) (fField cw) (opField cw) = cw := by
  apply BitVec.eq_of_toNat_eq
  have hr := rsvField_toNat cw
  rw [h, BitVec.toNat_ofNat] at hr
  have := cw.isLt
  rw [cmdWord_toNat, pinField_toNat, opField_toNat, fField_eq]
  by_cases hf : cw.toNat / 16 % 2 = 1
  · simp only [hf, decide_true, Bool.toNat_true]; omega
  · simp only [hf, decide_false, Bool.toNat_false]; omega

/-- All that the decoder can answer with an instruction, and from which fields (30_encoding.md R120). -/
theorem decode_instr_cases {cw : Word} {wdata : Nat} {i : Instr} (h : decode cw wdata = .instr i) :
    rsvField cw = 0#11 ∧
    ((i = .init ∧ pinField cw = 0#16 ∧ fField cw = false ∧ opField cw = 1#4) ∨
     (i = .write (ordOfF (fField cw)) wdata ∧ pinField cw = 0#16 ∧ opField cw = 2#4) ∨
     (i = .writePin (pinField cw) (fField cw) ∧ opField cw = 3#4) ∨
     (i = .allOff (fField cw) ∧ pinField cw = 0#16 ∧ opField cw = 4#4) ∨
     (i = .state ∧ pinField cw = 0#16 ∧ fField cw = false ∧ opField cw = 5#4)) := by
  unfold decode at h
  repeat' split at h
  all_goals simp_all

@[simp] theorem ordOfF_fOfOrd (ord : BitOrder) : ordOfF (fOfOrd ord) = ord := by cases ord <;> rfl

@[simp] theorem fOfOrd_ordOfF (f : Bool) : fOfOrd (ordOfF f) = f := by cases f <;> rfl

end Sys2Proof
end

