-- ==== Sys2Proof/Laws/Lines.lean ====
section
/-! SUPPORT. Laws of the line registers: what configuring and driving a line changes, and when a line is undriven. -/

namespace Sys2Proof.Machine

@[simp] theorem LineFile.get_modify (f : LineFile) (l l' : Line) (g : LineReg → LineReg) :
    (f.modify l g).get l' = if l' = l then (f.get l').map g else f.get l' := by
  cases l <;> cases l' <;> rfl

theorem LineFile.get_configure (f : LineFile) (l l' : Line) :
    (f.configure l).get l' = if l' = l then (f.get l').map (fun r => ⟨.output, r.level⟩) else f.get l' :=
  f.get_modify l l' _

theorem LineFile.get_drive (f : LineFile) (l l' : Line) (v : Level) :
    (f.drive l v).get l' = if l' = l then (f.get l').map (fun r => ⟨r.mode, v⟩) else f.get l' :=
  f.get_modify l l' _

@[simp] theorem linesMatch_modify (c : Config) (f : LineFile) (l : Line) (g : LineReg → LineReg) :
    linesMatch c (f.modify l g) = linesMatch c f := by
  cases l <;> simp [linesMatch, LineFile.modify]

@[simp] theorem linesMatch_onLines (c : Config) (op : MicroOp) (f : LineFile) :
    linesMatch c (op.onLines f) = linesMatch c f := by
  cases op <;> simp [MicroOp.onLines, LineFile.configure, LineFile.drive]

@[simp] theorem linesMatch_reset (c : Config) : linesMatch c (LineFile.reset c) = true := by
  unfold linesMatch LineFile.reset
  cases c.hasOe <;> cases c.hasRst <;> rfl

theorem LineReg.pin_undriven (r : LineReg) : r.pin = .undriven ↔ r.mode = .unconfigured := by
  obtain ⟨m, v⟩ := r
  cases m <;> simp [LineReg.pin]

@[simp] theorem LineReg.pin_output (v : Level) : LineReg.pin ⟨.output, v⟩ = .driven v := rfl

@[simp] theorem LineReg.pin_unconfigured (v : Level) : LineReg.pin ⟨.unconfigured, v⟩ = .undriven := rfl

/-- No line is undriven exactly when every connected line is an output. -/
theorem LineFile.driven_iff (f : LineFile) :
    f.anyUndriven = false ↔ ∀ l r, f.get l = some r → r.mode = .output := by
  have key : ∀ r : LineReg, r.pin ≠ .undriven ↔ r.mode = .output := by
    rintro ⟨m, v⟩; cases m <;> simp [LineReg.pin]
  constructor
  · intro h l r hr
    rw [← key]
    intro hu
    have hl : f.pin l = some .undriven := by simp [LineFile.pin, hr, hu]
    simp only [LineFile.anyUndriven, List.any_cons, List.any_nil, Bool.or_false, Bool.or_eq_false_iff,
      beq_eq_false_iff_ne] at h
    cases l <;> simp_all
  · intro h
    simp only [LineFile.anyUndriven, List.any_eq_false, beq_iff_eq]
    intro l _ hl
    simp only [LineFile.pin, Option.map_eq_some_iff] at hl
    obtain ⟨r, hr, hu⟩ := hl
    exact (key r).mpr (h l r hr) hu

/-- Driving a line leaves no line more or less driven than before. -/
@[simp] theorem LineFile.anyUndriven_drive (f : LineFile) (l : Line) (v : Level) :
    (f.drive l v).anyUndriven = f.anyUndriven := by
  rw [Bool.eq_iff_iff, ← not_iff_not, Bool.not_eq_true, Bool.not_eq_true, LineFile.driven_iff, LineFile.driven_iff]
  constructor
  · intro h l' r hr
    have := h l' (if l' = l then ⟨r.mode, v⟩ else r) (by rw [LineFile.get_drive]; split <;> simp [hr])
    split at this <;> exact this
  · intro h l' r hr
    rw [LineFile.get_drive] at hr
    split at hr
    · simp only [Option.map_eq_some_iff] at hr
      obtain ⟨r', hr', rfl⟩ := hr
      exact h l' r' hr'
    · exact h l' r hr

theorem LineFile.booted_iff (f : LineFile) :
    f.booted = true ↔ f.data.mode = .output ∧ f.clock = ⟨.output, .low⟩ ∧ f.latch = ⟨.output, .high⟩ ∧
      (f.oe = none ∨ f.oe = some ⟨.output, .low⟩) ∧ (f.rst = none ∨ f.rst = some ⟨.output, .high⟩) := by
  simp [LineFile.booted, and_assoc]

end Sys2Proof.Machine
end

