-- ==== Sys2Proof/Laws/Memory.lean ====
section
/-! SUPPORT. Laws of the shadow: reads after writes, the canonical form, and bits of a byte. -/

namespace Sys2Proof.Machine

@[simp] theorem Memory.read_nil (p : Nat) : Memory.read [] p = 0 := rfl

@[simp] theorem Memory.unlisted_eq : Memory.unlisted = 0 := rfl

theorem Memory.read_cons (a : Nat) (v : Byte) (m : Memory) (p : Nat) :
    Memory.read ((a, v) :: m) p = if p = a then v else Memory.read m p := rfl

theorem Memory.wfFrom_cons {n lo a : Nat} {v : Byte} {m : Memory} :
    Memory.wfFrom n lo ((a, v) :: m) = true ↔ (lo ≤ a ∧ a < n ∧ v ≠ 0) ∧ Memory.wfFrom n (a + 1) m = true := by
  simp only [Memory.wfFrom, Bool.and_eq_true, decide_eq_true_eq]
  rfl

theorem Memory.wfFrom_mono {n lo lo' : Nat} {m : Memory} (h : Memory.wfFrom n lo m = true) (hl : lo' ≤ lo) :
    Memory.wfFrom n lo' m = true := by
  cases m with
  | nil => rfl
  | cons x m =>
    obtain ⟨a, v⟩ := x
    rw [wfFrom_cons] at h ⊢
    exact ⟨⟨by omega, h.1.2⟩, h.2⟩

/-- Nothing is listed below the lower bound of the canonical form. -/
theorem Memory.read_below {n lo p : Nat} {m : Memory} (h : Memory.wfFrom n lo m = true) (hp : p < lo) :
    m.read p = 0 := by
  induction m generalizing lo with
  | nil => rfl
  | cons x m ih =>
    obtain ⟨a, v⟩ := x
    rw [wfFrom_cons] at h
    rw [read_cons, if_neg (by omega), ih h.2 (by omega)]

/-- Nothing is listed at or above `n`. -/
theorem Memory.read_above {n lo p : Nat} {m : Memory} (h : Memory.wfFrom n lo m = true) (hp : n ≤ p) :
    m.read p = 0 := by
  induction m generalizing lo with
  | nil => rfl
  | cons x m ih =>
    obtain ⟨a, v⟩ := x
    rw [wfFrom_cons] at h
    rw [read_cons, if_neg (by omega), ih h.2]

theorem Memory.read_cell_append (p q : Nat) (v : Byte) (m : Memory) (hm : v = 0 → m.read p = 0) :
    Memory.read (Memory.cell p v ++ m) q = if q = p then v else m.read q := by
  unfold Memory.cell
  split
  · next hv =>
    simp only [Memory.unlisted_eq] at hv
    by_cases h : q = p
    · simp [h, hv, hm hv]
    · simp [h]
  · simp [read_cons]

/-- A read after a write: the written part reads as written, every other part as before. -/
theorem Memory.read_write_from {n lo : Nat} {m : Memory} (h : Memory.wfFrom n lo m = true) (p q : Nat) (v : Byte) :
    (m.write p v).read q = if q = p then v else m.read q := by
  induction m generalizing lo with
  | nil =>
    have := Memory.read_cell_append p q v [] (fun _ => rfl)
    simpa [Memory.write] using this
  | cons x m ih =>
    obtain ⟨a, w⟩ := x
    have h' := wfFrom_cons.mp h
    simp only [Memory.write]
    split
    · next hp =>
      apply Memory.read_cell_append
      intro _
      rw [read_cons, if_neg (by omega), Memory.read_below h'.2 (by omega)]
    · split
      · next hp =>
        subst hp
        rw [Memory.read_cell_append _ _ _ _ (fun _ => Memory.read_below h'.2 (by omega)), read_cons]
        split <;> simp_all
      · next hne =>
        rw [read_cons, read_cons, ih h'.2]
        split
        · next hq => subst hq; rw [if_neg (by omega)]
        · rfl

theorem Memory.read_write {n : Nat} {m : Memory} (h : m.wf n = true) (p q : Nat) (v : Byte) :
    (m.write p v).read q = if q = p then v else m.read q := Memory.read_write_from h p q v

theorem Memory.wfFrom_cell_append {n lo p : Nat} {v : Byte} {m : Memory} (hm : Memory.wfFrom n (p + 1) m = true)
    (hlo : lo ≤ p) (hp : p < n) : Memory.wfFrom n lo (Memory.cell p v ++ m) = true := by
  unfold Memory.cell
  split
  · exact Memory.wfFrom_mono hm (by omega)
  · next hv => exact wfFrom_cons.mpr ⟨⟨hlo, hp, hv⟩, hm⟩

/-- A write keeps the canonical form. -/
theorem Memory.write_wfFrom {n lo p : Nat} {m : Memory} (h : Memory.wfFrom n lo m = true) (hlo : lo ≤ p) (hp : p < n)
    (v : Byte) : Memory.wfFrom n lo (m.write p v) = true := by
  induction m generalizing lo with
  | nil => simpa [Memory.write] using Memory.wfFrom_cell_append (m := []) rfl hlo hp
  | cons x m ih =>
    obtain ⟨a, w⟩ := x
    have h' := wfFrom_cons.mp h
    simp only [Memory.write]
    split
    · next hpa => exact Memory.wfFrom_cell_append (wfFrom_cons.mpr ⟨⟨by omega, h'.1.2⟩, h'.2⟩) hlo hp
    · split
      · next hpa => subst hpa; exact Memory.wfFrom_cell_append h'.2 hlo hp
      · exact wfFrom_cons.mpr ⟨h'.1, ih h'.2 (by omega)⟩

theorem Memory.write_wf {n p : Nat} {m : Memory} (h : m.wf n = true) (hp : p < n) (v : Byte) :
    (m.write p v).wf n = true := Memory.write_wfFrom h (Nat.zero_le p) hp v

theorem Memory.writeBit_wf {n p : Nat} {m : Memory} (h : m.wf n = true) (hp : p < n) (b : Nat) (x : Bool) :
    (m.writeBit p b x).wf n = true := Memory.write_wf h hp _

@[simp] theorem Memory.wf_nil (n : Nat) : Memory.wf n [] = true := rfl

/-- Equal memories are equal data. -/
theorem Memory.ext_from {n lo : Nat} {m m' : Memory} (h : Memory.wfFrom n lo m = true)
    (h' : Memory.wfFrom n lo m' = true) (e : ∀ p, m.read p = m'.read p) : m = m' := by
  induction m generalizing lo m' with
  | nil =>
    cases m' with
    | nil => rfl
    | cons y m' =>
      obtain ⟨a, v⟩ := y
      have := e a
      simp [Memory.read_cons] at this
      exact absurd this.symm (wfFrom_cons.mp h').1.2.2
  | cons x m ih =>
    obtain ⟨a, v⟩ := x
    have hc := wfFrom_cons.mp h
    cases m' with
    | nil =>
      have := e a
      simp [Memory.read_cons] at this
      exact absurd this hc.1.2.2
    | cons y m' =>
      obtain ⟨a', v'⟩ := y
      have hc' := wfFrom_cons.mp h'
      have haa : a = a' := by
        rcases Nat.lt_trichotomy a a' with hlt | heq | hgt
        · have := e a
          rw [read_cons, read_cons, if_pos rfl, if_neg (by omega), Memory.read_below hc'.2 (by omega)] at this
          exact absurd this hc.1.2.2
        · exact heq
        · have := e a'
          rw [read_cons, read_cons, if_neg (by omega), if_pos rfl, Memory.read_below hc.2 (by omega)] at this
          exact absurd this.symm hc'.1.2.2
      subst haa
      have hv : v = v' := by simpa [Memory.read_cons] using e a
      subst hv
      congr 1
      apply ih hc.2 hc'.2
      intro p
      by_cases hp : p = a
      · subst hp; rw [Memory.read_below hc.2 (by omega), Memory.read_below hc'.2 (by omega)]
      · simpa [Memory.read_cons, hp] using e p

theorem Memory.ext_wf {n : Nat} {m m' : Memory} (h : m.wf n = true) (h' : m'.wf n = true)
    (e : ∀ p, p < n → m.read p = m'.read p) : m = m' := by
  apply Memory.ext_from h h'
  intro p
  by_cases hp : p < n
  · exact e p hp
  · rw [Memory.read_above h (by omega), Memory.read_above h' (by omega)]

theorem setBit_getLsbD (v : Byte) {b : Nat} (hb : b < 8) (x : Bool) (c : Nat) (hc : c < 8) :
    (setBit v b x).getLsbD c = if c = b then x else v.getLsbD c := by
  unfold setBit
  have h1 : ((1 : Byte) <<< b).getLsbD c = decide (c = b) := by
    have : (1 : Byte) = BitVec.ofNat 8 1 := rfl
    simp only [BitVec.getLsbD_shiftLeft, this, BitVec.getLsbD_one]
    by_cases h : c = b
    · simp [h, hb]
    · simp [h, hc]; omega
  cases x
  · simp only [Bool.false_eq_true, if_false, BitVec.getLsbD_and, BitVec.getLsbD_not, h1, hc]
    split <;> simp_all
  · simp only [if_true, BitVec.getLsbD_or, h1]
    split <;> simp_all

/-- A bit after a bit write: the written bit holds `x`, every other bit is as before. -/
theorem Memory.bit_writeBit {n : Nat} {m : Memory} (h : m.wf n = true) {b : Nat} (hb : b < 8) (p q c : Nat) (hc : c < 8)
    (x : Bool) : (m.writeBit p b x).bit q c = if q = p ∧ c = b then x else m.bit q c := by
  unfold Memory.writeBit Memory.bit
  rw [Memory.read_write h]
  by_cases hq : q = p
  · subst hq
    simp [setBit_getLsbD _ hb _ _ hc]
  · simp [hq]

/-- Two canonical memories with the same bits are the same memory. -/
theorem Memory.ext_bits {n : Nat} {m m' : Memory} (h : m.wf n = true) (h' : m'.wf n = true)
    (e : ∀ p, p < n → ∀ b, b < 8 → m.bit p b = m'.bit p b) : m = m' := by
  apply Memory.ext_wf h h'
  intro p hp
  apply BitVec.eq_of_getLsbD_eq
  intro i hi
  exact e p hp i hi

end Sys2Proof.Machine
end

