-- ==== Sys2Proof/Laws/State.lean ====
section
/-! SUPPORT. One lemma for each field of State under each update of it, true by rfl, so that no later proof unfolds a record
update. -/

namespace Sys2Proof.Machine

@[simp] theorem applyOp_cfg (op : MicroOp) (s : State) : (applyOp op s).cfg = s.cfg := rfl
@[simp] theorem applyOp_shadow (op : MicroOp) (s : State) : (applyOp op s).shadow = op.onShadow s.shadow := rfl
@[simp] theorem applyOp_lines (op : MicroOp) (s : State) : (applyOp op s).lines = op.onLines s.lines := rfl
@[simp] theorem applyOp_seq (op : MicroOp) (s : State) : (applyOp op s).seq = s.seq := rfl
@[simp] theorem applyOp_trace (op : MicroOp) (s : State) : (applyOp op s).trace = s.trace ++ op.event.toList := rfl
@[simp] theorem applyOp_resetMarks (op : MicroOp) (s : State) : (applyOp op s).resetMarks = s.resetMarks := rfl
@[simp] theorem applyOp_cmdPort (op : MicroOp) (s : State) : (applyOp op s).cmdPort = s.cmdPort := rfl
@[simp] theorem applyOp_resetIn (op : MicroOp) (s : State) : (applyOp op s).resetIn = s.resetIn := rfl
@[simp] theorem applyOp_chain (op : MicroOp) (s : State) : (applyOp op s).chain = s.chain := rfl
@[simp] theorem applyOp_abandoned (op : MicroOp) (s : State) : (applyOp op s).abandoned = s.abandoned := rfl
@[simp] theorem applyOp_freeTick (op : MicroOp) (s : State) : (applyOp op s).freeTick = s.freeTick := rfl

@[simp] theorem complete_cfg (st : Status) (s : State) : (complete st s).cfg = s.cfg := rfl
@[simp] theorem complete_shadow (st : Status) (s : State) : (complete st s).shadow = s.shadow := rfl
@[simp] theorem complete_lines (st : Status) (s : State) : (complete st s).lines = s.lines := rfl
@[simp] theorem complete_seq (st : Status) (s : State) : (complete st s).seq = .idle := rfl
@[simp] theorem complete_trace (st : Status) (s : State) : (complete st s).trace = s.trace ++ [.done st s.rdata] := rfl
@[simp] theorem complete_resetMarks (st : Status) (s : State) : (complete st s).resetMarks = s.resetMarks := rfl
@[simp] theorem complete_cmdPort (st : Status) (s : State) : (complete st s).cmdPort = s.cmdPort := rfl
@[simp] theorem complete_resetIn (st : Status) (s : State) : (complete st s).resetIn = s.resetIn := rfl
@[simp] theorem complete_chain (st : Status) (s : State) : (complete st s).chain = s.chain := rfl
@[simp] theorem complete_abandoned (st : Status) (s : State) : (complete st s).abandoned = s.abandoned := rfl
@[simp] theorem complete_freeTick (st : Status) (s : State) : (complete st s).freeTick = s.freeTick := rfl

@[simp] theorem settleInit_cfg (prog : List MicroOp) (s : State) : (settleInit prog s).cfg = s.cfg := rfl
@[simp] theorem settleInit_shadow (prog : List MicroOp) (s : State) : (settleInit prog s).shadow = s.shadow := rfl
@[simp] theorem settleInit_lines (prog : List MicroOp) (s : State) : (settleInit prog s).lines = s.lines := rfl
@[simp] theorem settleInit_seq (prog : List MicroOp) (s : State) : (settleInit prog s).seq = s.seq := rfl
@[simp] theorem settleInit_trace (prog : List MicroOp) (s : State) : (settleInit prog s).trace = s.trace := rfl
@[simp] theorem settleInit_resetMarks (prog : List MicroOp) (s : State) : (settleInit prog s).resetMarks = s.resetMarks := rfl
@[simp] theorem settleInit_cmdPort (prog : List MicroOp) (s : State) : (settleInit prog s).cmdPort = s.cmdPort := rfl
@[simp] theorem settleInit_resetIn (prog : List MicroOp) (s : State) : (settleInit prog s).resetIn = s.resetIn := rfl
@[simp] theorem settleInit_chain (prog : List MicroOp) (s : State) : (settleInit prog s).chain = s.chain := rfl
@[simp] theorem settleInit_abandoned (prog : List MicroOp) (s : State) : (settleInit prog s).abandoned
    = (s.abandoned && prog != progInit s.cfg) := rfl
@[simp] theorem settleInit_freeTick (prog : List MicroOp) (s : State) : (settleInit prog s).freeTick = s.freeTick := rfl

@[simp] theorem controllerReset_cfg (s : State) : (controllerReset s).cfg = s.cfg := rfl
@[simp] theorem controllerReset_shadow (s : State) : (controllerReset s).shadow = [] := rfl
@[simp] theorem controllerReset_lines (s : State) : (controllerReset s).lines = LineFile.reset s.cfg := rfl
@[simp] theorem controllerReset_seq (s : State) : (controllerReset s).seq = .idle := rfl
@[simp] theorem controllerReset_trace (s : State) : (controllerReset s).trace = s.trace := rfl
@[simp] theorem controllerReset_resetMarks (s : State) : (controllerReset s).resetMarks = s.resetMarks ++ [s.trace.length] := rfl
@[simp] theorem controllerReset_cmdPort (s : State) : (controllerReset s).cmdPort = s.cmdPort := rfl
@[simp] theorem controllerReset_resetIn (s : State) : (controllerReset s).resetIn = s.resetIn := rfl
@[simp] theorem controllerReset_chain (s : State) : (controllerReset s).chain = s.chain := rfl
@[simp] theorem controllerReset_abandoned (s : State) : (controllerReset s).abandoned = (s.abandoned || s.seq != .idle) := rfl
@[simp] theorem controllerReset_freeTick (s : State) : (controllerReset s).freeTick = s.freeTick := rfl

@[simp] theorem observeChain_cfg (s t : State) : (observeChain s t).cfg = t.cfg := rfl
@[simp] theorem observeChain_shadow (s t : State) : (observeChain s t).shadow = t.shadow := rfl
@[simp] theorem observeChain_lines (s t : State) : (observeChain s t).lines = t.lines := rfl
@[simp] theorem observeChain_seq (s t : State) : (observeChain s t).seq = t.seq := rfl
@[simp] theorem observeChain_trace (s t : State) : (observeChain s t).trace = t.trace := rfl
@[simp] theorem observeChain_resetMarks (s t : State) : (observeChain s t).resetMarks = t.resetMarks := rfl
@[simp] theorem observeChain_cmdPort (s t : State) : (observeChain s t).cmdPort = t.cmdPort := rfl
@[simp] theorem observeChain_resetIn (s t : State) : (observeChain s t).resetIn = t.resetIn := rfl
@[simp] theorem observeChain_chain (s t : State) : (observeChain s t).chain
    = Chain.afterStep t.cfg.n s.freeTick s.abandoned t.abandoned s.lines t.lines s.chain := rfl
@[simp] theorem observeChain_abandoned (s t : State) : (observeChain s t).abandoned = t.abandoned := rfl
@[simp] theorem observeChain_freeTick (s t : State) : (observeChain s t).freeTick = s.freeTick + 1 := rfl

@[simp] theorem resetStep_cfg (s : State) : (resetStep s).cfg = s.cfg := rfl
@[simp] theorem resetStep_shadow (s : State) : (resetStep s).shadow = [] := rfl
@[simp] theorem resetStep_lines (s : State) : (resetStep s).lines = LineFile.reset s.cfg := rfl
@[simp] theorem resetStep_seq (s : State) : (resetStep s).seq = .idle := rfl
@[simp] theorem resetStep_trace (s : State) : (resetStep s).trace = s.trace := rfl
@[simp] theorem resetStep_resetMarks (s : State) : (resetStep s).resetMarks = s.resetMarks ++ [s.trace.length] := rfl
@[simp] theorem resetStep_cmdPort (s : State) : (resetStep s).cmdPort = s.cmdPort := rfl
@[simp] theorem resetStep_resetIn (s : State) : (resetStep s).resetIn = s.resetIn := rfl
@[simp] theorem resetStep_chain (s : State) : (resetStep s).chain
    = Chain.afterStep s.cfg.n s.freeTick s.abandoned (s.abandoned || s.seq != .idle) s.lines (LineFile.reset s.cfg)
      s.chain := rfl
@[simp] theorem resetStep_abandoned (s : State) : (resetStep s).abandoned = (s.abandoned || s.seq != .idle) := rfl
@[simp] theorem resetStep_freeTick (s : State) : (resetStep s).freeTick = s.freeTick + 1 := rfl

@[simp] theorem sampled_cfg (s : State) : s.sampled.cfg = s.cfg := rfl
@[simp] theorem sampled_shadow (s : State) : s.sampled.shadow = s.shadow := rfl
@[simp] theorem sampled_lines (s : State) : s.sampled.lines = s.lines := rfl
@[simp] theorem sampled_seq (s : State) : s.sampled.seq = s.seq := rfl
@[simp] theorem sampled_trace (s : State) : s.sampled.trace = s.trace := rfl
@[simp] theorem sampled_resetMarks (s : State) : s.sampled.resetMarks = s.resetMarks := rfl
@[simp] theorem sampled_cmdPort (s : State) : s.sampled.cmdPort = s.cmdPort := rfl
@[simp] theorem sampled_resetIn (s : State) : s.sampled.resetIn = s.resetIn.tail := rfl
@[simp] theorem sampled_chain (s : State) : s.sampled.chain = s.chain := rfl
@[simp] theorem sampled_abandoned (s : State) : s.sampled.abandoned = s.abandoned := rfl
@[simp] theorem sampled_freeTick (s : State) : s.sampled.freeTick = s.freeTick := rfl

@[simp] theorem presenting_cfg (c : Command) (s : State) : (s.presenting c).cfg = s.cfg := rfl
@[simp] theorem presenting_shadow (c : Command) (s : State) : (s.presenting c).shadow = s.shadow := rfl
@[simp] theorem presenting_lines (c : Command) (s : State) : (s.presenting c).lines = s.lines := rfl
@[simp] theorem presenting_seq (c : Command) (s : State) : (s.presenting c).seq = .idle := rfl
@[simp] theorem presenting_trace (c : Command) (s : State) : (s.presenting c).trace = s.trace := rfl
@[simp] theorem presenting_resetMarks (c : Command) (s : State) : (s.presenting c).resetMarks = s.resetMarks := rfl
@[simp] theorem presenting_cmdPort (c : Command) (s : State) : (s.presenting c).cmdPort = c :: s.cmdPort := rfl
@[simp] theorem presenting_resetIn (c : Command) (s : State) : (s.presenting c).resetIn = false :: s.resetIn := rfl
@[simp] theorem presenting_chain (c : Command) (s : State) : (s.presenting c).chain = s.chain := rfl
@[simp] theorem presenting_abandoned (c : Command) (s : State) : (s.presenting c).abandoned = s.abandoned := rfl
@[simp] theorem presenting_freeTick (c : Command) (s : State) : (s.presenting c).freeTick = s.freeTick := rfl

@[simp] theorem resetOf_cfg (c : Config) : (State.resetOf c).cfg = c := rfl
@[simp] theorem resetOf_shadow (c : Config) : (State.resetOf c).shadow = [] := rfl
@[simp] theorem resetOf_lines (c : Config) : (State.resetOf c).lines = LineFile.reset c := rfl
@[simp] theorem resetOf_seq (c : Config) : (State.resetOf c).seq = .idle := rfl
@[simp] theorem resetOf_trace (c : Config) : (State.resetOf c).trace = [] := rfl
@[simp] theorem resetOf_resetMarks (c : Config) : (State.resetOf c).resetMarks = [] := rfl
@[simp] theorem resetOf_cmdPort (c : Config) : (State.resetOf c).cmdPort = [] := rfl
@[simp] theorem resetOf_resetIn (c : Config) : (State.resetOf c).resetIn = [] := rfl
@[simp] theorem resetOf_chain (c : Config) : (State.resetOf c).chain = Chain.unknown c.n 0 := rfl
@[simp] theorem resetOf_abandoned (c : Config) : (State.resetOf c).abandoned = false := rfl
@[simp] theorem resetOf_freeTick (c : Config) : (State.resetOf c).freeTick = 1 := rfl

@[simp] theorem withSeq_cfg (s : State) (q : Seq) : (s.withSeq q).cfg = s.cfg := rfl
@[simp] theorem withSeq_shadow (s : State) (q : Seq) : (s.withSeq q).shadow = s.shadow := rfl
@[simp] theorem withSeq_lines (s : State) (q : Seq) : (s.withSeq q).lines = s.lines := rfl
@[simp] theorem withSeq_seq (s : State) (q : Seq) : (s.withSeq q).seq = q := rfl
@[simp] theorem withSeq_trace (s : State) (q : Seq) : (s.withSeq q).trace = s.trace := rfl
@[simp] theorem withSeq_resetMarks (s : State) (q : Seq) : (s.withSeq q).resetMarks = s.resetMarks := rfl
@[simp] theorem withSeq_cmdPort (s : State) (q : Seq) : (s.withSeq q).cmdPort = s.cmdPort := rfl
@[simp] theorem withSeq_resetIn (s : State) (q : Seq) : (s.withSeq q).resetIn = s.resetIn := rfl
@[simp] theorem withSeq_chain (s : State) (q : Seq) : (s.withSeq q).chain = s.chain := rfl
@[simp] theorem withSeq_abandoned (s : State) (q : Seq) : (s.withSeq q).abandoned = s.abandoned := rfl
@[simp] theorem withSeq_freeTick (s : State) (q : Seq) : (s.withSeq q).freeTick = s.freeTick := rfl

@[simp] theorem withPort_cfg (s : State) (cs : List Command) : (s.withPort cs).cfg = s.cfg := rfl
@[simp] theorem withPort_shadow (s : State) (cs : List Command) : (s.withPort cs).shadow = s.shadow := rfl
@[simp] theorem withPort_lines (s : State) (cs : List Command) : (s.withPort cs).lines = s.lines := rfl
@[simp] theorem withPort_seq (s : State) (cs : List Command) : (s.withPort cs).seq = s.seq := rfl
@[simp] theorem withPort_trace (s : State) (cs : List Command) : (s.withPort cs).trace = s.trace := rfl
@[simp] theorem withPort_resetMarks (s : State) (cs : List Command) : (s.withPort cs).resetMarks = s.resetMarks := rfl
@[simp] theorem withPort_cmdPort (s : State) (cs : List Command) : (s.withPort cs).cmdPort = cs := rfl
@[simp] theorem withPort_resetIn (s : State) (cs : List Command) : (s.withPort cs).resetIn = s.resetIn := rfl
@[simp] theorem withPort_chain (s : State) (cs : List Command) : (s.withPort cs).chain = s.chain := rfl
@[simp] theorem withPort_abandoned (s : State) (cs : List Command) : (s.withPort cs).abandoned = s.abandoned := rfl
@[simp] theorem withPort_freeTick (s : State) (cs : List Command) : (s.withPort cs).freeTick = s.freeTick := rfl

@[simp] theorem withSeq_withSeq (s : State) (q q' : Seq) : (s.withSeq q).withSeq q' = s.withSeq q' := rfl

@[simp] theorem withCfg_cfg (s : State) (c : Config) : (s.withCfg c).cfg = c := rfl
@[simp] theorem withCfg_shadow (s : State) (c : Config) : (s.withCfg c).shadow = s.shadow := rfl
@[simp] theorem withCfg_lines (s : State) (c : Config) : (s.withCfg c).lines = s.lines := rfl
@[simp] theorem withCfg_seq (s : State) (c : Config) : (s.withCfg c).seq = s.seq := rfl
@[simp] theorem withCfg_trace (s : State) (c : Config) : (s.withCfg c).trace = s.trace := rfl
@[simp] theorem withCfg_resetMarks (s : State) (c : Config) : (s.withCfg c).resetMarks = s.resetMarks := rfl
@[simp] theorem withCfg_cmdPort (s : State) (c : Config) : (s.withCfg c).cmdPort = s.cmdPort := rfl
@[simp] theorem withCfg_resetIn (s : State) (c : Config) : (s.withCfg c).resetIn = s.resetIn := rfl
@[simp] theorem withCfg_chain (s : State) (c : Config) : (s.withCfg c).chain = s.chain := rfl
@[simp] theorem withCfg_abandoned (s : State) (c : Config) : (s.withCfg c).abandoned = s.abandoned := rfl
@[simp] theorem withCfg_freeTick (s : State) (c : Config) : (s.withCfg c).freeTick = s.freeTick := rfl

@[simp] theorem withChain_cfg (s : State) (ch : Chain) (k : Nat) (x : Bool) : (s.withChain ch k x).cfg = s.cfg := rfl
@[simp] theorem withChain_shadow (s : State) (ch : Chain) (k : Nat) (x : Bool) : (s.withChain ch k x).shadow = s.shadow := rfl
@[simp] theorem withChain_lines (s : State) (ch : Chain) (k : Nat) (x : Bool) : (s.withChain ch k x).lines = s.lines := rfl
@[simp] theorem withChain_seq (s : State) (ch : Chain) (k : Nat) (x : Bool) : (s.withChain ch k x).seq = s.seq := rfl
@[simp] theorem withChain_trace (s : State) (ch : Chain) (k : Nat) (x : Bool) : (s.withChain ch k x).trace = s.trace := rfl
@[simp] theorem withChain_resetMarks (s : State) (ch : Chain) (k : Nat) (x : Bool) : (s.withChain ch k x).resetMarks
    = s.resetMarks := rfl
@[simp] theorem withChain_cmdPort (s : State) (ch : Chain) (k : Nat) (x : Bool) : (s.withChain ch k x).cmdPort = s.cmdPort := rfl
@[simp] theorem withChain_resetIn (s : State) (ch : Chain) (k : Nat) (x : Bool) : (s.withChain ch k x).resetIn = s.resetIn := rfl
@[simp] theorem withChain_chain (s : State) (ch : Chain) (k : Nat) (x : Bool) : (s.withChain ch k x).chain = ch := rfl
@[simp] theorem withChain_abandoned (s : State) (ch : Chain) (k : Nat) (x : Bool) : (s.withChain ch k x).abandoned = x := rfl
@[simp] theorem withChain_freeTick (s : State) (ch : Chain) (k : Nat) (x : Bool) : (s.withChain ch k x).freeTick = k := rfl

@[simp] theorem withResetIn_cfg (s : State) (rs : List Bool) : (s.withResetIn rs).cfg = s.cfg := rfl
@[simp] theorem withResetIn_shadow (s : State) (rs : List Bool) : (s.withResetIn rs).shadow = s.shadow := rfl
@[simp] theorem withResetIn_lines (s : State) (rs : List Bool) : (s.withResetIn rs).lines = s.lines := rfl
@[simp] theorem withResetIn_seq (s : State) (rs : List Bool) : (s.withResetIn rs).seq = s.seq := rfl
@[simp] theorem withResetIn_trace (s : State) (rs : List Bool) : (s.withResetIn rs).trace = s.trace := rfl
@[simp] theorem withResetIn_resetMarks (s : State) (rs : List Bool) : (s.withResetIn rs).resetMarks = s.resetMarks := rfl
@[simp] theorem withResetIn_cmdPort (s : State) (rs : List Bool) : (s.withResetIn rs).cmdPort = s.cmdPort := rfl
@[simp] theorem withResetIn_resetIn (s : State) (rs : List Bool) : (s.withResetIn rs).resetIn = rs := rfl
@[simp] theorem withResetIn_chain (s : State) (rs : List Bool) : (s.withResetIn rs).chain = s.chain := rfl
@[simp] theorem withResetIn_abandoned (s : State) (rs : List Bool) : (s.withResetIn rs).abandoned = s.abandoned := rfl
@[simp] theorem withResetIn_freeTick (s : State) (rs : List Bool) : (s.withResetIn rs).freeTick = s.freeTick := rfl

end Sys2Proof.Machine
end

