-- ==== Sys2Proof/Laws/Ops.lean ====
section
/-! SUPPORT. One lemma for each shared operation that says all it can do, and the inversion of a step. -/

namespace Sys2Proof.Machine

theorem startCommand_idle {s : State} (h : s.seq = .idle) (prog : List MicroOp) (st : Status) :
    startCommand prog st s = .next (s.withSeq (.busy prog 0 st)) := by
  simp [startCommand, h]

/-- Starting a command either puts an idle sequencer at the start of the micro-program or leaves a busy one alone. -/
theorem startCommand_cases {s t : State} {prog : List MicroOp} {st : Status} (h : startCommand prog st s = .next t) :
    (s.seq = .idle ∧ t = s.withSeq (.busy prog 0 st)) ∨ (s.seq ≠ .idle ∧ t = s) := by
  unfold startCommand at h
  split at h
  · next hs => exact .inl ⟨hs, by simpa using h.symm⟩
  · next hs => exact .inr ⟨by simp [hs], by simpa using h.symm⟩

/-- A micro-operation is performed exactly where it names what exists. -/
theorem perform_next_iff {op : MicroOp} {s t : State} :
    perform op s = .next t ↔ op.check s.cfg = none ∧ t = applyOp op s := by
  unfold perform
  split
  · next h => simp [h, eq_comm]
  · next h => simp [h]

theorem perform_ok {op : MicroOp} {s : State} (h : op.check s.cfg = none) : perform op s = .next (applyOp op s) :=
  perform_next_iff.mpr ⟨h, rfl⟩

/-- Every instruction's meaning at its accept step, in one form (10_state.md R45). -/
theorem exec_eq (i : Instr) (s : State) :
    exec i s = startCommand (programOf s.cfg s.shadow i) (statusOf s.cfg i) s := by
  cases i <;> try rfl
  next pin turnOn =>
    simp only [exec, execWritePin, programOf, statusOf]
    split <;> rfl

theorem acceptCommand_eq (c : Command) (s : State) :
    acceptCommand c s = startCommand (commandProgram s.cfg s.shadow c) (commandStatus s.cfg c) s := by
  unfold acceptCommand commandProgram commandStatus
  cases decode c.cw c.wdata with
  | instr i => exact exec_eq i s
  | illegal why => rfl

theorem acceptCommand_idle {s : State} (h : s.seq = .idle) (c : Command) :
    acceptCommand c s
      = .next (s.withSeq (.busy (commandProgram s.cfg s.shadow c) 0 (commandStatus s.cfg c))) := by
  rw [acceptCommand_eq, startCommand_idle h]

/-! ### The controller's step, case by case -/

theorem controllerStep_wait {s : State} (hs : s.seq = .idle) (hp : s.cmdPort = []) : controllerStep s = .next s := by
  simp [controllerStep, idleStep, hs, hp]

theorem controllerStep_accept {s : State} {c : Command} {rest : List Command} (hs : s.seq = .idle)
    (hp : s.cmdPort = c :: rest) :
    controllerStep s = .next ((s.withPort rest).withSeq
      (.busy (commandProgram s.cfg s.shadow c) 0 (commandStatus s.cfg c))) := by
  simp only [controllerStep, hs, idleStep, hp]
  rw [acceptCommand_idle (by simpa using hs)]
  rfl

theorem controllerStep_op {s : State} {prog : List MicroOp} {upc : Nat} {st : Status} {op : MicroOp}
    (hs : s.seq = .busy prog upc st) (hop : prog[upc]? = some op) (hc : op.check s.cfg = none) :
    controllerStep s = .next (applyOp op (s.withSeq (.busy prog (upc + 1) st))) := by
  simp only [controllerStep, hs, busyStep, hop]
  exact perform_ok hc

theorem controllerStep_badOp {s : State} {prog : List MicroOp} {upc : Nat} {st : Status} {op : MicroOp} {f : Fault}
    (hs : s.seq = .busy prog upc st) (hop : prog[upc]? = some op) (hc : op.check s.cfg = some f) :
    controllerStep s = .fault f := by
  simp [controllerStep, hs, busyStep, hop, perform, hc]

theorem controllerStep_complete {s : State} {prog : List MicroOp} {st : Status}
    (hs : s.seq = .busy prog prog.length st) : controllerStep s = .next (settleInit prog (complete st s)) := by
  simp [controllerStep, hs, busyStep]

theorem controllerStep_pastEnd {s : State} {prog : List MicroOp} {upc : Nat} {st : Status}
    (hs : s.seq = .busy prog upc st) (hu : prog.length < upc) : controllerStep s = .fault (.upcPastEnd upc) := by
  simp only [controllerStep, hs, busyStep, List.getElem?_eq_none (Nat.le_of_lt hu)]
  rw [if_neg (by omega)]

/-- Every state is in exactly one of the cases above. -/
theorem controllerStep_situations (s : State) :
    (s.seq = .idle ∧ s.cmdPort = [])
    ∨ (∃ c rest, s.seq = .idle ∧ s.cmdPort = c :: rest)
    ∨ (∃ prog upc st op, s.seq = .busy prog upc st ∧ prog[upc]? = some op ∧ op.check s.cfg = none)
    ∨ (∃ prog upc st op f, s.seq = .busy prog upc st ∧ prog[upc]? = some op ∧ op.check s.cfg = some f)
    ∨ (∃ prog st, s.seq = .busy prog prog.length st)
    ∨ (∃ prog upc st, s.seq = .busy prog upc st ∧ prog.length < upc) := by
  cases hs : s.seq with
  | idle =>
    cases hp : s.cmdPort with
    | nil => exact .inl ⟨rfl, rfl⟩
    | cons c rest => exact .inr (.inl ⟨c, rest, rfl, rfl⟩)
  | busy prog upc st =>
    rcases Nat.lt_trichotomy upc prog.length with h | h | h
    · have hop := List.getElem?_eq_getElem h
      cases hc : MicroOp.check s.cfg prog[upc] with
      | none => exact .inr (.inr (.inl ⟨prog, upc, st, _, rfl, hop, hc⟩))
      | some f => exact .inr (.inr (.inr (.inl ⟨prog, upc, st, _, f, rfl, hop, hc⟩)))
    · subst h; exact .inr (.inr (.inr (.inr (.inl ⟨prog, st, rfl⟩))))
    · exact .inr (.inr (.inr (.inr (.inr ⟨prog, upc, st, rfl, h⟩))))

/-- All that a step of the controller can do. -/
theorem controllerStep_cases {s t : State} (h : controllerStep s = .next t) :
    (s.seq = .idle ∧ s.cmdPort = [] ∧ t = s)
    ∨ (∃ c rest, s.seq = .idle ∧ s.cmdPort = c :: rest ∧
        t = (s.withPort rest).withSeq
          (.busy (commandProgram s.cfg s.shadow c) 0 (commandStatus s.cfg c)))
    ∨ (∃ prog upc st op, s.seq = .busy prog upc st ∧ prog[upc]? = some op ∧ op.check s.cfg = none ∧
        t = applyOp op (s.withSeq (.busy prog (upc + 1) st)))
    ∨ (∃ prog st, s.seq = .busy prog prog.length st ∧ t = settleInit prog (complete st s)) := by
  unfold controllerStep at h
  split at h
  · next hs =>
    unfold idleStep at h
    split at h
    · next hp => exact .inl ⟨hs, hp, by simpa using h.symm⟩
    · next c rest hp =>
      rw [acceptCommand_idle (by simpa using hs)] at h
      exact .inr (.inl ⟨c, rest, hs, hp, by simpa using h.symm⟩)
  · next prog upc st hs =>
    unfold busyStep at h
    split at h
    · next op hop =>
      obtain ⟨hc, rfl⟩ := perform_next_iff.mp h
      exact .inr (.inr (.inl ⟨prog, upc, st, op, hs, hop, hc, rfl⟩))
    · split at h
      · next hu => subst hu; exact .inr (.inr (.inr ⟨prog, st, hs, by simpa using h.symm⟩))
      · simp at h

theorem advance_next_iff {s t : State} :
    advance s = .next t ↔ ∃ u, controllerStep s = .next u ∧ t = observeChain s u := by
  unfold advance
  cases controllerStep s <;> simp [eq_comm]

/-- All that a step can do: reset, or the controller's step with the chain looking on. -/
theorem step_cases {s t : State} (h : step s = .next t) :
    s.cfg.valid = true ∧
    ((s.resetNow = true ∧ t = resetStep s.sampled)
     ∨ (s.resetNow = false ∧ ∃ u, controllerStep s.sampled = .next u ∧ t = observeChain s.sampled u)) := by
  unfold step at h
  split at h
  · next hv =>
    refine ⟨hv, ?_⟩
    split at h
    · next hr => exact .inl ⟨hr, by simpa using h.symm⟩
    · next hr => exact .inr ⟨by simpa using hr, advance_next_iff.mp h⟩
  · simp at h

theorem advance_eq_mapNext (s : State) : advance s = mapNext (observeChain s) (controllerStep s) := by
  unfold advance mapNext
  cases controllerStep s <;> rfl

theorem step_of_advance {s t : State} (hv : s.cfg.valid = true) (hr : s.resetNow = false)
    (h : advance s.sampled = .next t) : step s = .next t := by
  simp [step, hv, hr, h]

end Sys2Proof.Machine
end

