-- ==== Sys2Proof/Laws/Run.lean ====
section
/-! SUPPORT. A micro-program that names only what exists runs to its end: the run is a fold of its micro-operations. -/

namespace Sys2Proof.Machine

/-- One micro-operation as the controller and the chain see it, the sequencer left aside. -/
def stepOp (s : State) (op : MicroOp) : State := observeChain s (applyOp op s)

/-- The micro-operations of a program one after another. -/
def runOps (prog : List MicroOp) (s : State) : State := prog.foldl stepOp s

/-- Every micro-operation of a program names what exists. -/
def ProgOk (c : Config) (prog : List MicroOp) : Prop := ∀ op ∈ prog, op.check c = none

@[simp] theorem runOps_nil (s : State) : runOps [] s = s := rfl

@[simp] theorem runOps_cons (op : MicroOp) (prog : List MicroOp) (s : State) :
    runOps (op :: prog) s = runOps prog (stepOp s op) := rfl

theorem runOps_append (p q : List MicroOp) (s : State) : runOps (p ++ q) s = runOps q (runOps p s) := by
  simp [runOps]

@[simp] theorem runOps_cfg (prog : List MicroOp) (s : State) : (runOps prog s).cfg = s.cfg := by
  induction prog generalizing s with
  | nil => rfl
  | cons op prog ih => simp [ih, stepOp]

@[simp] theorem runOps_seq (prog : List MicroOp) (s : State) : (runOps prog s).seq = s.seq := by
  induction prog generalizing s with
  | nil => rfl
  | cons op prog ih => simp [ih, stepOp]

@[simp] theorem runOps_cmdPort (prog : List MicroOp) (s : State) : (runOps prog s).cmdPort = s.cmdPort := by
  induction prog generalizing s with
  | nil => rfl
  | cons op prog ih => simp [ih, stepOp]

@[simp] theorem runOps_resetIn (prog : List MicroOp) (s : State) : (runOps prog s).resetIn = s.resetIn := by
  induction prog generalizing s with
  | nil => rfl
  | cons op prog ih => simp [ih, stepOp]

@[simp] theorem runOps_resetMarks (prog : List MicroOp) (s : State) : (runOps prog s).resetMarks = s.resetMarks := by
  induction prog generalizing s with
  | nil => rfl
  | cons op prog ih => simp [ih, stepOp]

@[simp] theorem runOps_abandoned (prog : List MicroOp) (s : State) : (runOps prog s).abandoned = s.abandoned := by
  induction prog generalizing s with
  | nil => rfl
  | cons op prog ih => simp [ih, stepOp]

@[simp] theorem runOps_freeTick (prog : List MicroOp) (s : State) :
    (runOps prog s).freeTick = s.freeTick + prog.length := by
  induction prog generalizing s with
  | nil => rfl
  | cons op prog ih => simp [ih, stepOp]; omega

@[simp] theorem runOps_trace (prog : List MicroOp) (s : State) :
    (runOps prog s).trace = s.trace ++ progEvents prog := by
  induction prog generalizing s with
  | nil => simp [progEvents]
  | cons op prog ih =>
    rw [runOps_cons, ih]
    cases h : op.event <;> simp [stepOp, progEvents, h]

@[simp] theorem runOps_lines (prog : List MicroOp) (s : State) :
    (runOps prog s).lines = prog.foldl (fun f op => op.onLines f) s.lines := by
  induction prog generalizing s with
  | nil => rfl
  | cons op prog ih => simp [ih, stepOp]

@[simp] theorem runOps_shadow (prog : List MicroOp) (s : State) :
    (runOps prog s).shadow = prog.foldl (fun m op => op.onShadow m) s.shadow := by
  induction prog generalizing s with
  | nil => rfl
  | cons op prog ih => simp [ih, stepOp]

/-- Neither a micro-operation nor the chain reads the sequencer. -/
theorem stepOp_withSeq (s : State) (op : MicroOp) (q : Seq) :
    stepOp (s.withSeq q) op = (stepOp s op).withSeq q := rfl

theorem runOps_withSeq (prog : List MicroOp) (s : State) (q : Seq) :
    runOps prog (s.withSeq q) = (runOps prog s).withSeq q := by
  induction prog generalizing s with
  | nil => rfl
  | cons op prog ih => rw [runOps_cons, runOps_cons, stepOp_withSeq, ih]

theorem advanceN_add (j k : Nat) {s t : State} (h : advanceN j s = .next t) :
    advanceN (j + k) s = advanceN k t := by
  induction j generalizing s with
  | zero => simp only [advanceN, Host.Outcome.next.injEq] at h; subst h; simp
  | succ j ih =>
    rw [show j + 1 + k = (j + k) + 1 by omega]
    simp only [advanceN] at h ⊢
    split at h
    · next u hu => exact ih h
    · simp at h
    · simp at h

/-- `k + 1` steps are a step and `k` more (Host/Core.lean). -/
theorem coreRun_next {M : Host.Core} {k : Nat} {s t : M.State} (h : M.step s = .next t) : M.run (k + 1) s = M.run k t := by
  simp only [Host.Core.run, h]

theorem runSteps_next {k : Nat} {s t : State} (h : step s = .next t) : runSteps (k + 1) s = runSteps k t :=
  coreRun_next (M := Sys2Proof.core) h

/-- One micro-operation step (10_state.md R46). -/
theorem advance_op {s : State} {prog : List MicroOp} {upc : Nat} {st : Status} {op : MicroOp}
    (hs : s.seq = .busy prog upc st) (hop : prog[upc]? = some op) (hc : op.check s.cfg = none) :
    advance s = .next ((stepOp s op).withSeq (.busy prog (upc + 1) st)) := by
  rw [advance_next_iff]
  refine ⟨applyOp op (s.withSeq (.busy prog (upc + 1) st)), ?_, rfl⟩
  simp only [controllerStep, hs, busyStep, hop]
  exact perform_ok hc

/-- The completion step (10_state.md R47). -/
theorem advance_complete {s : State} {prog : List MicroOp} {st : Status}
    (hs : s.seq = .busy prog prog.length st) : advance s = .next (observeChain s (settleInit prog (complete st s))) := by
  rw [advance_next_iff]
  refine ⟨settleInit prog (complete st s), ?_, rfl⟩
  simp [controllerStep, hs, busyStep]

/-- The first `k` micro-operations still to be performed are performed by the next `k` steps. -/
theorem advanceN_ops {s : State} {prog : List MicroOp} {upc : Nat} {st : Status} (hs : s.seq = .busy prog upc st)
    (hok : ProgOk s.cfg prog) (k : Nat) (hk : upc + k ≤ prog.length) :
    advanceN k s = .next ((runOps ((prog.drop upc).take k) s).withSeq (.busy prog (upc + k) st)) := by
  induction k generalizing s upc with
  | zero => simp [advanceN, ← hs, State.withSeq]
  | succ k ih =>
    have hlt : upc < prog.length := by omega
    have hop : prog[upc]? = some prog[upc] := List.getElem?_eq_getElem hlt
    have hc := hok _ (List.getElem_mem hlt)
    simp only [advanceN, advance_op hs hop hc]
    rw [ih (s := (stepOp s prog[upc]).withSeq (.busy prog (upc + 1) st)) (upc := upc + 1) rfl hok (by omega),
      List.drop_eq_getElem_cons hlt, List.take_succ_cons, runOps_cons,
      runOps_withSeq, show upc + 1 + k = upc + (k + 1) by omega,
      withSeq_withSeq]

/-- A command in flight runs to its `Done` (10_state.md R46 to R48). -/
theorem finish_busy {s : State} {prog : List MicroOp} {upc : Nat} {st : Status} (hs : s.seq = .busy prog upc st)
    (hok : ProgOk s.cfg prog) (hu : upc ≤ prog.length) :
    finish s = .next (observeChain (runOps (prog.drop upc) s)
      (settleInit prog (complete st (runOps (prog.drop upc) s)))) := by
  have h1 := advanceN_ops hs hok (prog.length - upc) (by omega)
  have hl : (prog.drop upc).take (prog.length - upc) = prog.drop upc := by
    apply List.take_of_length_le; simp
  rw [hl, show upc + (prog.length - upc) = prog.length by omega] at h1
  simp only [finish, hs, Seq.stepsLeft]
  rw [advanceN_add _ 1 h1]
  simp only [advanceN]
  rw [advance_complete rfl]
  rfl

/-- The state after a whole command with a given micro-program and status, from an idle controller. -/
def afterCommand (prog : List MicroOp) (st : Status) (s : State) : State :=
  observeChain (runOps prog (observeChain s s)) (settleInit prog (complete st (runOps prog (observeChain s s))))

theorem toDone_start {s : State} (hs : s.seq = .idle) {prog : List MicroOp} (hok : ProgOk s.cfg prog) (st : Status) :
    toDone s (startCommand prog st s) = .next (afterCommand prog st s) := by
  rw [startCommand_idle hs]
  simp only [toDone]
  rw [finish_busy (s := observeChain s (s.withSeq (.busy prog 0 st))) (prog := prog) (upc := 0) (st := st) rfl hok
    (Nat.zero_le _)]
  simp only [List.drop_zero]
  have : observeChain s (s.withSeq (.busy prog 0 st)) = (observeChain s s).withSeq (.busy prog 0 st) := rfl
  rw [this, runOps_withSeq]
  rfl

end Sys2Proof.Machine
end

