-- ==== Sys2Proof/Laws/Wire.lean ====
section
/-! SUPPORT. Laws of the wire: what a stream of cells does to the lines, to the shadow and to the chain. -/

namespace Sys2Proof.Machine

/-! ### The order of parts and bits -/

theorem slots_succ (n : Nat) : slots (n + 1) = slots n ++ (List.range 8).map fun i => (n, i) := by
  simp [slots, List.range_succ]

@[simp] theorem slots_length (n : Nat) : (slots n).length = 8 * n := by
  induction n with
  | zero => rfl
  | succ n ih => rw [slots_succ, List.length_append, ih, List.length_map, List.length_range]; omega

theorem mem_slots {n p i : Nat} : (p, i) ∈ slots n ↔ p < n ∧ i < 8 := by
  simp [slots]

/-- The slot sent `8p + i`-th is bit `i` of part `p` (30_encoding.md R113). -/
theorem slots_get {n p i : Nat} (hp : p < n) (hi : i < 8) : (slots n)[8 * p + i]? = some (p, i) := by
  induction n with
  | zero => omega
  | succ n ih =>
    rw [slots_succ]
    by_cases h : p < n
    · rw [List.getElem?_append_left (by rw [slots_length]; omega)]
      exact ih h
    · have : p = n := by omega
      subst this
      rw [List.getElem?_append_right (by simp)]
      simp [hi]

theorem wireBit_lt (ord : BitOrder) {i : Nat} (hi : i < 8) : wireBit ord i < 8 := by
  cases ord <;> simp [wireBit] <;> omega

theorem wireBit_wireBit (ord : BitOrder) {i : Nat} (hi : i < 8) : wireBit ord (wireBit ord i) = i := by
  cases ord <;> simp [wireBit]; omega

/-! ### The shadow under a stream of bit writes -/

/-- The bit writes of a list of positions, each with the value `v` gives its position. -/
def writeBits (v : Nat → Nat → Bool) (ps : List (Nat × Nat)) (m : Memory) : Memory :=
  ps.foldl (fun m x => m.writeBit x.1 x.2 (v x.1 x.2)) m

theorem writeBits_wf {n : Nat} (v : Nat → Nat → Bool) (ps : List (Nat × Nat)) (hps : ∀ x ∈ ps, x.1 < n ∧ x.2 < 8)
    {m : Memory} (h : m.wf n = true) : (writeBits v ps m).wf n = true := by
  induction ps generalizing m with
  | nil => exact h
  | cons x ps ih =>
    exact ih (fun y hy => hps y (List.mem_cons_of_mem _ hy))
      (Memory.writeBit_wf h (hps x List.mem_cons_self).1 _ _)

theorem writeBits_bit {n : Nat} (v : Nat → Nat → Bool) (ps : List (Nat × Nat)) (hps : ∀ x ∈ ps, x.1 < n ∧ x.2 < 8)
    {m : Memory} (h : m.wf n = true) (q c : Nat) (hc : c < 8) :
    (writeBits v ps m).bit q c = if (q, c) ∈ ps then v q c else m.bit q c := by
  induction ps generalizing m with
  | nil => simp [writeBits]
  | cons x ps ih =>
    have hx := hps x List.mem_cons_self
    have hw := Memory.writeBit_wf h hx.1 x.2 (v x.1 x.2)
    have := ih (fun y hy => hps y (List.mem_cons_of_mem _ hy)) hw
    simp only [writeBits, List.foldl_cons] at this ⊢
    rw [this, Memory.bit_writeBit h hx.2 _ _ _ hc]
    by_cases hm : (q, c) ∈ ps
    · simp [hm]
    · simp only [hm, if_false, List.mem_cons, or_false]
      by_cases he : q = x.1 ∧ c = x.2
      · obtain ⟨rfl, rfl⟩ := he; simp
      · have : (q, c) ≠ x := fun h' => he ⟨congrArg Prod.fst h', congrArg Prod.snd h'⟩
        simp [he, this]

/-! ### The lines under a stream of cells -/

/-- A line file whose connected lines are all outputs. -/
def LineFile.outputs (d c l : Level) (oe rst : Option Level) : LineFile :=
  ⟨⟨.output, d⟩, ⟨.output, c⟩, ⟨.output, l⟩, oe.map (⟨.output, ·⟩), rst.map (⟨.output, ·⟩)⟩

theorem LineFile.exists_outputs {f : LineFile} (h : f.anyUndriven = false) :
    ∃ d c l oe rst, f = LineFile.outputs d c l oe rst := by
  rw [LineFile.driven_iff] at h
  obtain ⟨⟨dm, d⟩, ⟨cm, c⟩, ⟨lm, l⟩, oe, rst⟩ := f
  obtain rfl : dm = .output := h .data _ rfl
  obtain rfl : cm = .output := h .clock _ rfl
  obtain rfl : lm = .output := h .latch _ rfl
  refine ⟨d, c, l, oe.map LineReg.level, rst.map LineReg.level, ?_⟩
  have ho : oe = (oe.map LineReg.level).map (⟨.output, ·⟩) := by
    cases oe with
    | none => rfl
    | some r => obtain ⟨m, v⟩ := r; obtain rfl : m = .output := h .oe _ rfl; rfl
  have hr : rst = (rst.map LineReg.level).map (⟨.output, ·⟩) := by
    cases rst with
    | none => rfl
    | some r => obtain ⟨m, v⟩ := r; obtain rfl : m = .output := h .rst _ rfl; rfl
  unfold LineFile.outputs
  rw [← ho, ← hr]

@[simp] theorem LineFile.outputs_driven (d c l : Level) (oe rst : Option Level) :
    (LineFile.outputs d c l oe rst).anyUndriven = false := by
  rw [LineFile.driven_iff]
  intro l' r hr
  cases l' <;> simp [LineFile.get, LineFile.outputs] at hr <;> first | (subst hr; rfl) | (obtain ⟨_, _, rfl⟩ := hr; rfl)

/-! ### The chain -/

section
variable (n k : Nat) (f g : LineFile) (ch : Chain)

/-- No abandoned command: the chain follows the lines. -/
@[simp] theorem Chain.afterStep_known : Chain.afterStep n k false false f g ch = Chain.observe n k f g ch := rfl

/-- An abandoned command: any contents, whatever the lines do (70_reset_and_hazards.md R283). -/
@[simp] theorem Chain.afterStep_abandoned (x : Bool) : Chain.afterStep n k x true f g ch = Chain.unknown n k := rfl

/-- The INIT after an abandoned command completes. -/
@[simp] theorem Chain.afterStep_settled :
    Chain.afterStep n k true false f g ch = Chain.observe n k f g (Chain.cleared n) := rfl

end

/-- What one micro-operation does to driven lines and to the chain that sees them. -/
def wireOp (x : LineFile × Chain) (op : MicroOp) : LineFile × Chain :=
  (op.onLines x.1, ⟨Chain.nextSr x.1 (op.onLines x.1) x.2, Chain.nextSt x.1 (op.onLines x.1) x.2⟩)

/-- A micro-operation that configures no line. -/
def MicroOp.noCfg : MicroOp → Bool
  | .cfg _ => false
  | .set _ _ => true
  | .wait _ => true
  | .shb _ _ _ => true
  | .shz => true

theorem MicroOp.onLines_driven {op : MicroOp} (ho : op.noCfg = true) (f : LineFile) :
    (op.onLines f).anyUndriven = f.anyUndriven := by
  cases op <;> simp_all [MicroOp.onLines, MicroOp.noCfg]

/-- On driven lines, with no abandoned command, the chain is a function of the lines alone: no free value is drawn. -/
theorem runOps_wire (prog : List MicroOp) (hp : ∀ op ∈ prog, op.noCfg = true) {s : State}
    (hs : s.lines.anyUndriven = false) (ha : s.abandoned = false) :
    ((runOps prog s).lines, (runOps prog s).chain) = prog.foldl wireOp (s.lines, s.chain) := by
  induction prog generalizing s with
  | nil => rfl
  | cons op prog ih =>
    have ho := MicroOp.onLines_driven (hp op List.mem_cons_self) s.lines
    have h1 : (stepOp s op).lines = op.onLines s.lines := rfl
    have h2 : (stepOp s op).chain = (wireOp (s.lines, s.chain) op).2 := by
      simp [stepOp, Chain.observe, wireOp, ho, hs, ha]
    rw [runOps_cons, ih (s := stepOp s op) (fun o hm => hp o (List.mem_cons_of_mem _ hm)) (by rw [h1, ho, hs]) ha,
      List.foldl_cons, h1, h2]
    rfl

/-- A whole cell: DATA is left at the bit, CLOCK is left LOW, and the bit is shifted in. -/
theorem fastCell_wire (x : Bool) (d l : Level) (oe rst : Option Level) (hr : rst ≠ some .low) (ch : Chain) :
    (fastCell x).foldl wireOp (LineFile.outputs d .low l oe rst, ch)
      = (LineFile.outputs (lvl x) .low l oe rst, ⟨Chain.shiftIn x ch.sr, ch.st⟩) := by
  cases x <;> cases d <;> cases l <;> rcases oe with _ | ⟨_ | _⟩ <;> rcases rst with _ | ⟨_ | _⟩ <;>
    first | rfl | exact absurd rfl hr

theorem shiftIn_length (x : Bool) (sr : List Bool) : (Chain.shiftIn x sr).length = sr.length := by
  simp [Chain.shiftIn]

/-- A stream shifted in stands in the stages in reverse, over what was there. -/
theorem foldl_shiftIn (ds sr : List Bool) :
    ds.foldl (fun sr x => Chain.shiftIn x sr) sr = (ds.reverse ++ sr).take sr.length := by
  induction ds generalizing sr with
  | nil => simp
  | cons x ds ih =>
    rw [List.foldl_cons, ih, shiftIn_length, List.reverse_cons, List.append_assoc]
    simp only [Chain.shiftIn, List.singleton_append, List.take_append]
    congr 1
    rw [List.take_take]
    congr 1
    omega

theorem foldl_shiftIn_full {ds sr : List Bool} (h : ds.length = sr.length) :
    ds.foldl (fun sr x => Chain.shiftIn x sr) sr = ds.reverse := by
  rw [foldl_shiftIn, List.take_append_of_le_length (by simp [h]), List.take_of_length_le (by simp [h])]

/-- DATA after a stream of bits that started from `d`. -/
def lastLevel (d : Level) (ds : List Bool) : Level := ds.foldl (fun _ x => lvl x) d

/-- A list of pieces of a micro-program, each of which acts on the wire as the fast cell of its bit. -/
theorem cells_wire {α : Type} (xs : List α) (cell : α → List MicroOp) (bit : α → Bool)
    (hcell : ∀ x ∈ xs, ∀ d l oe rst ch, rst ≠ some .low →
      (cell x).foldl wireOp (LineFile.outputs d .low l oe rst, ch)
        = (LineFile.outputs (lvl (bit x)) .low l oe rst, ⟨Chain.shiftIn (bit x) ch.sr, ch.st⟩))
    (d l : Level) (oe rst : Option Level) (hr : rst ≠ some .low) (ch : Chain) :
    (xs.flatMap cell).foldl wireOp (LineFile.outputs d .low l oe rst, ch)
      = (LineFile.outputs (lastLevel d (xs.map bit)) .low l oe rst,
          ⟨(xs.map bit).foldl (fun sr x => Chain.shiftIn x sr) ch.sr, ch.st⟩) := by
  induction xs generalizing d ch with
  | nil => rfl
  | cons x xs ih =>
    rw [List.flatMap_cons, List.foldl_append, hcell x List.mem_cons_self _ _ _ _ _ hr,
      ih (fun y hy => hcell y (List.mem_cons_of_mem _ hy))]
    rfl

theorem latch_high_wire (d l : Level) (oe rst : Option Level) (hr : rst ≠ some .low) (ch : Chain) :
    wireOp (LineFile.outputs d .low l oe rst, ch) (.set .latch .high)
      = (LineFile.outputs d .low .high oe rst, ⟨ch.sr, if l = .low then ch.sr else ch.st⟩) := by
  cases d <;> cases l <;> rcases oe with _ | ⟨_ | _⟩ <;> rcases rst with _ | ⟨_ | _⟩ <;>
    first | rfl | exact absurd rfl hr

theorem latch_low_wire (d l : Level) (oe rst : Option Level) (hr : rst ≠ some .low) (ch : Chain) :
    wireOp (LineFile.outputs d .low l oe rst, ch) (.set .latch .low)
      = (LineFile.outputs d .low .low oe rst, ch) := by
  cases d <;> cases l <;> rcases oe with _ | ⟨_ | _⟩ <;> rcases rst with _ | ⟨_ | _⟩ <;>
    first | rfl | exact absurd rfl hr

/-- A latched frame: LATCH is left HIGH, DATA at the last bit, and every stage of the latched image holds its bit of the
stream, the first sent deepest (60_exceptions.md R263). -/
theorem latchedFrame_wire {α : Type} (xs : List α) (cell : α → List MicroOp) (bit : α → Bool)
    (hcell : ∀ x ∈ xs, ∀ d l oe rst ch, rst ≠ some .low →
      (cell x).foldl wireOp (LineFile.outputs d .low l oe rst, ch)
        = (LineFile.outputs (lvl (bit x)) .low l oe rst, ⟨Chain.shiftIn (bit x) ch.sr, ch.st⟩))
    (d l : Level) (oe rst : Option Level) (hr : rst ≠ some .low) (ch : Chain) (hlen : xs.length = ch.sr.length) :
    (latchedFrame (xs.flatMap cell)).foldl wireOp (LineFile.outputs d .low l oe rst, ch)
      = (LineFile.outputs (lastLevel d (xs.map bit)) .low .high oe rst,
          ⟨(xs.map bit).reverse, (xs.map bit).reverse⟩) := by
  unfold latchedFrame
  rw [List.foldl_cons, latch_low_wire _ _ _ _ hr, List.foldl_append, cells_wire xs cell bit hcell _ _ _ _ hr]
  rw [List.foldl_cons, List.foldl_nil, latch_high_wire _ _ _ _ hr, foldl_shiftIn_full (by simp [hlen])]
  rfl

end Sys2Proof.Machine
end

