-- ==== Sys2Proof/Laws/Programs.lean ====
section
/-! SUPPORT. Laws of the micro-programs: each names only what exists, and what each does to the shadow, the lines and the
wire. -/

namespace Sys2Proof.Machine

/-! ### Micro-programs name only what exists -/

theorem ProgOk.append {c : Config} {p q : List MicroOp} (hp : ProgOk c p) (hq : ProgOk c q) : ProgOk c (p ++ q) := by
  intro op h
  rcases List.mem_append.mp h with h | h
  · exact hp op h
  · exact hq op h

theorem ProgOk.flatMap {c : Config} {α : Type} {xs : List α} {cell : α → List MicroOp}
    (h : ∀ x ∈ xs, ProgOk c (cell x)) : ProgOk c (xs.flatMap cell) := by
  intro op hop
  obtain ⟨x, hx, hm⟩ := List.mem_flatMap.mp hop
  exact h x hx op hm

theorem latchedFrame_ok {c : Config} {body : List MicroOp} (h : ProgOk c body) : ProgOk c (latchedFrame body) := by
  intro op hop
  simp only [latchedFrame, List.mem_cons, List.mem_append, List.not_mem_nil, or_false] at hop
  rcases hop with rfl | hop | rfl
  · rfl
  · exact h op hop
  · rfl

theorem fastCell_ok (c : Config) (x : Bool) : ProgOk c (fastCell x) := by
  intro op hop
  simp only [fastCell, clockPulse, List.mem_cons, List.not_mem_nil, or_false] at hop
  rcases hop with rfl | rfl | rfl <;> rfl

theorem writeCell_ok (c : Config) (ord : BitOrder) (wdata : Nat) {p i : Nat} (hp : p < c.n) (hi : i < 8) :
    ProgOk c (writeCell c ord wdata p i) := by
  intro op hop
  simp only [writeCell, settledCell, List.mem_append, List.mem_cons, List.not_mem_nil, or_false] at hop
  rcases hop with (rfl | rfl | rfl | rfl) | rfl
  · rfl
  · rfl
  · rfl
  · rfl
  · simp [MicroOp.check, hp, wireBit_lt ord hi]

theorem pinCell_ok (c : Config) (m : Memory) (pin : Nat) (x : Bool) {p i : Nat} (hp : p < c.n) (hi : i < 8) :
    ProgOk c (pinCell m pin x p i) := by
  unfold pinCell
  split
  · intro op hop
    simp only [clockPulse, List.mem_cons, List.not_mem_nil, or_false] at hop
    rcases hop with rfl | rfl | rfl | rfl
    · rfl
    · simp [MicroOp.check, hp, wireBit_lt _ hi]
    · rfl
    · rfl
  · exact fastCell_ok c _

theorem zeroCells_eq (n : Nat) : zeroCells n = (slots n).flatMap fun _ => fastCell false := by
  unfold zeroCells
  rw [List.flatMap_def, List.map_const', slots_length]

theorem progAllOff_ok (c : Config) (latch : Bool) : ProgOk c (progAllOff c latch) := by
  have hz : ProgOk c (zeroCells c.n) := by
    rw [zeroCells_eq]; exact ProgOk.flatMap fun _ _ => fastCell_ok c false
  unfold progAllOff
  split
  · refine ProgOk.append (latchedFrame_ok hz) ?_
    intro op hop
    rw [List.mem_singleton.mp hop]; rfl
  · exact hz

theorem progInit_ok (c : Config) : ProgOk c (progInit c) := by
  unfold progInit
  refine ProgOk.append (ProgOk.append (ProgOk.append (ProgOk.append ?_ ?_) ?_) (progAllOff_ok c true)) ?_
  · intro op hop
    simp only [initLines, List.mem_cons, List.not_mem_nil, or_false] at hop
    rcases hop with rfl | rfl | rfl | rfl | rfl | rfl <;> rfl
  · intro op hop
    unfold initOe at hop
    split at hop
    · next h =>
      simp only [List.mem_cons, List.not_mem_nil, or_false] at hop
      rcases hop with rfl | rfl <;> simp [MicroOp.check, connected, h]
    · simp at hop
  · intro op hop
    unfold initRst at hop
    split at hop
    · next h =>
      simp only [List.mem_cons, List.not_mem_nil, or_false] at hop
      rcases hop with rfl | rfl | rfl | rfl | rfl | rfl <;> simp [MicroOp.check, connected, h]
    · simp at hop
  · intro op hop
    unfold initEnable at hop
    split at hop
    · next h =>
      simp only [List.mem_cons, List.not_mem_nil, or_false] at hop
      rcases hop with rfl
      simp [MicroOp.check, connected, h]
    · simp at hop

theorem progWrite_ok (c : Config) (wdata : Nat) (ord : BitOrder) : ProgOk c (progWrite c wdata ord) :=
  latchedFrame_ok (ProgOk.flatMap fun _ hx => writeCell_ok c ord wdata (mem_slots.mp hx).1 (mem_slots.mp hx).2)

theorem progPin_ok (c : Config) (m : Memory) (pin : Nat) (x : Bool) : ProgOk c (progPin c m pin x) :=
  latchedFrame_ok (ProgOk.flatMap fun _ hx => pinCell_ok c m pin x (mem_slots.mp hx).1 (mem_slots.mp hx).2)

/-- No micro-program names an unconnected line or a shadow bit that does not exist (10_state.md R31, R43). -/
theorem programOf_ok (c : Config) (m : Memory) (i : Instr) : ProgOk c (programOf c m i) := by
  cases i with
  | init => exact progInit_ok c
  | write ord wdata => exact progWrite_ok c wdata ord
  | writePin pin x =>
    simp only [programOf]
    split
    · exact progPin_ok c m _ x
    · intro op h; simp at h
  | allOff latch => exact progAllOff_ok c latch
  | state => intro op h; simp [programOf, progState] at h

theorem commandProgram_ok (c : Config) (m : Memory) (cmd : Command) : ProgOk c (commandProgram c m cmd) := by
  unfold commandProgram
  split
  · exact programOf_ok c m _
  · intro op h; simp at h

/-- A command that reports a failure has an empty micro-program (60_exceptions.md R231). -/
theorem programOf_status (c : Config) (m : Memory) (i : Instr) (h : statusOf c i ≠ .ok) : programOf c m i = [] := by
  cases i <;> simp_all [statusOf, programOf]

theorem commandProgram_status (c : Config) (m : Memory) (cmd : Command) (h : commandStatus c cmd ≠ .ok) :
    commandProgram c m cmd = [] := by
  unfold commandProgram commandStatus at *
  split
  · next i hi => exact programOf_status c m i (by simpa [hi] using h)
  · rfl

/-- A whole instruction from an idle controller, in one form (10_state.md R52). -/
theorem runInstr_idle {s : State} (hs : s.seq = .idle) (i : Instr) :
    runInstr i s = .next (afterCommand (programOf s.cfg s.shadow i) (statusOf s.cfg i) s) := by
  unfold runInstr
  rw [exec_eq, toDone_start hs (programOf_ok _ _ _)]

/-- A whole command from an idle controller, in one form (10_state.md R52). -/
theorem runCommand_idle {s : State} (hs : s.seq = .idle) (c : Command) :
    runCommand c s = .next (afterCommand (commandProgram s.cfg s.shadow c) (commandStatus s.cfg c) s) := by
  unfold runCommand
  rw [acceptCommand_eq, toDone_start hs (commandProgram_ok _ _ _)]

/-! ### What is left after a command -/

section
variable (prog : List MicroOp) (st : Status) (s : State)

@[simp] theorem afterCommand_seq : (afterCommand prog st s).seq = .idle := rfl

@[simp] theorem afterCommand_cfg : (afterCommand prog st s).cfg = s.cfg := by simp [afterCommand]

@[simp] theorem afterCommand_cmdPort : (afterCommand prog st s).cmdPort = s.cmdPort := by simp [afterCommand]

@[simp] theorem afterCommand_resetIn : (afterCommand prog st s).resetIn = s.resetIn := by simp [afterCommand]

@[simp] theorem afterCommand_resetMarks : (afterCommand prog st s).resetMarks = s.resetMarks := by simp [afterCommand]

@[simp] theorem afterCommand_shadow :
    (afterCommand prog st s).shadow = prog.foldl (fun m op => op.onShadow m) s.shadow := by simp [afterCommand]

@[simp] theorem afterCommand_lines :
    (afterCommand prog st s).lines = prog.foldl (fun f op => op.onLines f) s.lines := by simp [afterCommand]

theorem afterCommand_rdata : (afterCommand prog st s).rdata = (runOps prog (observeChain s s)).rdata := by
  simp [State.rdata, afterCommand]

theorem afterCommand_trace :
    (afterCommand prog st s).trace = s.trace ++ progEvents prog ++ [.done st (afterCommand prog st s).rdata] := by
  rw [afterCommand_rdata]; simp [afterCommand]

@[simp] theorem afterCommand_freeTick : (afterCommand prog st s).freeTick = s.freeTick + prog.length + 2 := by
  simp [afterCommand]; omega

/-- Only INIT ends the time in which an abandoned command leaves the chain unknown (70_reset_and_hazards.md R283). -/
@[simp] theorem afterCommand_abandoned :
    (afterCommand prog st s).abandoned = (s.abandoned && prog != progInit s.cfg) := by simp [afterCommand]

end

/-- With every connected line an output, a step that leaves the lines alone leaves the chain alone, but for a clear. -/
theorem observe_same {n k : Nat} {f : LineFile} (hf : f.anyUndriven = false) (hr : clearActive f = false) (ch : Chain) :
    Chain.observe n k f f ch = ch := by
  have h : ∀ l, risingEdge f f l = false := by
    intro l
    unfold risingEdge
    cases f.pin l with
    | none => rfl
    | some p => rcases p with ⟨_ | _⟩ | _ <;> rfl
  simp [Chain.observe, hf, Chain.nextSr, Chain.nextSt, hr, h]

/-- The chain after a command that configures no line, on driven lines with RST not LOW and no abandoned command. -/
theorem afterCommand_chain {prog : List MicroOp} (st : Status) {s : State} (hp : ∀ op ∈ prog, op.noCfg = true)
    (hs : s.lines.anyUndriven = false) (ha : s.abandoned = false) (hr : clearActive s.lines = false)
    (hr' : clearActive (prog.foldl (fun f op => op.onLines f) s.lines) = false) :
    ((afterCommand prog st s).lines, (afterCommand prog st s).chain) = prog.foldl wireOp (s.lines, s.chain) := by
  have h0 : (observeChain s s).chain = s.chain := by simp [ha, observe_same hs hr]
  have h1 := runOps_wire prog hp (s := observeChain s s) (by simpa using hs) ha
  rw [observeChain_lines, h0] at h1
  rw [← h1]
  have hl : (runOps prog (observeChain s s)).lines = prog.foldl (fun f op => op.onLines f) s.lines := by simp
  have hd : (runOps prog (observeChain s s)).lines.anyUndriven = false := by
    rw [hl]
    clear h0 h1 hr hr' hl
    induction prog generalizing s with
    | nil => exact hs
    | cons op prog ih =>
      rw [List.foldl_cons]
      exact ih (s := stepOp s op) (fun o ho => hp o (List.mem_cons_of_mem _ ho))
        (by rw [show (stepOp s op).lines = op.onLines s.lines from rfl,
              MicroOp.onLines_driven (hp op List.mem_cons_self), hs]) ha
  refine Prod.ext rfl ?_
  have hk := observe_same (n := s.cfg.n) (k := (runOps prog (observeChain s s)).freeTick) hd (by rw [hl]; exact hr')
    (runOps prog (observeChain s s)).chain
  simpa [afterCommand, ha] using hk

/-! ### The wire of each cell -/

theorem shb_wire (p b : Nat) (x : Bool) (d l : Level) (oe rst : Option Level) (hr : rst ≠ some .low) (ch : Chain) :
    wireOp (LineFile.outputs d .low l oe rst, ch) (.shb p b x) = (LineFile.outputs d .low l oe rst, ch) := by
  cases d <;> cases l <;> rcases oe with _ | ⟨_ | _⟩ <;> rcases rst with _ | ⟨_ | _⟩ <;>
    first | rfl | exact absurd rfl hr

theorem shz_wire (d l : Level) (oe rst : Option Level) (hr : rst ≠ some .low) (ch : Chain) :
    wireOp (LineFile.outputs d .low l oe rst, ch) .shz = (LineFile.outputs d .low l oe rst, ch) := by
  cases d <;> cases l <;> rcases oe with _ | ⟨_ | _⟩ <;> rcases rst with _ | ⟨_ | _⟩ <;>
    first | rfl | exact absurd rfl hr

theorem settledCell_wire (t : Nat) (x : Bool) (d l : Level) (oe rst : Option Level) (hr : rst ≠ some .low) (ch : Chain) :
    (settledCell t x).foldl wireOp (LineFile.outputs d .low l oe rst, ch)
      = (LineFile.outputs (lvl x) .low l oe rst, ⟨Chain.shiftIn x ch.sr, ch.st⟩) := by
  cases x <;> cases d <;> cases l <;> rcases oe with _ | ⟨_ | _⟩ <;> rcases rst with _ | ⟨_ | _⟩ <;>
    first | rfl | exact absurd rfl hr

theorem writeCell_wire (c : Config) (ord : BitOrder) (wdata p i : Nat) (d l : Level) (oe rst : Option Level) (ch : Chain)
    (hr : rst ≠ some .low) :
    (writeCell c ord wdata p i).foldl wireOp (LineFile.outputs d .low l oe rst, ch)
      = (LineFile.outputs (lvl (wdataBit wdata p (wireBit ord i))) .low l oe rst,
          ⟨Chain.shiftIn (wdataBit wdata p (wireBit ord i)) ch.sr, ch.st⟩) := by
  rw [writeCell, List.foldl_append, settledCell_wire _ _ _ _ _ _ hr, List.foldl_cons, List.foldl_nil,
    shb_wire _ _ _ _ _ _ _ hr]

/-- The bit that WRITE_PIN sends in a cell: the new value at the target, the shadow's own bit elsewhere. -/
def pinBitSent (m : Memory) (pin : Nat) (turnOn : Bool) (p i : Nat) : Bool :=
  if p = pinPart pin ∧ wireBit .msbFirst i = pinBit pin then turnOn else m.bit p (wireBit .msbFirst i)

theorem targetCell_wire (p b : Nat) (x : Bool) (d l : Level) (oe rst : Option Level) (hr : rst ≠ some .low)
    (ch : Chain) :
    (MicroOp.set .data (lvl x) :: .shb p b x :: clockPulse).foldl wireOp (LineFile.outputs d .low l oe rst, ch)
      = (LineFile.outputs (lvl x) .low l oe rst, ⟨Chain.shiftIn x ch.sr, ch.st⟩) := by
  cases x <;> cases d <;> cases l <;> rcases oe with _ | ⟨_ | _⟩ <;> rcases rst with _ | ⟨_ | _⟩ <;>
    first | rfl | exact absurd rfl hr

theorem pinCell_wire (m : Memory) (pin : Nat) (turnOn : Bool) (p i : Nat) (d l : Level) (oe rst : Option Level)
    (ch : Chain) (hr : rst ≠ some .low) :
    (pinCell m pin turnOn p i).foldl wireOp (LineFile.outputs d .low l oe rst, ch)
      = (LineFile.outputs (lvl (pinBitSent m pin turnOn p i)) .low l oe rst,
          ⟨Chain.shiftIn (pinBitSent m pin turnOn p i) ch.sr, ch.st⟩) := by
  unfold pinCell pinBitSent
  split
  · exact targetCell_wire _ _ _ _ _ _ _ hr _
  · exact fastCell_wire _ _ _ _ _ hr _

/-! ### The shadow under each micro-program -/

theorem settledCell_shadow (t : Nat) (x : Bool) (m : Memory) :
    (settledCell t x).foldl (fun m op => MicroOp.onShadow op m) m = m := rfl

theorem fastCell_shadow (x : Bool) (m : Memory) :
    (fastCell x).foldl (fun m op => MicroOp.onShadow op m) m = m := rfl

/-- A latched frame does to the shadow what its body does. -/
theorem latchedFrame_shadow (body : List MicroOp) (m : Memory) :
    (latchedFrame body).foldl (fun m op => MicroOp.onShadow op m) m
      = body.foldl (fun m op => MicroOp.onShadow op m) m := by
  simp [latchedFrame, MicroOp.onShadow]

/-- WRITE writes every bit of the shadow, in the order of the frame (41_write.md R161). -/
theorem progWrite_shadow (c : Config) (wdata : Nat) (ord : BitOrder) (m : Memory) :
    (progWrite c wdata ord).foldl (fun m op => MicroOp.onShadow op m) m
      = writeBits (wdataBit wdata) ((slots c.n).map fun x => (x.1, wireBit ord x.2)) m := by
  unfold progWrite
  rw [latchedFrame_shadow]
  generalize slots c.n = xs
  induction xs generalizing m with
  | nil => rfl
  | cons x xs ih =>
    rw [List.flatMap_cons, List.foldl_append, ih]
    rfl

theorem mem_wireSlots {n : Nat} (ord : BitOrder) {p b : Nat} :
    (p, b) ∈ (slots n).map (fun x => (x.1, wireBit ord x.2)) ↔ p < n ∧ b < 8 := by
  simp only [List.mem_map, Prod.mk.injEq, Prod.exists, mem_slots]
  constructor
  · rintro ⟨q, i, ⟨hq, hi⟩, rfl, rfl⟩
    exact ⟨hq, wireBit_lt ord hi⟩
  · rintro ⟨hp, hb⟩
    exact ⟨p, wireBit ord b, ⟨hp, wireBit_lt ord hb⟩, rfl, wireBit_wireBit ord hb⟩

/-- A frame whose only shadow write is the target bit's, in whatever cells. -/
theorem pinCells_shadow {n : Nat} (m0 : Memory) (pin : Nat) (x : Bool) (xs : List (Nat × Nat))
    {m : Memory} (h : m.wf n = true) (hxs : ∀ y ∈ xs, y.1 < n ∧ y.2 < 8) (q b : Nat) (hb : b < 8) :
    Memory.wf n ((xs.flatMap fun y => pinCell m0 pin x y.1 y.2).foldl (fun m op => MicroOp.onShadow op m) m) = true ∧
    Memory.bit ((xs.flatMap fun y => pinCell m0 pin x y.1 y.2).foldl (fun m op => MicroOp.onShadow op m) m) q b
      = if (q = pinPart pin ∧ b = pinBit pin) ∧ (q, wireBit .msbFirst b) ∈ xs then x else m.bit q b := by
  induction xs generalizing m with
  | nil => exact ⟨h, by simp⟩
  | cons y xs ih =>
    rw [List.flatMap_cons, List.foldl_append]
    have hy := hxs y List.mem_cons_self
    have hrest := fun z hz => hxs z (List.mem_cons_of_mem y hz)
    by_cases ht : y.1 = pinPart pin ∧ wireBit .msbFirst y.2 = pinBit pin
    · have hcell : (pinCell m0 pin x y.1 y.2).foldl (fun m op => MicroOp.onShadow op m) m
          = m.writeBit y.1 (wireBit .msbFirst y.2) x := by
        simp [pinCell, ht, MicroOp.onShadow, clockPulse]
      rw [hcell]
      have hw := Memory.writeBit_wf h hy.1 (wireBit .msbFirst y.2) x
      obtain ⟨h1, h2⟩ := ih hw hrest
      refine ⟨h1, ?_⟩
      rw [h2, Memory.bit_writeBit h (wireBit_lt _ hy.2) _ _ _ hb]
      by_cases hq : q = pinPart pin ∧ b = pinBit pin
      · have hmem : (q, wireBit .msbFirst b) ∈ y :: xs := by
          rw [List.mem_cons]; left
          refine Prod.ext (by rw [hq.1, ht.1]) ?_
          show wireBit .msbFirst b = y.2
          rw [hq.2, ← ht.2, wireBit_wireBit _ hy.2]
        have hin : (q = pinPart pin ∧ b = pinBit pin) ∧ (q, wireBit .msbFirst b) ∈ y :: xs := ⟨hq, hmem⟩
        have hhere : q = y.1 ∧ b = wireBit .msbFirst y.2 := ⟨by rw [hq.1, ht.1], by rw [hq.2, ht.2]⟩
        rw [if_pos hin, if_pos hhere, ite_self]
      · have hne : ¬(q = y.1 ∧ b = wireBit .msbFirst y.2) := by
          rw [ht.1, ht.2]; exact hq
        simp [hq, hne]
    · have hcell : (pinCell m0 pin x y.1 y.2).foldl (fun m op => MicroOp.onShadow op m) m = m := by
        simp only [pinCell, ht, if_false]; exact fastCell_shadow _ _
      rw [hcell]
      obtain ⟨h1, h2⟩ := ih h hrest
      refine ⟨h1, ?_⟩
      rw [h2]
      by_cases hq : q = pinPart pin ∧ b = pinBit pin
      · have : (q, wireBit .msbFirst b) ∈ y :: xs ↔ (q, wireBit .msbFirst b) ∈ xs := by
          rw [List.mem_cons, or_iff_right]
          intro he
          apply ht
          have e1 : q = y.1 := congrArg Prod.fst he
          have e2 : wireBit .msbFirst b = y.2 := congrArg Prod.snd he
          exact ⟨by rw [← e1, hq.1], by rw [← e2, wireBit_wireBit _ hb, hq.2]⟩
        simp [this]
      · simp [hq]

/-- WRITE_PIN in range changes one bit of the shadow (42_write_pin.md R181). -/
theorem progPin_shadow {c : Config} {m : Memory} (h : m.wf c.n = true) {pin : Nat} (hp : pin < c.pins) (x : Bool) :
    (progPin c m pin x).foldl (fun m op => MicroOp.onShadow op m) m = m.writeBit (pinPart pin) (pinBit pin) x := by
  have hpart : pinPart pin < c.n := by unfold pinPart Config.pins at *; omega
  have hbit : pinBit pin < 8 := by unfold pinBit; omega
  unfold progPin
  rw [latchedFrame_shadow]
  have key := fun q b hb => pinCells_shadow m pin x (slots c.n) h (fun y hy => mem_slots.mp hy) q b hb
  apply Memory.ext_bits (key 0 0 (by omega)).1 (Memory.writeBit_wf h hpart _ _)
  intro q hq b hb
  rw [(key q b hb).2, Memory.bit_writeBit h hbit _ _ _ hb]
  simp [mem_slots, hq, wireBit_lt, hb]

theorem zeroCells_shadow (n : Nat) (m : Memory) :
    (zeroCells n).foldl (fun m op => MicroOp.onShadow op m) m = m := by
  rw [zeroCells_eq]
  generalize slots n = xs
  induction xs generalizing m with
  | nil => rfl
  | cons x xs ih => rw [List.flatMap_cons, List.foldl_append, fastCell_shadow, ih]

theorem progAllOff_shadow (c : Config) (latch : Bool) (m : Memory) :
    (progAllOff c latch).foldl (fun m op => MicroOp.onShadow op m) m = if latch then [] else m := by
  cases latch
  · exact zeroCells_shadow c.n m
  · simp [progAllOff, MicroOp.onShadow]

end Sys2Proof.Machine
end

