-- ==== Sys2Proof/Laws/Frames.lean ====
section
/-! SUPPORT. Laws of the frames: the line registers after each micro-program on any lines, and the events each emits. -/

namespace Sys2Proof.Machine

/-- The lines after a stream of cells: DATA at the last bit, CLOCK LOW, all else as it was. -/
def afterBits (ds : List Bool) (f : LineFile) : LineFile :=
  match ds.getLast? with
  | none => f
  | some d => (f.drive .data (lvl d)).drive .clock .low

theorem afterBits_cons (d : Bool) (ds : List Bool) (f : LineFile) :
    afterBits (d :: ds) f = afterBits ds ((f.drive .data (lvl d)).drive .clock .low) := by
  cases ds with
  | nil => rfl
  | cons e es =>
    have h : (d :: e :: es).getLast? = (e :: es).getLast? := by simp
    unfold afterBits
    rw [h]
    cases hl : (e :: es).getLast? with
    | none => simp at hl
    | some x => rfl

/-- A list of pieces of a micro-program, each of which leaves the lines as a cell of its bit does. -/
theorem cells_lines {α : Type} (xs : List α) (cell : α → List MicroOp) (bit : α → Bool)
    (hcell : ∀ x ∈ xs, ∀ f, (cell x).foldl (fun f op => MicroOp.onLines op f) f
      = (f.drive .data (lvl (bit x))).drive .clock .low) (f : LineFile) :
    (xs.flatMap cell).foldl (fun f op => MicroOp.onLines op f) f = afterBits (xs.map bit) f := by
  induction xs generalizing f with
  | nil => rfl
  | cons x xs ih =>
    rw [List.flatMap_cons, List.foldl_append, hcell x List.mem_cons_self,
      ih (fun y hy => hcell y (List.mem_cons_of_mem _ hy)), List.map_cons, afterBits_cons]

theorem fastCell_lines (x : Bool) (f : LineFile) :
    (fastCell x).foldl (fun f op => MicroOp.onLines op f) f = (f.drive .data (lvl x)).drive .clock .low := rfl

theorem writeCell_lines (c : Config) (ord : BitOrder) (wdata p i : Nat) (f : LineFile) :
    (writeCell c ord wdata p i).foldl (fun f op => MicroOp.onLines op f) f
      = (f.drive .data (lvl (wdataBit wdata p (wireBit ord i)))).drive .clock .low := rfl

theorem pinCell_lines (m : Memory) (pin : Nat) (x : Bool) (p i : Nat) (f : LineFile) :
    (pinCell m pin x p i).foldl (fun f op => MicroOp.onLines op f) f
      = (f.drive .data (lvl (pinBitSent m pin x p i))).drive .clock .low := by
  unfold pinCell pinBitSent
  split <;> rfl

theorem latchedFrame_lines (body : List MicroOp) (f : LineFile) :
    (latchedFrame body).foldl (fun f op => MicroOp.onLines op f) f
      = (body.foldl (fun f op => MicroOp.onLines op f) (f.drive .latch .low)).drive .latch .high := by
  simp [latchedFrame, MicroOp.onLines]

/-- The bits WRITE_PIN sends, as they are sent. -/
def pinStream (n : Nat) (m : Memory) (pin : Nat) (x : Bool) : List Bool :=
  (slots n).map fun y => pinBitSent m pin x y.1 y.2

/-- WRITE_PIN sends the MSB-first stream of the shadow with its target bit replaced (30_encoding.md R114). -/
theorem pinStream_eq {n : Nat} {m : Memory} (h : m.wf n = true) (pin : Nat) (x : Bool) :
    pinStream n m pin x = shadowStream n (m.writeBit (pinPart pin) (pinBit pin) x) := by
  have hb : pinBit pin < 8 := by unfold pinBit; omega
  apply List.map_congr_left
  rintro ⟨p, i⟩ hy
  have hi := (mem_slots.mp hy).2
  simp only [pinBitSent]
  rw [Memory.bit_writeBit h hb _ _ _ (wireBit_lt _ hi)]

theorem progWrite_lines (c : Config) (wdata : Nat) (ord : BitOrder) (f : LineFile) :
    (progWrite c wdata ord).foldl (fun f op => MicroOp.onLines op f) f
      = (afterBits (writeStream c.n ord wdata) (f.drive .latch .low)).drive .latch .high := by
  unfold progWrite
  rw [latchedFrame_lines, cells_lines _ _ _ (fun x _ f => writeCell_lines c ord wdata x.1 x.2 f)]
  rfl

theorem progPin_lines (c : Config) (m : Memory) (pin : Nat) (x : Bool) (f : LineFile) :
    (progPin c m pin x).foldl (fun f op => MicroOp.onLines op f) f
      = (afterBits (pinStream c.n m pin x) (f.drive .latch .low)).drive .latch .high := by
  unfold progPin
  rw [latchedFrame_lines, cells_lines _ _ _ (fun y _ f => pinCell_lines m pin x y.1 y.2 f)]
  rfl

theorem zeroStream_eq (n : Nat) : (slots n).map (fun _ => false) = zeroStream n := by
  rw [List.map_const', slots_length, zeroStream]

theorem zeroCells_lines (n : Nat) (f : LineFile) :
    (zeroCells n).foldl (fun f op => MicroOp.onLines op f) f = afterBits (zeroStream n) f := by
  rw [zeroCells_eq, cells_lines _ _ _ (fun _ _ f => fastCell_lines false f), zeroStream_eq]

theorem progAllOff_lines (c : Config) (latch : Bool) (f : LineFile) :
    (progAllOff c latch).foldl (fun f op => MicroOp.onLines op f) f
      = if latch then (afterBits (zeroStream c.n) (f.drive .latch .low)).drive .latch .high
        else afterBits (zeroStream c.n) f := by
  cases latch
  · exact zeroCells_lines c.n f
  · simp only [progAllOff, if_true, List.foldl_append, latchedFrame_lines, zeroCells_lines]
    rfl

theorem afterBits_get (ds : List Bool) (hd : ds ≠ []) (f : LineFile) (l : Line) :
    (afterBits ds f).get l =
      if l = .clock then (f.get l).map (fun r => ⟨r.mode, .low⟩)
      else if l = .data then (f.get l).map (fun r => ⟨r.mode, lvl (ds.getLast hd)⟩)
      else f.get l := by
  unfold afterBits
  rw [List.getLast?_eq_some_getLast hd]
  simp only [LineFile.get_drive]
  cases l <;> simp

/-! ### Events -/

@[simp] theorem progEvents_nil : progEvents [] = [] := rfl

theorem progEvents_append (p q : List MicroOp) : progEvents (p ++ q) = progEvents p ++ progEvents q := by
  simp [progEvents]

theorem progEvents_flatMap {α : Type} (xs : List α) (cell : α → List MicroOp) :
    progEvents (xs.flatMap cell) = xs.flatMap fun x => progEvents (cell x) := by
  simp [progEvents, List.filterMap_flatMap]

theorem progEvents_latchedFrame (body : List MicroOp) :
    progEvents (latchedFrame body) = latchedEvents (progEvents body) := by
  simp [progEvents, latchedFrame, latchedEvents, MicroOp.event]

theorem progEvents_fastCell (x : Bool) : progEvents (fastCell x) = fastEvents x := rfl

theorem progEvents_writeCell (c : Config) (ord : BitOrder) (wdata p i : Nat) :
    progEvents (writeCell c ord wdata p i) = settledEvents c.tSettle (wdataBit wdata p (wireBit ord i)) := rfl

theorem progEvents_pinCell (m : Memory) (pin : Nat) (x : Bool) (p i : Nat) :
    progEvents (pinCell m pin x p i) = fastEvents (pinBitSent m pin x p i) := by
  unfold pinCell pinBitSent
  split <;> rfl

theorem progWrite_events (c : Config) (wdata : Nat) (ord : BitOrder) :
    progEvents (progWrite c wdata ord)
      = latchedEvents ((writeStream c.n ord wdata).flatMap (settledEvents c.tSettle)) := by
  unfold progWrite
  rw [progEvents_latchedFrame, progEvents_flatMap, writeStream, List.flatMap_map]
  rfl

/-- A micro-operation emits at most one event (10_state.md R46, 92_eei_decisions.md D11). -/
theorem progEvents_length_le (prog : List MicroOp) : (progEvents prog).length ≤ prog.length := by
  simpa [progEvents] using List.length_filterMap_le MicroOp.event prog

/-- WRITE emits `2 + 32*N` line and wait events (41_write.md R162). -/
theorem progWrite_events_length (c : Config) (wdata : Nat) (ord : BitOrder) :
    (progEvents (progWrite c wdata ord)).length = 2 + 32 * c.n := by
  have hcell : ∀ x, (settledEvents c.tSettle x).length = 4 := fun _ => rfl
  simp only [progWrite_events, latchedEvents, List.length_cons, List.length_append, List.length_nil, List.length_flatMap, hcell,
    List.map_const', List.sum_replicate, writeStream, List.length_map, slots_length]
  simp
  omega

/-- No micro-program that emits WRITE's trace stays within the `18 + 24*N` micro-operations, or at `N = 8192` the 18 bits, that
10_state.md R44 reads off INIT: WRITE's events alone are more (log entry 11). -/
theorem write_trace_exceeds_init_bound {c : Config} {wdata : Nat} {ord : BitOrder} {prog : List MicroOp}
    (h : progEvents prog = progEvents (progWrite c wdata ord)) :
    (3 ≤ c.n → 18 + 24 * c.n < prog.length) ∧ (c.n = 8192 → 2 ^ 18 < prog.length) := by
  have hl := progEvents_length_le prog
  rw [h, progWrite_events_length] at hl
  constructor <;> intro hn <;> omega

theorem progPin_events (c : Config) (m : Memory) (pin : Nat) (x : Bool) :
    progEvents (progPin c m pin x) = latchedEvents ((pinStream c.n m pin x).flatMap fastEvents) := by
  unfold progPin
  rw [progEvents_latchedFrame, progEvents_flatMap, pinStream, List.flatMap_map]
  congr 2
  funext y
  exact progEvents_pinCell m pin x y.1 y.2

theorem zeroCells_events (n : Nat) :
    progEvents (zeroCells n) = (List.replicate (8 * n) (fastEvents false)).flatten := by
  unfold zeroCells progEvents
  rw [List.filterMap_flatten]
  simp only [List.map_replicate]
  rfl

theorem progAllOff_events (c : Config) (latch : Bool) :
    progEvents (progAllOff c latch)
      = if latch then latchedEvents ((List.replicate (8 * c.n) (fastEvents false)).flatten)
        else (List.replicate (8 * c.n) (fastEvents false)).flatten := by
  cases latch
  · exact zeroCells_events c.n
  · simp only [progAllOff, if_true, progEvents_append, progEvents_latchedFrame, zeroCells_events]
    simp [progEvents, MicroOp.event]

/-! ### The wire of each frame -/

theorem progWrite_wire (c : Config) (wdata : Nat) (ord : BitOrder) (d l : Level) (oe rst : Option Level)
    (hr : rst ≠ some .low) (ch : Chain) (hlen : ch.sr.length = 8 * c.n) :
    (progWrite c wdata ord).foldl wireOp (LineFile.outputs d .low l oe rst, ch)
      = (LineFile.outputs (lastLevel d (writeStream c.n ord wdata)) .low .high oe rst,
          ⟨(writeStream c.n ord wdata).reverse, (writeStream c.n ord wdata).reverse⟩) :=
  latchedFrame_wire (slots c.n) _ (fun x => wdataBit wdata x.1 (wireBit ord x.2))
    (fun x _ d l oe rst ch hr => writeCell_wire c ord wdata x.1 x.2 d l oe rst ch hr) d l oe rst hr ch (by simp [hlen])

theorem progPin_wire (c : Config) (m : Memory) (pin : Nat) (x : Bool) (d l : Level) (oe rst : Option Level)
    (hr : rst ≠ some .low) (ch : Chain) (hlen : ch.sr.length = 8 * c.n) :
    (progPin c m pin x).foldl wireOp (LineFile.outputs d .low l oe rst, ch)
      = (LineFile.outputs (lastLevel d (pinStream c.n m pin x)) .low .high oe rst,
          ⟨(pinStream c.n m pin x).reverse, (pinStream c.n m pin x).reverse⟩) :=
  latchedFrame_wire (slots c.n) _ (fun y => pinBitSent m pin x y.1 y.2)
    (fun y _ d l oe rst ch hr => pinCell_wire m pin x y.1 y.2 d l oe rst ch hr) d l oe rst hr ch (by simp [hlen])

theorem zeroCells_wire (n : Nat) (d l : Level) (oe rst : Option Level) (hr : rst ≠ some .low) (ch : Chain)
    (hlen : ch.sr.length = 8 * n) :
    (zeroCells n).foldl wireOp (LineFile.outputs d .low l oe rst, ch)
      = (LineFile.outputs (lastLevel d (zeroStream n)) .low l oe rst, ⟨(zeroStream n).reverse, ch.st⟩) := by
  rw [zeroCells_eq, cells_wire (slots n) (fun _ => fastCell false) (fun _ => false)
    (fun _ _ d l oe rst ch hr => fastCell_wire false d l oe rst hr ch) d l oe rst hr ch,
    foldl_shiftIn_full (by simp [hlen]), zeroStream_eq]

theorem progAllOff_wire (c : Config) (d l : Level) (oe rst : Option Level) (hr : rst ≠ some .low) (ch : Chain)
    (hlen : ch.sr.length = 8 * c.n) :
    (progAllOff c true).foldl wireOp (LineFile.outputs d .low l oe rst, ch)
      = (LineFile.outputs (lastLevel d (zeroStream c.n)) .low .high oe rst,
          ⟨(zeroStream c.n).reverse, (zeroStream c.n).reverse⟩) := by
  unfold progAllOff
  rw [if_pos rfl, List.foldl_append, zeroCells_eq,
    latchedFrame_wire (slots c.n) (fun _ => fastCell false) (fun _ => false)
      (fun _ _ d l oe rst ch hr => fastCell_wire false d l oe rst hr ch) d l oe rst hr ch (by simp [hlen]),
    zeroStream_eq, List.foldl_cons, List.foldl_nil, shz_wire _ _ _ _ hr]

end Sys2Proof.Machine
end

