-- ==== Sys2Proof/Laws/Invariant.lean ====
section
/-! SUPPORT. Laws of the invariant: its parts, and that a whole micro-program keeps it. -/

namespace Sys2Proof.Machine

/-- The parts of the invariant. -/
theorem State.inv_iff (s : State) : s.Inv ↔
    s.cfg.valid = true ∧ s.shadow.wf s.cfg.n = true ∧ linesMatch s.cfg s.lines = true ∧ seqWf s.cfg s.seq = true ∧
      s.chain.sr.length = 8 * s.cfg.n ∧ s.chain.st.length = 8 * s.cfg.n ∧
      s.cmdPort.all (Command.wellFormed s.cfg.n) = true := by
  simp [State.Inv, State.inv, and_assoc]

theorem State.Inv.one_le_n {s : State} (h : s.Inv) : 1 ≤ s.cfg.n := by
  have := ((State.inv_iff s).mp h).1
  simp only [Config.valid, decide_eq_true_eq] at this
  exact this.1

/-- The chain keeps its stages, whatever the lines do. -/
theorem Chain.observe_length {n : Nat} (k : Nat) (f g : LineFile) {ch : Chain} (h1 : ch.sr.length = 8 * n)
    (h2 : ch.st.length = 8 * n) :
    (Chain.observe n k f g ch).sr.length = 8 * n ∧ (Chain.observe n k f g ch).st.length = 8 * n := by
  unfold Chain.observe
  split
  · simp [Chain.unknown]
  · constructor
    · simp only [Chain.nextSr]
      split
      · simp [h1]
      · split <;> simp [shiftIn_length, h1]
    · simp only [Chain.nextSt]
      split
      · exact h1
      · exact h2

@[simp] theorem Chain.unknown_length (n k : Nat) :
    (Chain.unknown n k).sr.length = 8 * n ∧ (Chain.unknown n k).st.length = 8 * n := by simp [Chain.unknown]

@[simp] theorem Chain.cleared_length (n : Nat) :
    (Chain.cleared n).sr.length = 8 * n ∧ (Chain.cleared n).st.length = 8 * n := by simp [Chain.cleared]

theorem Chain.afterStep_length {n : Nat} (k : Nat) (x y : Bool) (f g : LineFile) {ch : Chain} (h1 : ch.sr.length = 8 * n)
    (h2 : ch.st.length = 8 * n) :
    (Chain.afterStep n k x y f g ch).sr.length = 8 * n ∧ (Chain.afterStep n k x y f g ch).st.length = 8 * n := by
  cases y
  · cases x
    · exact Chain.observe_length k f g h1 h2
    · exact Chain.observe_length k f g (Chain.cleared_length n).1 (Chain.cleared_length n).2
  · exact Chain.unknown_length n k

theorem runOps_chain_length (prog : List MicroOp) {s : State} (h1 : s.chain.sr.length = 8 * s.cfg.n)
    (h2 : s.chain.st.length = 8 * s.cfg.n) :
    (runOps prog s).chain.sr.length = 8 * s.cfg.n ∧ (runOps prog s).chain.st.length = 8 * s.cfg.n := by
  induction prog generalizing s with
  | nil => exact ⟨h1, h2⟩
  | cons op prog ih =>
    have h := Chain.afterStep_length s.freeTick s.abandoned s.abandoned s.lines (op.onLines s.lines) h1 h2
    exact ih (s := stepOp s op) h.1 h.2

/-- A micro-program keeps the canonical form of the shadow. -/
theorem ProgOk.shadow_wf {c : Config} {prog : List MicroOp} (hok : ProgOk c prog) {m : Memory} (h : m.wf c.n = true) :
    Memory.wf c.n (prog.foldl (fun m op => MicroOp.onShadow op m) m) = true := by
  induction prog generalizing m with
  | nil => exact h
  | cons op prog ih =>
    apply ih fun o ho => hok o (List.mem_cons_of_mem _ ho)
    have hc := hok op List.mem_cons_self
    cases op with
    | cfg l => exact h
    | set l v => exact h
    | wait t => exact h
    | shb p b x =>
      have hpb : p < c.n ∧ b < 8 := by simpa [MicroOp.check] using hc
      exact Memory.writeBit_wf h hpb.1 _ _
    | shz => rfl

theorem linesMatch_foldl (c : Config) (prog : List MicroOp) (f : LineFile) :
    linesMatch c (prog.foldl (fun f op => MicroOp.onLines op f) f) = linesMatch c f := by
  induction prog generalizing f with
  | nil => rfl
  | cons op prog ih => rw [List.foldl_cons, ih, linesMatch_onLines]

/-- A whole command keeps the invariant. -/
theorem afterCommand_inv {s : State} (hi : s.Inv) {prog : List MicroOp} (hok : ProgOk s.cfg prog) (st : Status) :
    (afterCommand prog st s).Inv := by
  obtain ⟨hv, hm, hl, -, h1, h2, hp⟩ := (State.inv_iff s).mp hi
  have hc0 := Chain.afterStep_length s.freeTick s.abandoned s.abandoned s.lines s.lines h1 h2
  have hc1 := runOps_chain_length prog (s := observeChain s s) hc0.1 hc0.2
  have hc2 := Chain.afterStep_length (runOps prog (observeChain s s)).freeTick s.abandoned
    (s.abandoned && prog != progInit s.cfg) (runOps prog (observeChain s s)).lines (runOps prog (observeChain s s)).lines
    hc1.1 hc1.2
  rw [State.inv_iff]
  simp only [afterCommand_cfg, afterCommand_seq, afterCommand_cmdPort, afterCommand_shadow, afterCommand_lines]
  refine ⟨hv, hok.shadow_wf hm, by rw [linesMatch_foldl]; exact hl, rfl, ?_, ?_, hp⟩
  · simpa [afterCommand] using hc2.1
  · simpa [afterCommand] using hc2.2

/-! ### The lines and the chain after a whole command -/

/-- The chain and the lines after a command that configures no line, with no abandoned command, from what its micro-program
does to the wire. -/
theorem afterCommand_wire {s : State} {prog : List MicroOp} (st : Status) (hp : ∀ op ∈ prog, op.noCfg = true)
    {d l d' l' : Level} {oe rst : Option Level} {ch' : Chain} (hl : s.lines = LineFile.outputs d .low l oe rst)
    (ha : s.abandoned = false) (hr : rst ≠ some .low)
    (hw : prog.foldl wireOp (LineFile.outputs d .low l oe rst, s.chain) = (LineFile.outputs d' .low l' oe rst, ch')) :
    (afterCommand prog st s).lines = LineFile.outputs d' .low l' oe rst ∧ (afterCommand prog st s).chain = ch' := by
  have hclr : ∀ a b, clearActive (LineFile.outputs a .low b oe rst) = false := by
    intro a b
    rcases rst with _ | ⟨_ | _⟩ <;> first | rfl | exact absurd rfl hr
  have hfst : ∀ (prog : List MicroOp) (x : LineFile × Chain),
      (prog.foldl wireOp x).1 = prog.foldl (fun f op => MicroOp.onLines op f) x.1 := by
    intro prog
    induction prog with
    | nil => exact fun _ => rfl
    | cons op prog ih => intro x; rw [List.foldl_cons, ih]; rfl
  have h := afterCommand_chain (s := s) (prog := prog) st hp (by rw [hl]; simp) ha (by rw [hl]; exact hclr _ _) (by
    have h' := hfst prog (LineFile.outputs d .low l oe rst, s.chain)
    rw [hw] at h'
    rw [hl, ← h']
    exact hclr _ _)
  rw [hl, hw] at h
  exact ⟨congrArg Prod.fst h, congrArg Prod.snd h⟩

theorem progAllOff_noCfg (c : Config) (latch : Bool) : ∀ op ∈ progAllOff c latch, op.noCfg = true := by
  have hz : ∀ op ∈ zeroCells c.n, op.noCfg = true := by
    intro op h
    rw [zeroCells_eq] at h
    simp only [List.mem_flatMap, fastCell, clockPulse, List.mem_cons, List.not_mem_nil, or_false] at h
    rcases h with ⟨_, _, rfl | rfl | rfl⟩ <;> rfl
  intro op h
  unfold progAllOff latchedFrame at h
  split at h
  · simp only [List.cons_append, List.append_assoc, List.mem_cons, List.mem_append, List.not_mem_nil, or_false,
      false_or] at h
    rcases h with rfl | h | rfl | rfl
    · rfl
    · exact hz _ h
    · rfl
    · rfl
  · exact hz _ h

theorem progWrite_noCfg (c : Config) (wdata : Nat) (ord : BitOrder) :
    ∀ op ∈ progWrite c wdata ord, op.noCfg = true := by
  intro op h
  simp only [progWrite, latchedFrame, writeCell, settledCell, List.mem_cons, List.mem_append, List.mem_flatMap,
    List.not_mem_nil, or_false] at h
  rcases h with rfl | ⟨_, _, (rfl | rfl | rfl | rfl) | rfl⟩ | rfl <;> rfl

theorem progPin_noCfg (c : Config) (m : Memory) (pin : Nat) (x : Bool) :
    ∀ op ∈ progPin c m pin x, op.noCfg = true := by
  intro op h
  simp only [progPin, latchedFrame, List.mem_cons, List.mem_append, List.mem_flatMap, List.not_mem_nil, or_false] at h
  rcases h with rfl | ⟨_, _, h⟩ | rfl
  · rfl
  · unfold pinCell at h
    split at h
    · simp only [clockPulse, List.mem_cons, List.not_mem_nil, or_false] at h
      rcases h with rfl | rfl | rfl | rfl <;> rfl
    · simp only [fastCell, clockPulse, List.mem_cons, List.not_mem_nil, or_false] at h
      rcases h with rfl | rfl | rfl <;> rfl
  · rfl

/-! ### INIT -/

/-- INIT up to its ALL_OFF: the lines, the output enable and the reset pulse (40_bringup.md R141). -/
def initPrefix (c : Config) : List MicroOp := initLines ++ initOe c ++ initRst c

theorem progInit_split (c : Config) : progInit c = initPrefix c ++ (progAllOff c true ++ initEnable c) := by
  simp [progInit, initPrefix]

/-- Every connected line is a driven output before INIT's ALL_OFF starts. -/
theorem initPrefix_lines (c : Config) {f : LineFile} (h : linesMatch c f = true) :
    (initPrefix c).foldl (fun f op => MicroOp.onLines op f) f
      = LineFile.outputs .low .low .low (if c.hasOe then some .high else none)
          (if c.hasRst then some .high else none) := by
  simp only [initPrefix, List.foldl_append]
  obtain ⟨⟨dm, d⟩, ⟨cm, cc⟩, ⟨lm, l⟩, oe, rst⟩ := f
  unfold initOe initRst initLines
  simp only [linesMatch, Bool.and_eq_true, beq_iff_eq] at h
  obtain ⟨ho, hr⟩ := h
  cases h1 : c.hasOe <;> cases h2 : c.hasRst <;> rw [h1] at ho <;> rw [h2] at hr
  · obtain rfl : oe = none := by simpa using ho
    obtain rfl : rst = none := by simpa using hr
    rfl
  · obtain rfl : oe = none := by simpa using ho
    obtain ⟨r, rfl⟩ := Option.isSome_iff_exists.mp hr
    rfl
  · obtain ⟨r, rfl⟩ := Option.isSome_iff_exists.mp ho
    obtain rfl : rst = none := by simpa using hr
    rfl
  · obtain ⟨r, rfl⟩ := Option.isSome_iff_exists.mp ho
    obtain ⟨r', rfl⟩ := Option.isSome_iff_exists.mp hr
    rfl

theorem progInit_shadow (c : Config) (m : Memory) :
    (progInit c).foldl (fun m op => MicroOp.onShadow op m) m = [] := by
  simp only [progInit, List.foldl_append, progAllOff_shadow, if_true]
  unfold initEnable
  split <;> rfl

theorem lastLevel_zeroStream (n : Nat) : lastLevel .low (zeroStream n) = .low := by
  unfold lastLevel zeroStream
  generalize 8 * n = k
  induction k with
  | zero => rfl
  | succ k ih => rw [List.replicate_succ, List.foldl_cons]; exact ih

end Sys2Proof.Machine
end

