-- ==== Sys2Proof/Laws/Layout.lean ====
section
/-! SUPPORT. Laws of the layouts: bytes of `wdata` and `rdata`, the order of a stream, where a stream lands in the chain, and
the lines after a latched frame. -/

namespace Sys2Proof.Machine

/-- Bit `8p + b` of a number is bit `b` of its byte `p` (20_memory.md R73). -/
theorem testBit_byte (w p : Nat) {b : Nat} (hb : b < 8) : w.testBit (8 * p + b) = (w / 256 ^ p % 256).testBit b := by
  have h : 256 ^ p = 2 ^ (8 * p) := by rw [pow_mul]; norm_num
  rw [h, show 256 = 2 ^ 8 by norm_num, Nat.testBit_mod_two_pow, ← Nat.shiftRight_eq_div_pow, Nat.testBit_shiftRight]
  simp [hb]

theorem wdataBit_eq (w p : Nat) {b : Nat} (hb : b < 8) : wdataBit w p b = (wdataByte w p).getLsbD b := by
  unfold wdataBit wdataByte
  rw [testBit_byte _ _ hb]
  rfl

theorem packParts_lt (f : Nat → Byte) (n : Nat) : packParts f n < 2 ^ (8 * n) := by
  induction n with
  | zero => simp [packParts]
  | succ n ih =>
    have h := (f n).isLt
    have e : 256 ^ n = 2 ^ (8 * n) := by rw [pow_mul]; norm_num
    have e' : 2 ^ (8 * (n + 1)) = 256 * 2 ^ (8 * n) := by rw [Nat.mul_succ, pow_add]; ring
    rw [packParts, e, e']
    nlinarith

theorem packParts_zero (n : Nat) : packParts (fun _ => 0) n = 0 := by
  induction n with
  | zero => rfl
  | succ n ih => rw [packParts, ih]; simp

/-- The slot sent `8p + i`-th carries its bit. -/
theorem stream_get {n p i : Nat} (g : Nat × Nat → Bool) (hp : p < n) (hi : i < 8) :
    ((slots n).map g)[8 * p + i]? = some (g (p, i)) := by simp [slots_get hp hi]

theorem slots_getLast {n : Nat} (h : 1 ≤ n) : (slots n).getLast? = some (n - 1, 7) := by
  obtain ⟨k, rfl⟩ : ∃ k, n = k + 1 := ⟨n - 1, by omega⟩
  rw [slots_succ, List.getLast?_append]
  rfl

theorem stream_ne_nil {n : Nat} (h : 1 ≤ n) (g : Nat × Nat → Bool) : (slots n).map g ≠ [] := by
  intro e
  have hl := congrArg List.length e
  simp only [List.length_map, slots_length, List.length_nil] at hl
  omega

/-- The last bit sent. -/
theorem stream_getLast {n : Nat} (h : 1 ≤ n) (g : Nat × Nat → Bool) :
    ((slots n).map g).getLast (stream_ne_nil h g) = g (n - 1, 7) := by
  have e : ((slots n).map g).getLast? = some (g (n - 1, 7)) := by rw [List.getLast?_map, slots_getLast h]; rfl
  rw [List.getLast?_eq_some_getLast (stream_ne_nil h g)] at e
  simpa using e

/-- A stream read from the far end: the `i`-th bit of part `p` is at stage `7 - i` of chip `N-1-p`
(60_exceptions.md R263). -/
theorem reverse_stage {n p i : Nat} {ds : List Bool} (hl : ds.length = 8 * n) (hp : p < n) (hi : i < 8) :
    ds.reverse[8 * (n - 1 - p) + (7 - i)]? = ds[8 * p + i]? := by
  rw [List.getElem?_reverse (by omega)]
  congr 1
  omega

theorem writeStream_length (n : Nat) (ord : BitOrder) (w : Nat) : (writeStream n ord w).length = 8 * n := by
  simp [writeStream]

theorem shadowStream_length (n : Nat) (m : Memory) : (shadowStream n m).length = 8 * n := by
  simp [shadowStream]

/-- Both registers of every line after a latched frame, on any lines. -/
theorem latched_get {ds : List Bool} (hd : ds ≠ []) (f : LineFile) (l : Line) :
    ((afterBits ds (f.drive .latch .low)).drive .latch .high).get l =
      if l = .latch then (f.get l).map (fun r => ⟨r.mode, .high⟩)
      else if l = .clock then (f.get l).map (fun r => ⟨r.mode, .low⟩)
      else if l = .data then (f.get l).map (fun r => ⟨r.mode, lvl (ds.getLast hd)⟩)
      else f.get l := by
  rw [LineFile.get_drive, afterBits_get _ hd, LineFile.get_drive]
  cases l <;> simp [LineFile.get]

theorem LineFile.ext_get {f g : LineFile} (h : ∀ l, f.get l = g.get l) : f = g := by
  obtain ⟨a, b, c, d, e⟩ := f
  obtain ⟨a', b', c', d', e'⟩ := g
  have h1 := h .data
  have h2 := h .clock
  have h3 := h .latch
  have h4 := h .oe
  have h5 := h .rst
  simp only [LineFile.get, Option.some.injEq] at h1 h2 h3 h4 h5
  simp only [h1, h2, h3, h4, h5]

/-- On lines as INIT leaves them (10_state.md R53). -/
theorem LineFile.exists_booted {f : LineFile} (h : f.booted = true) :
    ∃ d oe rst, f = LineFile.outputs d .low .high oe rst ∧ (oe = none ∨ oe = some .low) ∧
      (rst = none ∨ rst = some .high) := by
  rw [LineFile.booted_iff] at h
  obtain ⟨⟨dm, d⟩, c, l, oe, rst⟩ := f
  obtain ⟨rfl, rfl, rfl, ho, hr⟩ := h
  simp only at ho hr
  rcases ho with rfl | rfl <;> rcases hr with rfl | rfl
  · exact ⟨d, none, none, rfl, by simp, by simp⟩
  · exact ⟨d, none, some .high, rfl, by simp, by simp⟩
  · exact ⟨d, some .low, none, rfl, by simp, by simp⟩
  · exact ⟨d, some .low, some .high, rfl, by simp, by simp⟩

end Sys2Proof.Machine
end

