-- ==== Sys2Proof/Laws/PerInstr.lean ====
section
/-! SUPPORT. Statements made per instruction: every encoded word has the mask and match of its row of the opcode table
(30_encoding.md R106). -/

namespace Sys2Proof.Laws.EncodeMatchesTable

/-- The encoded word, under the mask of its row, is the match value of its row (R106). -/
def Statement (i : Instr) : Prop := (encode i).cw &&& maskOf i = matchOf i

theorem init : Statement .init := by unfold Statement; decide

theorem write (ord : BitOrder) (wdata : Nat) : Statement (.write ord wdata) := by
  unfold Statement
  cases ord <;> simp only [encode, fOfOrd, maskOf, matchOf] <;> decide

theorem writePin (pin : BitVec 16) (turnOn : Bool) : Statement (.writePin pin turnOn) := by
  have h := pin.isLt
  show cmdWord pin turnOn 3#4 &&& 0x0000FFEF#32 = 0x00000003#32
  have hlow : (0x0000FFEF#32).toNat = 2 ^ 16 - 1 &&& 0x0000FFEF := by decide
  apply BitVec.eq_of_toNat_eq
  rw [BitVec.toNat_and, hlow, ← Nat.and_assoc, Nat.and_two_pow_sub_one_eq_mod, cmdWord_toNat]
  cases turnOn
  · have e : (pin.toNat * 2 ^ 16 + false.toNat * 2 ^ 4 + (3#4).toNat) % 2 ^ 16 = 3 := by
      simp only [Bool.toNat_false, BitVec.toNat_ofNat]; omega
    rw [e]; decide
  · have e : (pin.toNat * 2 ^ 16 + true.toNat * 2 ^ 4 + (3#4).toNat) % 2 ^ 16 = 19 := by
      simp only [Bool.toNat_true, BitVec.toNat_ofNat]; omega
    rw [e]; decide

theorem allOff (latch : Bool) : Statement (.allOff latch) := by
  unfold Statement
  cases latch <;> simp only [encode, maskOf, matchOf] <;> decide

theorem state : Statement .state := by unfold Statement; decide

end Sys2Proof.Laws.EncodeMatchesTable
end

