-- ==== Sys2Proof/Tests/Slice0.lean ====
section
/-! SUPPORT. The model's own tests, with expected values from the worked examples and vectors of spec/, and a witness for the
hypotheses of each statement that has some. -/

namespace Sys2Proof.Tests

open Sys2Proof Sys2Proof.Machine

/-! ### Small states -/

/-- A chain of `n` chips with or without the optional lines, durations as in R9. -/
def cfg (n : Nat) (oe rst : Bool) : Config where
  n := n
  idData := 2
  idClock := 3
  idLatch := 4
  idOe := if oe then some 5 else none
  idRst := if rst then some 6 else none
  tSettle := 1
  tRst := 10
  pinPolicy := .ignore
  tStepMin := 0

/-- One chip, no optional lines. -/
def cfg1 : Config := cfg 1 false false

/-- One chip, both optional lines. -/
def cfgAll : Config := cfg 1 true true

/-- The same chip under `PIN_POLICY = REJECT`. -/
def cfgReject : Config := ⟨1, 2, 3, 4, none, none, 1, 10, .reject, 0⟩

/-- A state with chosen shadow, lines, sequencer and chain. -/
def st (c : Config) (m : Memory) (f : LineFile) (q : Seq) (sr store : List Bool) : State :=
  ⟨c, m, f, q, [], [], [], [], ⟨sr, store⟩, false, 1⟩

/-- Three driven lines. -/
def lines3 (d c l : Level) : LineFile := ⟨⟨.output, d⟩, ⟨.output, c⟩, ⟨.output, l⟩, none, none⟩

/-- Five driven lines. -/
def lines5 (d c l oe rst : Level) : LineFile :=
  ⟨⟨.output, d⟩, ⟨.output, c⟩, ⟨.output, l⟩, some ⟨.output, oe⟩, some ⟨.output, rst⟩⟩

/-- Eight stages of one value. -/
def eight (x : Bool) : List Bool := [x, x, x, x, x, x, x, x]

/-- An idle booted controller of one chip with shadow byte `v`. -/
def idle1 (v : Byte) : State := st cfg1 (Memory.write [] 0 v) (lines3 .low .low .high) .idle (eight false) (eight false)

/-- A controller about to perform one micro-operation. -/
def about (op : MicroOp) (f : LineFile) : State :=
  st cfg1 [(0, 0x5A)] f (.busy [op] 0 .ok) [true, false, false, false, false, false, false, true] (eight false)

/-- The controller at the completion step of INIT, with an abandoned command pending it. -/
def settling : State :=
  ((idle1 0).withSeq (.busy (progInit cfg1) (progInit cfg1).length .ok)).withChain ⟨eight true, eight true⟩ 1 true

/-- One property of the next state; false where there is none. -/
def after (o : Host.Outcome State Fault Refusal) (p : State → Bool) : Bool :=
  match o with
  | .next t => p t
  | .fault _ => false
  | .refused _ => false

/-- The next state, or the state given. -/
def nextOr (s : State) (o : Host.Outcome State Fault Refusal) : State :=
  match o with
  | .next t => t
  | .fault _ => s
  | .refused _ => s

/-! ### Well-formedness: what the check refuses -/

/-- An operand of more than 8N bits cannot be presented (20_memory.md R73). -/
theorem test_wf_write_too_wide : (Instr.write .lsbFirst 0x100).wellFormed 1 = false := by decide

theorem test_wf_write_fits : (Instr.write .lsbFirst 0xFF).wellFormed 1 = true := by decide

theorem test_wf_command_too_wide : (Command.wellFormed 2 ⟨0x00000002#32, 0x10000⟩) = false := by decide

/-- Every pin is well formed: its range is a matter of meaning (30_encoding.md R103). -/
theorem test_wf_pin_any : (Instr.writePin 0xFFFF#16 true).wellFormed 1 = true := by decide

/-- 00_scope.md R12: two lines on one handle, no chip, too many chips. -/
theorem test_config_aliased : (⟨1, 2, 3, 2, none, none, 1, 10, .ignore, 0⟩ : Config).valid = false := by decide

theorem test_config_no_chip : (cfg 0 false false).valid = false := by decide

theorem test_config_chain_bound : (cfg 8192 true true).valid = true ∧ (cfg 8193 true true).valid = false := by decide

/-! ### Decoding: words written bit by bit (95_test_vectors.md 2.1) -/

theorem test_decode_init : decode 0b00000000000000000000000000000001#32 9 = .instr .init := by decide

theorem test_decode_write_lsb : decode 0b00000000000000000000000000000010#32 9 = .instr (.write .lsbFirst 9) := by decide

theorem test_decode_write_msb : decode 0b00000000000000000000000000010010#32 9 = .instr (.write .msbFirst 9) := by decide

theorem test_decode_pin_off : decode 0b00000000000000000000000000000011#32 9 = .instr (.writePin 0 false) := by decide

theorem test_decode_pin_on : decode 0b11111111111111110000000000010011#32 9 = .instr (.writePin 0xFFFF true) := by decide

theorem test_decode_pin_order : decode 0x000F0013#32 0 = .instr (.writePin 15 true) := by decide

theorem test_decode_all_off : decode 0b00000000000000000000000000000100#32 9 = .instr (.allOff false) := by decide

theorem test_decode_all_off_latch : decode 0b00000000000000000000000000010100#32 9 = .instr (.allOff true) := by decide

theorem test_decode_state : decode 0b00000000000000000000000000000101#32 9 = .instr .state := by decide

/-- D-1, D-3, D-4, D-5, D-8, D-11, D-12, D-16, D-18, D-19, D-20. -/
theorem test_decode_illegal :
    decode 0x00000000#32 0 = .illegal .unknownOpcode ∧ decode 0x00000011#32 0 = .illegal .flagNotZero ∧
    decode 0x00000021#32 0 = .illegal .reservedBits ∧ decode 0x00010001#32 0 = .illegal .pinOutsideWritePin ∧
    decode 0x00010002#32 0 = .illegal .pinOutsideWritePin ∧ decode 0xFFFF0033#32 0 = .illegal .reservedBits ∧
    decode 0x00008003#32 0 = .illegal .reservedBits ∧ decode 0x00000015#32 0 = .illegal .flagNotZero ∧
    decode 0x00000010#32 0 = .illegal .unknownOpcode ∧ decode 0x80000005#32 0 = .illegal .pinOutsideWritePin ∧
    decode 0xFFFFFFFF#32 0 = .illegal .reservedBits := by decide

/-- D-17: OP `0x6` and `0xF`. -/
theorem test_decode_opcode_edges :
    decode 0x00000006#32 0 = .illegal .unknownOpcode ∧ decode 0x0000000F#32 0 = .illegal .unknownOpcode := by decide

/-- The table's numbering: the data operand's bits count on from bit 32 (log entry 22). -/
theorem test_table_word : decodeTableWord 40 0xA500000012 = some (.write .msbFirst 0xA5) ∧
    decodeTableWord 32 0x00080013 = some (.writePin 8 true) ∧ decodeTableWord 32 0x00000006 = none := by decide

/-- 30_encoding.md R101 to R103: the encoder's words. -/
theorem test_encode : (encode (.write .msbFirst 7)).cw = 0x00000012#32 ∧
    (encode (.writePin 9 true)).cw = 0x00090013#32 ∧ (encode (.allOff false)).cw = 0x00000004#32 := by decide

/-! ### Micro-programs (worked examples) -/

/-- 40_bringup.md R146: the events of INIT with both optional lines, up to the frame. -/
theorem test_init_start : (progEvents (progInit cfgAll)).take 15 =
    [.cfg .data, .cfg .latch, .cfg .clock, .set .data .low, .set .latch .low, .set .clock .low,
      .cfg .oe, .set .oe .high, .cfg .rst, .set .rst .high, .wait 10, .set .rst .low, .wait 10, .set .rst .high,
      .set .latch .low] := by decide

/-- 95_test_vectors.md I-4: 42 micro-operations, 41 events, 2 waits, 8 rising clock edges, 20 ms. -/
theorem test_init_counts : timingOf (progInit cfgAll) = ⟨42, 41, 2, 8, 20⟩ := by decide

/-- 41_write.md R166: `WRITE LSB, 0x01` starts with the HIGH bit. -/
theorem test_write_lsb_start : (progEvents (progWrite cfg1 0x01 .lsbFirst)).take 6 =
    [.set .latch .low, .set .data .high, .set .clock .high, .wait 1, .set .clock .low, .set .data .low] := by decide

/-- 95_test_vectors.md W7: 98 events at N = 3, more than the 90 micro-operations R44 calls the most (log entry 11). -/
theorem test_write_event_count : eventCount (progWrite (cfg 3 false false) 1 .lsbFirst) = 98 ∧ 18 + 24 * 3 < 98 := by decide

/-- 95_test_vectors.md W4 and W3: the streams of `0xA0`. -/
theorem test_write_streams :
    writeStream 1 .msbFirst 0xA0 = [true, false, true, false, false, false, false, false] ∧
    writeStream 1 .lsbFirst 0xA0 = [false, false, false, false, false, true, false, true] := by decide

/-- 42_write_pin.md R187: `WRITE_PIN 0, ON` writes its bit in the last cell, between DATA and the clock pulse. -/
theorem test_pin_target_cell : (progPin cfg1 [] 0 true).drop 22 =
    [.set .data .high, .shb 0 0 true, .set .clock .high, .set .clock .low, .set .latch .high] := by decide

/-- 95_test_vectors.md P2: pin 15 is the 9th cell of two chips. -/
theorem test_pin_fifteen : ((progPin (cfg 2 false false) [] 15 true).drop 25).take 2 =
    [.set .data .high, .shb 1 7 true] := by decide

/-- 43_all_off.md R206: the last micro-operations of ALL_OFF with LATCH, and the count without it. -/
theorem test_all_off_programs : (progAllOff cfg1 true).drop 25 = [.set .latch .high, .shz] ∧
    timingOf (progAllOff cfg1 false) = ⟨24, 24, 0, 8, 0⟩ := by decide

/-! ### The accept step of each command -/

theorem test_exec_init : after (exec .init (idle1 0)) (fun t => t.seq == .busy (progInit cfg1) 0 .ok) = true := by decide

theorem test_exec_write : after (exec (.write .msbFirst 0x5A) (idle1 0))
    (fun t => t.seq == .busy (progWrite cfg1 0x5A .msbFirst) 0 .ok && t.trace == []) = true := by decide

/-- 95_test_vectors.md P6: pin 8N is out of range. -/
theorem test_exec_pin_out_of_range : after (exec (.writePin 8 true) (idle1 0)) (fun t => t.seq == .busy [] 0 .ok) = true ∧
    after (exec (.writePin 8 true) (st cfgReject [] (lines3 .low .low .high) .idle (eight false) (eight false)))
      (fun t => t.seq == .busy [] 0 .outOfRange) = true := by decide

/-- Pin 8N-1 is in range (42_write_pin.md R185). -/
theorem test_exec_pin_last : after (exec (.writePin 7 true) (idle1 0x12))
    (fun t => t.seq == .busy (progPin cfg1 [(0, 0x12)] 7 true) 0 .ok) = true := by decide

theorem test_exec_all_off : after (exec (.allOff false) (idle1 0x5A))
    (fun t => t.seq == .busy (progAllOff cfg1 false) 0 .ok) = true := by decide

theorem test_exec_state : after (exec .state (idle1 0x5A)) (fun t => t.seq == .busy [] 0 .ok) = true := by decide

/-- The first step after reset takes the placed command (log entry 6). -/
theorem test_first_step : after (step (State.reset.withFetchWord 32 0x00000005)) (fun t => t.seq == .busy [] 0 .ok) = true := by
  decide

/-- An illegal word is accepted with status ILLEGAL (95_test_vectors.md S4). -/
theorem test_step_illegal : after (step ((idle1 0x5A).presenting ⟨0x00000015#32, 0⟩))
    (fun t => t.seq == .busy [] 0 .illegal && t.cmdPort == []) = true := by decide

/-! ### Single steps -/

/-- The completion of STATE (95_test_vectors.md S3): `rdata` has part 0 in the low byte. -/
theorem test_step_done : after (step (st (cfg 2 false false) [(0, 0xA5), (1, 0x3C)] (lines3 .low .low .high) (.busy [] 0 .ok)
      (eight false ++ eight false) (eight false ++ eight false)))
    (fun t => t.trace == [.done .ok 0x3CA5] && t.seq == .idle) = true := by decide

/-- SHB clears a set bit (90_conflicts.md C2) and emits nothing (10_state.md R46). -/
theorem test_step_shb : after (step (about (.shb 0 1 false) (lines3 .low .low .low)))
    (fun t => t.shadow.read 0 == 0x58#8 && t.trace == []) = true := by decide

theorem test_step_shz : after (step (about .shz (lines3 .low .low .low)))
    (fun t => t.shadow == [] && t.trace == []) = true := by decide

/-- A SET on an unconfigured line writes its level, and its pin stays undriven (10_state.md R37). -/
theorem test_step_set_unconfigured : after (step (about (.set .data .high) (LineFile.reset cfg1)))
    (fun t => t.level .data == some .high && t.pin .data == some .undriven && t.trace == [.set .data .high]) = true := by
  decide

theorem test_step_cfg : after (step (about (.cfg .clock) (LineFile.reset cfg1)))
    (fun t => t.mode .clock == some .output && t.pin .clock == some (.driven .low) && t.trace == [.cfg .clock]) = true := by
  decide

/-- A rising clock edge shifts DATA into stage 0; the last stage drops out (60_exceptions.md R261). -/
theorem test_step_shift : after (step (about (.set .clock .high) (lines3 .low .low .low)))
    (fun t => t.chain.sr == [false, true, false, false, false, false, false, false]) = true := by decide

/-- A rising latch edge copies the shift stages (R262). -/
theorem test_step_latch : after (step (about (.set .latch .high) (lines3 .low .low .low)))
    (fun t => t.chain.st == [true, false, false, false, false, false, false, true]) = true := by decide

/-- RST going LOW clears the shift stages and not the latched image (R264). -/
theorem test_step_clear : after (step (st cfgAll [] (lines5 .low .low .low .high .high) (.busy [.set .rst .low] 0 .ok)
      (eight true) (eight true)))
    (fun t => t.chain.sr == eight false && t.chain.st == eight true) = true := by decide

/-- Outputs under OE (R262). -/
theorem test_outputs : (st cfgAll [] (lines5 .low .low .low .high .high) .idle (eight false) (eight true)).output 0 3
      = some .highZ ∧
    (st cfgAll [] (lines5 .low .low .low .low .high) .idle (eight false) (eight true)).output 0 3
      = some (.driven true) := by decide

/-- 95_test_vectors.md R-2: reset while busy leaves the reset state, emits nothing and keeps the host's command waiting. -/
theorem test_step_reset : after (step (((about (.shb 0 0 true) (lines3 .high .high .low)).withPort [⟨5#32, 0⟩]).withResetIn [true]))
    (fun t => t.seq == .idle && t.shadow == [] && t.trace == [] && t.lines == LineFile.reset cfg1 &&
      t.cmdPort == [⟨5#32, 0⟩] && t.resetIn == []) = true := by decide

/-- 70_reset_and_hazards.md R283: a reset with a command in flight leaves the chain unknown; one of an idle controller does not. -/
theorem test_reset_abandons :
    after (step ((about (.shb 0 0 true) (lines3 .low .low .low)).withResetIn [true])) State.abandoned = true ∧
    after (step ((idle1 7).withResetIn [true])) (fun t => !t.abandoned) = true := by decide

/-- R283, I3: INIT's completion makes the chain known, with the zeros of its frame; the completion of STATE does not. -/
theorem test_init_settles :
    after (step settling) (fun t => t.chainKnown && t.chain == ⟨eight false, eight false⟩) = true ∧
    after (step (settling.withSeq (.busy [] 0 .ok))) State.abandoned = true := by decide

/-- 60_exceptions.md R266: with CLOCK undriven and OE driven HIGH the chain is not known. -/
theorem test_undriven_unknown :
    (st cfgAll [] ((lines5 .low .low .low .high .high).modify .clock fun r => ⟨.unconfigured, r.level⟩) .idle (eight false)
      (eight true)).chainKnown = false ∧
    (st cfgAll [] (lines5 .low .low .low .high .high) .idle (eight false) (eight true)).chainKnown = true := by decide

/-! ### The assembler (95_test_vectors.md Programs 1 and 3) -/

theorem test_asm_write : assembleText 3 ['W', 'R', 'I', 'T', 'E', ' ', ' ', 'L', 'S', 'B', ',', ' ', '1', ',', ' ', '0', ',',
    ' ', '0'] = some ⟨0x00000002#32, 0x000001⟩ := by decide

/-- Part 0 in the low byte; hex and binary numbers; a comment. -/
theorem test_asm_write_msb : assembleText 2 ['W', 'R', 'I', 'T', 'E', ' ', 'M', 'S', 'B', ',', '0', 'x', 'A', '5', ',', '0',
    'b', '1', '1', '1', '1', '0', '0', ';', 'v'] = some ⟨0x00000012#32, 0x3CA5⟩ := by decide

theorem test_asm_pin : assemble 3 (.writePin 8 true) = some ⟨0x00080013#32, 0⟩ ∧
    assemble 3 (.clrPin 0) = some ⟨0x00000003#32, 0⟩ := by decide

/-- A line with other than N values, and a pin of 17 bits, are refused (30_encoding.md R123), and so is a value above 255 (log
entry 21). -/
theorem test_asm_refused : assemble 3 (.write .lsbFirst [1, 0]) = none ∧ assemble 1 (.write .lsbFirst [256]) = none ∧
    assemble 3 (.setPin 65536) = none := by decide

/-! ### Witnesses: a state and operands that meet the hypotheses of each statement -/

theorem witness_EncodeDecode : decode 0x00090013#32 3 = .instr (.writePin 9 true) := by decide

theorem witness_OpcodeTableRows : decode 0x00000012#32 3 = .instr (.write .msbFirst 3) ∧
    decode 0xFFFF0003#32 3 = .instr (.writePin 0xFFFF false) ∧ decode 0x00000014#32 3 = .instr (.allOff true) := by decide

theorem witness_IllegalWordsRejected : (idle1 7).seq = .idle ∧ decode 0x00000010#32 3 = .illegal .unknownOpcode := by decide

theorem witness_DataOperandReadOnlyByWrite : (0x00000005#32 : Word).toNat % 16 ≠ 2 ∧
    (0x00000000#32 : Word).toNat % 16 ≠ 2 := by decide

theorem witness_StepRunsDecodedCommand :
    ((idle1 7).withPort [⟨0x00000014#32, 0⟩]).cfg.valid = true ∧ ((idle1 7).withPort [⟨0x00000014#32, 0⟩]).resetNow = false ∧
    ((idle1 7).withPort [⟨0x00000014#32, 0⟩]).seq = .idle ∧
    ((idle1 7).withPort [⟨0x00000014#32, 0⟩]).cmdPort = ⟨0x00000014#32, 0⟩ :: [] ∧
    decode 0x00000014#32 0 = .instr (.allOff true) := by decide

/-- The two range clauses at their boundary, pins 8N-1 and 8N; a legal and an illegal word; a busy controller. -/
theorem witness_AcceptStep : (idle1 7).seq = .idle ∧ (7#16 : BitVec 16).toNat < 8 * (idle1 7).cfg.n ∧
    8 * (idle1 7).cfg.n ≤ (8#16 : BitVec 16).toNat ∧ decode 0x00000014#32 0 = .instr (.allOff true) ∧
    decode 0x00000010#32 0 = .illegal .unknownOpcode ∧ (about .shz (lines3 .low .low .low)).seq ≠ .idle := by decide

/-- One state for each micro-operation, part and bit at their bounds. -/
theorem witness_MicroOperationStep :
    (∀ op ∈ [MicroOp.cfg .latch, .set .clock .high, .wait 1, .shb 0 7 true, .shz],
      (about op (lines3 .low .low .low)).Inv ∧ (about op (lines3 .low .low .low)).resetNow = false ∧
      (about op (lines3 .low .low .low)).seq = .busy [op] 0 .ok ∧ [op][0]? = some op) := by decide

theorem witness_CompletionStep :
    (((idle1 7).withSeq (.busy [.shz] 1 .ok)).cfg.valid = true) ∧ ((idle1 7).withSeq (.busy [.shz] 1 .ok)).resetNow = false ∧
    ((idle1 7).withSeq (.busy [.shz] 1 .ok)).seq = .busy [.shz] [MicroOp.shz].length .ok := by decide

theorem witness_CommandLatency :
    ((idle1 7).withSeq (.busy [.shz, .wait 3] 0 .ok)).Inv ∧
    ((idle1 7).withSeq (.busy [.shz, .wait 3] 0 .ok)).QuietFor 3 ∧
    (idle1 7).Inv ∧ (idle1 7).resetNow = false ∧ (idle1 7).seq = .idle ∧ (idle1 7).cmdPort = [] := by
  refine ⟨by decide, ?_, by decide, by decide, by decide, by decide⟩
  intro x h
  exact absurd h List.not_mem_nil

theorem witness_EveryCommandCompletesOnce : (idle1 7).seq = .idle := by decide

/-- Every kind of step answers a next state: waiting, accepting, performing, completing, and reset
(CommandHandshake, StepKeepsInv, ConfigurationImmutable, TraceExtendsByAtMostOneEvent). -/
theorem witness_next_states :
    after (step (idle1 7)) (fun _ => true) = true ∧
    after (step ((idle1 7).presenting ⟨0x00000012#32, 0xA5⟩)) (fun _ => true) = true ∧
    after (step (about (.shb 0 7 true) (lines3 .low .low .low))) (fun _ => true) = true ∧
    after (step ((idle1 7).withSeq (.busy [] 0 .ok))) (fun _ => true) = true ∧
    after (step ((idle1 7).withResetIn [true])) (fun _ => true) = true := by decide

theorem witness_CommandHandshake :
    step (about .shz (lines3 .low .low .low))
      = .next (nextOr (idle1 0) (step (about .shz (lines3 .low .low .low)))) ∧
    (about .shz (lines3 .low .low .low)).seq = .busy [.shz] 0 .ok := ⟨rfl, rfl⟩

theorem witness_StepsComposeToCommand :
    ((idle1 7).withPort [⟨0x00000005#32, 0⟩]).Inv ∧ ((idle1 7).withPort [⟨0x00000005#32, 0⟩]).seq = .idle ∧
    ((idle1 7).withPort [⟨0x00000005#32, 0⟩]).cmdPort = ⟨0x00000005#32, 0⟩ :: [] ∧
    2 = (commandProgram cfg1 [(0, 7)] ⟨0x00000005#32, 0⟩).length + 2 ∧
    ((idle1 7).withPort [⟨0x00000005#32, 0⟩]).QuietFor 2 := by
  refine ⟨by decide, by decide, by decide, by decide, ?_⟩
  intro x h
  exact absurd h List.not_mem_nil

theorem witness_ResetValues : connected cfgAll .oe = true ∧ connected cfgAll .rst = true ∧ connected cfg1 .latch = true := by
  decide

theorem witness_ResetAbandonsCommand :
    ((about .shz (lines3 .low .low .low)).withResetIn [true]).cfg.valid = true ∧
    ((about .shz (lines3 .low .low .low)).withResetIn [true]).resetNow = true := by decide

theorem witness_ResetInv : cfgAll.valid = true ∧ cfg1.valid = true := by decide

theorem witness_StepKeepsInv : (about .shz (lines3 .low .low .low)).Inv ∧
    step (about .shz (lines3 .low .low .low))
      = .next (nextOr (idle1 0) (step (about .shz (lines3 .low .low .low)))) := ⟨by decide, rfl⟩

theorem witness_InvStateNeverStops : (idle1 7).Inv ∧ State.reset.Inv := by decide

theorem witness_HandlesAndSpacingUnread :
    cfg1.valid = true ∧ (⟨1, 9, 8, 7, none, none, 1, 10, .ignore, 5⟩ : Config).valid = true ∧
    (⟨1, 9, 8, 7, none, none, 1, 10, .ignore, 5⟩ : Config).hasOe = cfg1.hasOe := by decide

/-- Both clauses: a CFG step of an unconfigured line, and a reset. -/
theorem witness_ModeWrittenOnlyByCfg :
    (about (.cfg .data) (LineFile.reset cfg1)).currentOp = some (.cfg .data) ∧
    (about (.cfg .data) (LineFile.reset cfg1)).mode .data = some .unconfigured ∧
    (about (.cfg .data) (LineFile.reset cfg1)).resetNow = false ∧
    after (step (about (.cfg .data) (LineFile.reset cfg1))) (fun t => t.mode .data == some .output) = true ∧
    ((idle1 7).withResetIn [true]).resetNow = true ∧ connected cfg1 .data = true := by decide

theorem witness_LevelWrittenOnlyBySet :
    (about (.set .data .high) (LineFile.reset cfg1)).currentOp = some (.set .data .high) ∧
    (about (.set .data .high) (LineFile.reset cfg1)).mode .data = some .unconfigured ∧
    (about (.set .data .high) (LineFile.reset cfg1)).resetNow = false ∧
    after (step (about (.set .data .high) (LineFile.reset cfg1))) (fun t => t.level .clock == some .low) = true := by decide

theorem witness_PinDriven : (idle1 7).mode .latch = some .output ∧ (idle1 7).level .latch = some .high ∧
    (State.resetOf cfgAll).mode .oe = some .unconfigured := by decide

/-- Both ways the shadow changes. -/
theorem witness_ShadowWrittenOnlyByItsOps :
    after (step (about .shz (lines3 .low .low .low)))
      (fun t => t.shadow != (about .shz (lines3 .low .low .low)).shadow) = true ∧
    after (step (about (.shb 0 7 true) (lines3 .low .low .low)))
      (fun t => t.shadow != (about (.shb 0 7 true) (lines3 .low .low .low)).shadow) = true := by decide

theorem witness_PinNamesOneBit : Memory.wf 2 [(0, 0x34), (1, 0x12)] = true ∧ 15 < 8 * 2 ∧ 0 < 8 * 2 := by decide

/-- A part and a bit at their bounds. -/
theorem witness_ResponseLayout : 1 < 2 ∧ 7 < 8 ∧ (rdataOf 2 [(0, 0x34), (1, 0x92)]).testBit 15 = true := by decide

/-- An idle booted controller (InitTrace, WriteTrace, CommandsAreIdempotent, PhysicalInvariant). -/
theorem witness_idle_commands : (idle1 0xA5).Inv ∧ (idle1 0xA5).seq = .idle ∧
    (Instr.write .lsbFirst 0xFF).wellFormed (idle1 0xA5).cfg.n = true ∧ (idle1 0xA5).lines.booted = true := by decide

/-- INIT from reset with both optional lines (40_bringup.md R146). -/
theorem witness_InitEndState : (State.resetOf cfgAll).Inv ∧ (State.resetOf cfgAll).seq = .idle ∧
    connected (State.resetOf cfgAll).cfg .rst = true := by decide

/-- The bounds of the interval: `Set(OE, HIGH)` is done after 8 steps, `Set(OE, LOW)` is the last micro-operation. -/
theorem witness_OutputsDisabledDuringInit :
    ((State.resetOf cfgAll).withSeq (.busy (progInit cfgAll) 0 .ok)).abandoned = false ∧
    (st cfgAll [] (lines5 .low .low .high .low .high) (.busy (progInit cfgAll) 0 .ok) (eight false)
      (eight false)).lines.anyUndriven = false ∧ (cfg 1 true false).hasRst = false ∧ 9 < (progInit cfgAll).length ∧
    ((State.resetOf cfgAll).withSeq (.busy (progInit cfgAll) 0 .ok)).Inv ∧ cfgAll.hasOe = true ∧
    8 < (progInit cfgAll).length ∧ (progInit cfgAll)[7]? = some (.set .oe .high) ∧
    (progInit cfgAll)[(progInit cfgAll).length - 1]? = some (.set .oe .low) := by decide

theorem witness_WriteEndState : (idle1 0xA5).Inv ∧ (idle1 0xA5).seq = .idle ∧
    (Instr.write .msbFirst 0xFF).wellFormed (idle1 0xA5).cfg.n = true ∧
    ((idle1 0xA5).chainKnown = true ∧ (idle1 0xA5).level .clock = some .low ∧ (idle1 0xA5).level .rst ≠ some .low) := by
  decide

/-- Both ranges at their boundary, and a target bit that already holds its value. -/
theorem witness_PinEndState : (idle1 0xA5).Inv ∧ (idle1 0xA5).seq = .idle ∧ (7#16 : BitVec 16).toNat < 8 * (idle1 0xA5).cfg.n ∧
    8 * (idle1 0xA5).cfg.n ≤ (8#16 : BitVec 16).toNat ∧
    (idle1 0xA5).shadow.bit ((7#16 : BitVec 16).toNat / 8) ((7#16 : BitVec 16).toNat % 8) = true := by decide

theorem witness_AllOffEndState : (st cfgAll [(0, 0x5A)] (lines5 .low .low .high .low .high) .idle (eight true) (eight true)).Inv ∧
    ((st cfgAll [(0, 0x5A)] (lines5 .low .low .high .low .high) .idle (eight true) (eight true)).chainKnown = true ∧
      (st cfgAll [(0, 0x5A)] (lines5 .low .low .high .low .high) .idle (eight true) (eight true)).level .clock = some .low ∧
      (st cfgAll [(0, 0x5A)] (lines5 .low .low .high .low .high) .idle (eight true) (eight true)).level .rst ≠ some .low) := by
  decide

theorem witness_FastFrameTraces : (idle1 0xA5).Inv ∧ (idle1 0xA5).seq = .idle ∧
    (7#16 : BitVec 16).toNat < 8 * (idle1 0xA5).cfg.n := by decide

theorem witness_PinAgreesWithWrite : (idle1 0xA5).Inv ∧ (idle1 0xA5).seq = .idle ∧
    (0#16 : BitVec 16).toNat < 8 * (idle1 0xA5).cfg.n := by decide

theorem witness_BootedKept : (idle1 0xA5).abandoned = false ∧ (State.resetOf cfgAll).Inv ∧ (State.resetOf cfgAll).seq = .idle ∧
    (idle1 0xA5).Inv ∧ (idle1 0xA5).seq = .idle ∧ (idle1 0xA5).lines.booted = true := by decide

theorem witness_PhysicalInvariant : State.reset.Inv ∧ State.reset.seq = .idle := by decide

theorem witness_CommandsAreIdempotent : (idle1 0xA5).Inv ∧ (idle1 0xA5).seq = .idle := by decide

theorem witness_StateEffect : (idle1 7).seq = .idle ∧ (0x00000015#32 : Word).toNat % 16 = 5 := by decide

theorem witness_TimingTable : (7#16 : BitVec 16).toNat < 8 * cfg1.n ∧ 8 * cfg1.n ≤ (8#16 : BitVec 16).toNat ∧
    decode 0x00000006#32 0 = .illegal .unknownOpcode := by decide

/-- Both clock edges, on a known chain with RST not connected. -/
theorem witness_ChainShift :
    (about (.set .clock .high) (lines3 .high .low .low)).Inv ∧
    (about (.set .clock .high) (lines3 .high .low .low)).resetNow = false ∧
    (about (.set .clock .high) (lines3 .high .low .low)).chainKnown = true ∧
    (about (.set .clock .high) (lines3 .high .low .low)).level .rst ≠ some .low ∧
    (about (.set .clock .high) (lines3 .high .low .low)).level .clock = some .low ∧
    (about (.set .clock .high) (lines3 .high .low .low)).currentOp = some (.set .clock .high) ∧
    after (step (about (.set .clock .high) (lines3 .high .low .low))) (fun _ => true) = true ∧
    (about (.set .clock .low) (lines3 .high .high .low)).currentOp = some (.set .clock .low) ∧
    after (step (about (.set .clock .low) (lines3 .high .high .low))) (fun _ => true) = true := by decide

/-- A rising edge, a constant level and a falling edge of LATCH; OE not connected and driven to both levels; a chain that is not
known because a line is undriven, and one because of an abandoned command. -/
theorem witness_ChainLatchAndOutputs :
    (about (.set .latch .high) (lines3 .high .low .low)).Inv ∧
    (about (.set .latch .high) (lines3 .high .low .low)).chainKnown = true ∧
    (idle1 7).chainKnown = true ∧ (State.resetOf cfgAll).chainKnown = false ∧ settling.chainKnown = false ∧
    settling.chain.storageStage 0 0 = some true ∧
    (st cfgAll [] (lines5 .low .low .high .low .high) .idle (eight true) (eight true)).chainKnown = true ∧
    (st cfgAll [] (lines5 .low .low .high .low .high) .idle (eight true) (eight true)).pin .oe = some (.driven .low) ∧
    (st cfgAll [] (lines5 .low .low .high .low .high) .idle (eight true) (eight true)).chain.storageStage 0 0 = some true ∧
    (st cfgAll [] (lines5 .low .low .high .high .high) .idle (eight true) (eight true)).chainKnown = true ∧
    (about (.set .latch .high) (lines3 .high .low .low)).level .latch = some .low ∧
    (about (.set .latch .high) (lines3 .high .low .high)).level .latch = some .high ∧
    (about (.set .latch .high) (lines3 .high .low .high)).currentOp = some (.set .latch .high) ∧
    (about (.set .latch .low) (lines3 .high .low .high)).currentOp = some (.set .latch .low) ∧
    (idle1 7).chain.storageStage 0 7 = some false ∧ (idle1 7).pin .oe = none ∧
    (st cfgAll [] (lines5 .low .low .high .high .high) .idle (eight true) (eight true)).pin .oe = some (.driven .high) ∧
    (st cfgAll [] (lines5 .low .low .high .high .high) .idle (eight true) (eight true)).chain.storageStage 0 0 = some true := by
  decide

theorem witness_ChainClear :
    (st cfgAll [] (lines5 .low .low .low .high .high) (.busy [.set .rst .low] 0 .ok) (eight true) (eight true)).Inv ∧
    (st cfgAll [] (lines5 .low .low .low .high .high) (.busy [.set .rst .low] 0 .ok) (eight true)
      (eight true)).chainKnown = true ∧
    after (step (st cfgAll [] (lines5 .low .low .low .high .high) (.busy [.set .rst .low] 0 .ok) (eight true) (eight true)))
      (fun t => t.pin .rst == some (.driven .low)) = true := by decide

theorem witness_LatchedImageChangesOnlyAtLatchEdge :
    (about (.set .latch .high) (lines3 .high .low .low)).resetNow = false ∧
    (about (.set .latch .high) (lines3 .high .low .low)).chainKnown = true ∧
    after (step (about (.set .latch .high) (lines3 .high .low .low)))
      (fun t => t.chain.st != (about (.set .latch .high) (lines3 .high .low .low)).chain.st) = true := by decide

/-- A frame of each kind; the last pin in range. -/
theorem witness_FramePlacement :
    (idle1 0xA5).Inv ∧ (idle1 0xA5).seq = .idle ∧ (idle1 0xA5).chainKnown = true ∧
    (idle1 0xA5).level .clock = some .low ∧ (idle1 0xA5).level .rst ≠ some .low ∧
    (streamOf (idle1 0xA5).cfg (idle1 0xA5).shadow (.write .lsbFirst 1)).isSome = true ∧
    (streamOf (idle1 0xA5).cfg (idle1 0xA5).shadow (.writePin 7 true)).isSome = true ∧
    (streamOf (idle1 0xA5).cfg (idle1 0xA5).shadow (.allOff false)).isSome = true ∧
    (streamOf (idle1 0xA5).cfg (idle1 0xA5).shadow .init).isSome = true := by decide

/-- A reset from driven lines, and a step of undriven lines. -/
theorem witness_UndrivenChainUnknown :
    (idle1 7).lines.anyUndriven = false ∧
    after (step ((idle1 7).withResetIn [true])) (fun t => t.lines.anyUndriven) = true ∧
    (State.resetOf cfgAll).lines.anyUndriven = true ∧ after (step (State.resetOf cfgAll)) (fun _ => true) = true := by decide

/-- The time an abandoned command leaves the chain unknown: its start, a step inside it, and its end. -/
theorem witness_AbandonedChainUnknown :
    after (step ((about .shz (lines3 .low .low .low)).withResetIn [true])) State.abandoned = true ∧
    after (step ((idle1 7).withChain ⟨eight true, eight true⟩ 1 true)) State.abandoned = true ∧
    after (step settling) (fun t => !t.abandoned) = true := by decide

/-- A start and an advance of `upc`; both optional lines; the two lengths that R44 compares, which meet at one chip. -/
theorem witness_ProgramCounterBounds :
    ((idle1 7).presenting ⟨0x00000001#32, 0⟩).Inv ∧
    after (step ((idle1 7).presenting ⟨0x00000001#32, 0⟩)) (fun t => t.seq == .busy (progInit cfg1) 0 .ok) = true ∧
    (about .shz (lines3 .low .low .low)).Inv ∧
    after (step (about .shz (lines3 .low .low .low))) (fun t => t.seq == .busy [.shz] 1 .ok) = true ∧
    cfgAll.hasOe = true ∧ cfgAll.hasRst = true ∧ (cfg 8192 true true).valid = true ∧
    (progInit cfgAll).length = 42 ∧ (progWrite cfgAll 0 .lsbFirst).length = 42 := by decide

/-- A booted controller whose latched image is the shadow, under both orders. -/
theorem witness_CommandKeepsPhysicalMatch :
    (idle1 0).Inv ∧ (idle1 0).seq = .idle ∧ (idle1 0).lines.booted = true ∧ (idle1 0).abandoned = false ∧
    (idle1 0).PhysicalMatch .msbFirst ∧ (idle1 0).PhysicalMatch .lsbFirst ∧
    decode 0x00000001#32 0 = .instr .init ∧ decode 0x00000014#32 0 = .instr (.allOff true) := by
  refine ⟨by decide, by decide, by decide, by decide, ?_, ?_, by decide, by decide⟩ <;>
    (unfold State.PhysicalMatch; decide)

/-- A line at its bounds: a byte of 255, a pin of 65535, and the lines just past them. -/
theorem witness_AssemblerLines : (∃ v ∈ [256], 256 ≤ v) ∧ [255].length = 1 ∧ (∀ v ∈ [255], v < 256) ∧ [1, 0].length ≠ 1 ∧ 65535 < 2 ^ 16 ∧
    2 ^ 16 ≤ 65536 := by decide

end Sys2Proof.Tests
end

section
/-! PROOFS. The configuration (00_scope.md section 3): where a step refuses it (R12), and which of its parameters a step
reads (R8, R11). -/

namespace Sys2Proof

/-- Two configurations agree in every parameter but the line handles and `T_STEP_MIN`; of the optional handles only whether
they are connected is compared (00_scope.md R7, R8, R11). -/
structure Config.AgreesWith (c d : Config) : Prop where
  n : c.n = d.n
  hasOe : c.hasOe = d.hasOe
  hasRst : c.hasRst = d.hasRst
  tSettle : c.tSettle = d.tSettle
  tRst : c.tRst = d.tRst
  pinPolicy : c.pinPolicy = d.pinPolicy

theorem Config.valid_iff (c : Config) :
    c.valid = true ↔ 1 ≤ c.n ∧ c.n ≤ 8192 ∧ c.handles.Nodup := by simp [Config.valid]

end Sys2Proof

namespace Sys2Proof.Machine

/-! ### Refusal -/

/-- Every command has a meaning (60_exceptions.md R230): the controller may stop with a fault, never with a refusal. -/
theorem controllerStep_ne_refused (s : State) (r : Refusal) : controllerStep s ≠ .refused r := by
  obtain ⟨hs, hp⟩ | ⟨c, rest, hs, hp⟩ | ⟨prog, upc, st, op, hs, hop, hc⟩ | ⟨prog, upc, st, op, f, hs, hop, hc⟩ |
    ⟨prog, st, hs⟩ | ⟨prog, upc, st, hs, hu⟩ := controllerStep_situations s
  · simp [controllerStep_wait hs hp]
  · simp [controllerStep_accept hs hp]
  · simp [controllerStep_op hs hop hc]
  · simp [controllerStep_badOp hs hop hc]
  · simp [controllerStep_complete hs]
  · simp [controllerStep_pastEnd hs hu]

theorem advance_ne_refused (s : State) (r : Refusal) : advance s ≠ .refused r := by
  rw [advance_eq_mapNext]
  cases h : controllerStep s with
  | next t => simp [mapNext]
  | fault f => simp [mapNext]
  | refused r' => exact absurd h (controllerStep_ne_refused s r')

theorem step_refused_iff (s : State) : step s = .refused .invalidConfig ↔ ¬ s.cfg.valid = true := by
  unfold step
  cases s.cfg.valid with
  | false => simp
  | true => cases s.resetNow <;> simp [advance_ne_refused]

/-- Settles O18: with a valid configuration neither a reset nor the controller's step refuses. -/
theorem invalidConfigurationRefused : Obligations.InvalidConfigurationRefused := fun s =>
  (step_refused_iff s).trans (not_congr s.cfg.valid_iff)

/-! ### What a step reads of the configuration -/

section Agreement

variable {c d : Config} (h : c.AgreesWith d)
include h

theorem connected_of_agrees (l : Line) : connected c l = connected d l := by
  cases l with
  | data | clock | latch => rfl
  | oe => exact h.hasOe
  | rst => exact h.hasRst

theorem LineFile.reset_of_agrees : LineFile.reset c = LineFile.reset d := by
  simp [LineFile.reset, h.hasOe, h.hasRst]

theorem pins_of_agrees : c.pins = d.pins := by simp [Config.pins, h.n]

theorem MicroOp.check_of_agrees (op : MicroOp) : op.check c = op.check d := by
  cases op with
  | cfg l | set l v => simp [MicroOp.check, connected_of_agrees h]
  | shb p b x => simp [MicroOp.check, h.n]
  | wait t | shz => rfl

theorem progAllOff_of_agrees (latch : Bool) : progAllOff c latch = progAllOff d latch := by
  simp [progAllOff, h.n]

theorem progInit_of_agrees : progInit c = progInit d := by
  simp [progInit, initOe, initRst, initEnable, progAllOff_of_agrees h, h.hasOe, h.hasRst, h.tRst]

theorem progWrite_of_agrees (wdata : Nat) (ord : BitOrder) : progWrite c wdata ord = progWrite d wdata ord := by
  simp [progWrite, writeCell, h.n, h.tSettle]

theorem programOf_of_agrees (m : Memory) (i : Instr) : programOf c m i = programOf d m i := by
  cases i with
  | init => exact progInit_of_agrees h
  | write ord wdata => exact progWrite_of_agrees h wdata ord
  | writePin pin turnOn => rw [programOf, programOf, progPin, progPin, pins_of_agrees h, h.n]
  | allOff latch => exact progAllOff_of_agrees h latch
  | state => rfl

theorem statusOf_of_agrees (i : Instr) : statusOf c i = statusOf d i := by
  cases i with
  | writePin pin turnOn => rw [statusOf, statusOf, pins_of_agrees h, h.pinPolicy]
  | init | write | allOff | state => rfl

theorem commandProgram_of_agrees (m : Memory) (cmd : Command) : commandProgram c m cmd = commandProgram d m cmd := by
  unfold commandProgram
  cases decode cmd.cw cmd.wdata with
  | instr i => exact programOf_of_agrees h m i
  | illegal why => rfl

theorem commandStatus_of_agrees (cmd : Command) : commandStatus c cmd = commandStatus d cmd := by
  unfold commandStatus
  cases decode cmd.cw cmd.wdata with
  | instr i => exact statusOf_of_agrees h i
  | illegal why => rfl

end Agreement

/-! ### A step under another configuration -/

/-- No step of the controller writes the configuration (10_state.md R30). -/
theorem controllerStep_cfg {s t : State} (h : controllerStep s = .next t) : t.cfg = s.cfg := by
  obtain ⟨-, -, rfl⟩ | ⟨c, rest, -, -, rfl⟩ | ⟨prog, upc, st, op, -, -, -, rfl⟩ | ⟨prog, st, -, rfl⟩ :=
    controllerStep_cases h
  · rfl
  · rfl
  · rfl
  · rfl

section OtherConfiguration

variable {s : State} {c : Config} (h : c.AgreesWith s.cfg)
include h

theorem complete_withCfg (st : Status) : complete st (s.withCfg c) = (complete st s).withCfg c := by
  simp [complete, State.withCfg, State.rdata, h.n]

theorem settleInit_withCfg (prog : List MicroOp) : settleInit prog (s.withCfg c) = (settleInit prog s).withCfg c := by
  simp [settleInit, State.withCfg, progInit_of_agrees h]

theorem controllerReset_withCfg : controllerReset (s.withCfg c) = (controllerReset s).withCfg c := by
  simp [controllerReset, State.withCfg, LineFile.reset_of_agrees h]

theorem observeChain_withCfg (before : State) :
    observeChain (before.withCfg c) (s.withCfg c) = (observeChain before s).withCfg c := by
  simp [observeChain, State.withCfg, h.n]

theorem resetStep_withCfg : resetStep (s.withCfg c) = (resetStep s).withCfg c := by
  rw [resetStep, controllerReset_withCfg h, observeChain_withCfg (s := controllerReset s) h, resetStep]

theorem controllerStep_withCfg : controllerStep (s.withCfg c) = mapNext (·.withCfg c) (controllerStep s) := by
  obtain ⟨hs, hp⟩ | ⟨cmd, rest, hs, hp⟩ | ⟨prog, upc, st, op, hs, hop, hc⟩ | ⟨prog, upc, st, op, f, hs, hop, hc⟩ |
    ⟨prog, st, hs⟩ | ⟨prog, upc, st, hs, hu⟩ := controllerStep_situations s
  · rw [controllerStep_wait hs hp, controllerStep_wait (s := s.withCfg c) hs hp]
    rfl
  · rw [controllerStep_accept hs hp, controllerStep_accept (s := s.withCfg c) hs hp, withCfg_cfg, withCfg_shadow,
      commandProgram_of_agrees h, commandStatus_of_agrees h]
    rfl
  · rw [controllerStep_op hs hop hc,
      controllerStep_op (s := s.withCfg c) hs hop ((MicroOp.check_of_agrees h op).trans hc)]
    rfl
  · rw [controllerStep_badOp hs hop hc,
      controllerStep_badOp (s := s.withCfg c) hs hop ((MicroOp.check_of_agrees h op).trans hc)]
    rfl
  · rw [controllerStep_complete hs, controllerStep_complete (s := s.withCfg c) hs, complete_withCfg h,
      settleInit_withCfg (s := complete st s) h]
    rfl
  · rw [controllerStep_pastEnd hs hu, controllerStep_pastEnd (s := s.withCfg c) hs hu]
    rfl

theorem advance_withCfg : advance (s.withCfg c) = mapNext (·.withCfg c) (advance s) := by
  rw [advance_eq_mapNext, advance_eq_mapNext, controllerStep_withCfg h]
  cases hs : controllerStep s with
  | next t =>
    have ht : c.AgreesWith t.cfg := by rwa [controllerStep_cfg hs]
    exact congrArg _ (observeChain_withCfg ht s)
  | fault f => rfl
  | refused r => rfl

theorem step_withCfg (hs : s.cfg.valid = true) (hc : c.valid = true) :
    step (s.withCfg c) = mapNext (·.withCfg c) (step s) := by
  have hr : (s.withCfg c).resetNow = s.resetNow := rfl
  have hw : (s.withCfg c).sampled = s.sampled.withCfg c := rfl
  simp only [step, withCfg_cfg, hs, hc, if_true, hr, hw]
  cases s.resetNow with
  | true => exact congrArg _ (resetStep_withCfg (s := s.sampled) h)
  | false => exact advance_withCfg (s := s.sampled) h

end OtherConfiguration

/-- Settles O23: what a step reads of the configuration, the two have in common. -/
theorem handlesAndSpacingUnread : Obligations.HandlesAndSpacingUnread :=
  fun _ _ hs hc hn hoe hrst hsettle htrst hpolicy =>
    step_withCfg ⟨hn, hoe, hrst, hsettle, htrst, hpolicy⟩ hs hc

end Sys2Proof.Machine
end

section
/-! PROOFS. The state and the sequencer (10_state.md): what a step without reset does, how steps compose to commands, what
each command leaves of the lines, and the lengths of the micro-programs. -/

namespace Sys2Proof.Machine

/-! ### The registers of a line -/

theorem LineFile.isSome_get_of_connected {c : Config} {f : LineFile} (hf : linesMatch c f = true) {l : Line}
    (hl : connected c l = true) : (f.get l).isSome = true := by
  simp only [linesMatch, Bool.and_eq_true, beq_iff_eq] at hf
  cases l with
  | data | clock | latch => rfl
  | oe => exact hf.1.trans hl
  | rst => exact hf.2.trans hl

/-- Only CFG writes a mode register, and it sets OUTPUT (10_state.md R36). -/
theorem LineFile.mode_onLines (op : MicroOp) (f : LineFile) (l : Line) :
    ((op.onLines f).get l).map LineReg.mode
      = if op = .cfg l then ((f.get l).map LineReg.mode).map (fun _ => .output) else (f.get l).map LineReg.mode := by
  cases op with
  | cfg k =>
    obtain rfl | h := eq_or_ne k l
    · simp [MicroOp.onLines, LineFile.get_configure, Function.comp_def]
    · simp [MicroOp.onLines, LineFile.get_configure, h, h.symm]
  | set k v => by_cases h : l = k <;> simp [MicroOp.onLines, LineFile.get_drive, h, Function.comp_def]
  | wait t | shb p b x | shz => rfl

/-- SET writes the level register of its line (10_state.md R37). -/
theorem LineFile.level_drive (f : LineFile) (k l : Line) (v : Level) :
    ((f.drive k v).get l).map LineReg.level
      = if l = k then ((f.get l).map LineReg.level).map (fun _ => v) else (f.get l).map LineReg.level := by
  by_cases h : l = k <;> simp [LineFile.get_drive, h, Function.comp_def]

theorem LineFile.level_configure (f : LineFile) (k l : Line) :
    ((f.configure k).get l).map LineReg.level = (f.get l).map LineReg.level := by
  by_cases h : l = k <;> simp [LineFile.get_configure, h, Function.comp_def]

/-- Only SET writes a level register (10_state.md R37). -/
theorem LineFile.level_onLines_of_ne {op : MicroOp} {l : Line} (h : ∀ v, op ≠ .set l v) (f : LineFile) :
    ((op.onLines f).get l).map LineReg.level = (f.get l).map LineReg.level := by
  cases op with
  | cfg k => exact f.level_configure k l
  | set k v =>
    have hne : l ≠ k := fun e => h v (by rw [e])
    exact (f.level_drive k l v).trans (if_neg hne)
  | wait t | shb p b x | shz => rfl

theorem State.pin_of_output {s : State} {l : Line} {v : Level} (hm : s.mode l = some .output)
    (hv : s.level l = some v) : s.pin l = some (.driven v) := by
  obtain ⟨r, hr, hmode⟩ := Option.map_eq_some_iff.mp hm
  have hlevel : r.level = v := by simpa [State.level, hr] using hv
  simp [State.pin, LineFile.pin, hr, LineReg.pin, hmode, hlevel]

theorem State.pin_of_unconfigured {s : State} {l : Line} (hm : s.mode l = some .unconfigured) :
    s.pin l = some .undriven := by
  obtain ⟨r, hr, hmode⟩ := Option.map_eq_some_iff.mp hm
  simp [State.pin, LineFile.pin, hr, (LineReg.pin_undriven r).mpr hmode]

/-- Settles O27: the pin is read off the line's two registers. -/
theorem pinDriven : Obligations.PinDriven := fun _ _ =>
  ⟨fun _ => State.pin_of_output, State.pin_of_unconfigured⟩

/-! ### Reset values -/

/-- Every line is unconfigured after reset (10_state.md R39). -/
theorem LineFile.mode_reset {c : Config} {l : Line} (hl : connected c l = true) :
    ((LineFile.reset c).get l).map LineReg.mode = some .unconfigured := by
  cases l with
  | data | clock | latch => rfl
  | oe | rst => simp_all [LineFile.reset, LineFile.get, connected]

/-- A line configured from any registers drives the level it had (10_state.md R36, R38). -/
theorem LineFile.pin_configure {f : LineFile} {l : Line} {v : Level} (h : (f.get l).map LineReg.level = some v) :
    (f.configure l).pin l = some (.driven v) := by
  obtain ⟨r, hr, rfl⟩ := Option.map_eq_some_iff.mp h
  simp [LineFile.pin, LineFile.get_configure, hr]

/-- Settles O16, register by register. -/
theorem resetValues : Obligations.ResetValues := fun c =>
  ⟨fun _ => rfl, fun _ hl => LineFile.mode_reset hl, rfl, rfl, rfl,
    fun ho => by simp [State.level, LineFile.reset, LineFile.get, ho],
    fun hr => by simp [State.level, LineFile.reset, LineFile.get, hr],
    fun _ _ hv => LineFile.pin_configure hv, rfl, rfl, rfl, rfl⟩

/-! ### A step without reset, in each situation of the sequencer -/

theorem step_of_invalid {s : State} (hv : s.cfg.valid = false) : step s = .refused .invalidConfig :=
  (step_refused_iff s).mpr (by simp [hv])

theorem step_of_reset {s : State} (hv : s.cfg.valid = true) (hr : s.resetNow = true) :
    step s = .next (resetStep s.sampled) := by
  simp [step, hv, hr]

section Quiet

variable {s : State} (hv : s.cfg.valid = true) (hr : s.resetNow = false)
include hv hr

theorem step_of_quiet : step s = advance s.sampled := by
  simp [step, hv, hr]

theorem step_wait (hs : s.seq = .idle) (hp : s.cmdPort = []) : step s = .next (observeChain s.sampled s.sampled) :=
  step_of_advance hv hr (advance_next_iff.mpr ⟨_, controllerStep_wait (s := s.sampled) hs hp, rfl⟩)

theorem step_op {prog : List MicroOp} {upc : Nat} {st : Status} {op : MicroOp} (hs : s.seq = .busy prog upc st)
    (hop : prog[upc]? = some op) (hc : op.check s.cfg = none) :
    step s = .next ((stepOp s.sampled op).withSeq (.busy prog (upc + 1) st)) :=
  step_of_advance hv hr (advance_op (s := s.sampled) hs hop hc)

theorem step_complete {prog : List MicroOp} {st : Status} (hs : s.seq = .busy prog prog.length st) :
    step s = .next (observeChain s.sampled (settleInit prog (complete st s.sampled))) :=
  step_of_advance hv hr (advance_complete (s := s.sampled) hs)

end Quiet

/-- All that a step without reset can do: wait, accept, perform a micro-operation, or complete (10_state.md R45 to R48). -/
theorem quietStep_cases {s t : State} (hr : s.resetNow = false) (h : step s = .next t) :
    (s.seq = .idle ∧ s.cmdPort = [] ∧ t = observeChain s.sampled s.sampled)
    ∨ (∃ c rest, s.seq = .idle ∧ s.cmdPort = c :: rest ∧ t = observeChain s.sampled
        ((s.sampled.withPort rest).withSeq (.busy (commandProgram s.cfg s.shadow c) 0 (commandStatus s.cfg c))))
    ∨ (∃ prog upc st op, s.seq = .busy prog upc st ∧ prog[upc]? = some op ∧
        t = (stepOp s.sampled op).withSeq (.busy prog (upc + 1) st))
    ∨ (∃ prog st, s.seq = .busy prog prog.length st ∧
        t = observeChain s.sampled (settleInit prog (complete st s.sampled))) := by
  obtain ⟨-, ⟨hr', -⟩ | ⟨-, u, hu, rfl⟩⟩ := step_cases h
  · simp [hr] at hr'
  · obtain ⟨hs, hp, rfl⟩ | ⟨c, rest, hs, hp, rfl⟩ | ⟨prog, upc, st, op, hs, hop, -, rfl⟩ | ⟨prog, st, hs, rfl⟩ :=
      controllerStep_cases hu
    · exact .inl ⟨hs, hp, rfl⟩
    · exact .inr (.inl ⟨c, rest, hs, hp, rfl⟩)
    · exact .inr (.inr (.inl ⟨prog, upc, st, op, hs, hop, rfl⟩))
    · exact .inr (.inr (.inr ⟨prog, st, hs, rfl⟩))

/-- A reset step is the only step with reset asserted (70_reset_and_hazards.md R282). -/
theorem resetStep_of_step {s t : State} (hr : s.resetNow = true) (h : step s = .next t) : t = resetStep s.sampled := by
  obtain ⟨-, ⟨-, ht⟩ | ⟨hr', -⟩⟩ := step_cases h
  · exact ht
  · simp [hr] at hr'

/-- The step that performs a micro-operation has its effect and its event (10_state.md R46). -/
theorem quietStep_of_currentOp {s t : State} {op : MicroOp} (hr : s.resetNow = false) (h : step s = .next t)
    (ho : s.currentOp = some op) :
    t.lines = op.onLines s.lines ∧ t.shadow = op.onShadow s.shadow ∧ t.trace = s.trace ++ op.event.toList := by
  obtain ⟨hs, -, rfl⟩ | ⟨c, rest, hs, -, rfl⟩ | ⟨prog, upc, st, op', hs, hop, rfl⟩ | ⟨prog, st, hs, rfl⟩ :=
    quietStep_cases hr h
  · simp [State.currentOp, hs] at ho
  · simp [State.currentOp, hs] at ho
  · obtain rfl : op' = op := by simpa [State.currentOp, hs, hop] using ho
    exact ⟨rfl, rfl, rfl⟩
  · simp [State.currentOp, hs] at ho

/-- A step without reset that performs no micro-operation writes no line and no shadow bit (10_state.md R45, R47, R48). -/
theorem quietStep_of_no_currentOp {s t : State} (hr : s.resetNow = false) (h : step s = .next t)
    (ho : s.currentOp = none) : t.lines = s.lines ∧ t.shadow = s.shadow := by
  obtain ⟨-, -, rfl⟩ | ⟨c, rest, -, -, rfl⟩ | ⟨prog, upc, st, op, hs, hop, rfl⟩ | ⟨prog, st, -, rfl⟩ :=
    quietStep_cases hr h
  · exact ⟨rfl, rfl⟩
  · exact ⟨rfl, rfl⟩
  · simp [State.currentOp, hs, hop] at ho
  · exact ⟨rfl, rfl⟩

/-! ### What a step writes -/

/-- Settles O24: only a micro-operation and a completion emit, and each emits at most one event. -/
theorem traceExtendsByAtMostOneEvent : Obligations.TraceExtendsByAtMostOneEvent := by
  intro s t h
  cases hr : s.resetNow with
  | true => exact .inl (by rw [resetStep_of_step hr h]; rfl)
  | false =>
    obtain ⟨-, -, rfl⟩ | ⟨c, rest, -, -, rfl⟩ | ⟨prog, upc, st, op, -, -, rfl⟩ | ⟨prog, st, -, rfl⟩ :=
      quietStep_cases hr h
    · exact .inl rfl
    · exact .inl rfl
    · cases he : op.event with
      | none => exact .inl (by simp [stepOp, he])
      | some e => exact .inr ⟨e, by simp [stepOp, he]⟩
    · exact .inr ⟨_, rfl⟩

/-- Settles O25: a step without reset changes the lines by its current micro-operation alone. -/
theorem modeWrittenOnlyByCfg : Obligations.ModeWrittenOnlyByCfg := by
  intro s t l h
  constructor
  · intro hr
    cases ho : s.currentOp with
    | none => simp [State.mode, (quietStep_of_no_currentOp hr h ho).1]
    | some op =>
      simp only [State.mode, (quietStep_of_currentOp hr h ho).1, Option.some.injEq]
      exact LineFile.mode_onLines op s.lines l
  · intro hr hl
    rw [resetStep_of_step hr h]
    exact LineFile.mode_reset hl

/-- Settles O26: a step without reset changes the lines by its current micro-operation alone. -/
theorem levelWrittenOnlyBySet : Obligations.LevelWrittenOnlyBySet := by
  intro s t l hr h
  constructor
  · intro v ho
    obtain ⟨hlines, -, htrace⟩ := quietStep_of_currentOp hr h ho
    refine ⟨?_, htrace, fun hm => State.pin_of_unconfigured ?_⟩
    · rw [State.level, hlines]
      exact (s.lines.level_drive l l v).trans (if_pos rfl)
    · rw [State.mode, hlines]
      exact (LineFile.mode_onLines _ s.lines l).trans hm
  · intro hne
    cases ho : s.currentOp with
    | none => rw [State.level, (quietStep_of_no_currentOp hr h ho).1, State.level]
    | some op =>
      rw [State.level, (quietStep_of_currentOp hr h ho).1]
      exact LineFile.level_onLines_of_ne (fun v e => hne v (by rw [ho, e])) s.lines

/-- Settles O28: of the micro-operations only SHB and SHZ touch the shadow. -/
theorem shadowWrittenOnlyByItsOps : Obligations.ShadowWrittenOnlyByItsOps := by
  intro s t hr h hne
  cases ho : s.currentOp with
  | none => exact absurd (quietStep_of_no_currentOp hr h ho).2 hne
  | some op =>
    obtain ⟨-, hshadow, -⟩ := quietStep_of_currentOp hr h ho
    cases op with
    | cfg _ | set _ _ | wait _ => exact absurd hshadow hne
    | shb p b x => exact .inr ⟨p, b, x, rfl, hshadow⟩
    | shz => exact .inl rfl

/-! ### The accept step and the handshake -/

/-- A busy sequencer does not read what the host presents (10_state.md R42, R50). -/
theorem busyStep_withPort (prog : List MicroOp) (upc : Nat) (st : Status) (s : State) (cs : List Command) :
    busyStep prog upc st (s.withPort cs) = mapNext (·.withPort cs) (busyStep prog upc st s) := by
  unfold busyStep perform
  cases prog[upc]? with
  | none => dsimp only; split <;> rfl
  | some op => cases hc : op.check s.cfg <;> simp [hc] <;> rfl

theorem advance_withPort {s : State} (hs : s.seq ≠ .idle) (cs : List Command) :
    advance (s.withPort cs) = mapNext (·.withPort cs) (advance s) := by
  unfold advance controllerStep
  simp only [withPort_seq]
  cases hq : s.seq with
  | idle => exact absurd hq hs
  | busy prog upc st =>
    dsimp only
    rw [busyStep_withPort]
    cases busyStep prog upc st s <;> rfl

theorem step_withPort {s : State} (hs : s.seq ≠ .idle) (cs : List Command) :
    step (s.withPort cs) = mapNext (·.withPort cs) (step s) := by
  cases hv : s.cfg.valid with
  | false => rw [step_of_invalid hv, step_of_invalid (s := s.withPort cs) hv]; rfl
  | true =>
    cases hr : s.resetNow with
    | true => rw [step_of_reset hv hr, step_of_reset (s := s.withPort cs) hv hr]; rfl
    | false =>
      rw [step_of_quiet hv hr, step_of_quiet (s := s.withPort cs) hv hr]
      exact advance_withPort (s := s.sampled) hs cs

/-- Settles O9: each command's accept step starts its micro-program, and a busy step does not read the port. -/
theorem acceptStep : Obligations.AcceptStep := by
  refine ⟨fun s wdata hs => ⟨?_, ?_, ?_, ?_, ?_, ?_, ?_, ?_⟩, fun s cs hs => step_withPort hs cs⟩
  · intro cw i hd
    simp [acceptCommand, hd]
  · intro cw why hd
    simp [acceptCommand, hd, rejectCommand, startCommand_idle hs]
  · exact startCommand_idle hs _ _
  · exact fun ord => startCommand_idle hs _ _
  · intro pin x hp
    have hpin : pinNumber pin < s.cfg.pins := hp
    rw [exec_eq, startCommand_idle hs, programOf, statusOf, if_pos hpin, if_pos hpin, pinNumber]
  · intro pin x hp
    have hpin : ¬ pinNumber pin < s.cfg.pins := Nat.not_lt.mpr hp
    rw [exec_eq, startCommand_idle hs, programOf, statusOf, if_neg hpin, if_neg hpin]
    cases s.cfg.pinPolicy <;> rfl
  · exact fun latch => startCommand_idle hs _ _
  · exact startCommand_idle hs _ _

/-- `cmd_ready` (10_state.md R42). -/
theorem cmdReady_iff (s : State) : s.cmdReady = true ↔ s.seq = .idle := by simp [State.cmdReady]

/-- Settles O14, by what a step can do in each situation of the sequencer. -/
theorem commandHandshake : Obligations.CommandHandshake := by
  intro s t h
  refine ⟨cmdReady_iff s, ?_⟩
  cases hr : s.resetNow with
  | true =>
    rw [resetStep_of_step hr h]
    exact ⟨by simp, fun _ _ _ _ => .inl rfl⟩
  | false =>
    obtain ⟨hs, hp, rfl⟩ | ⟨c, rest, hs, hp, rfl⟩ | ⟨prog, upc, st, op, hs, hop, rfl⟩ | ⟨prog, st, hs, rfl⟩ :=
      quietStep_cases hr h
    · simp [State.cmdReady, hs, hp]
    · simp [State.cmdReady, hs, hp]
    · obtain ⟨hlt, -⟩ := List.getElem?_eq_some_iff.mp hop
      simp [State.cmdReady, hs, hlt, stepOp]
    · simp [State.cmdReady, hs]

/-! ### The micro-operation step and the completion step -/

theorem MicroOp.check_cfg_iff {c : Config} {l : Line} :
    (MicroOp.cfg l).check c = none ↔ connected c l = true := by
  simp [MicroOp.check]

theorem MicroOp.check_set_iff {c : Config} {l : Line} {v : Level} :
    (MicroOp.set l v).check c = none ↔ connected c l = true := by
  simp [MicroOp.check]

theorem MicroOp.check_shb_iff {c : Config} {p b : Nat} {x : Bool} :
    (MicroOp.shb p b x).check c = none ↔ p < c.n ∧ b < 8 := by
  simp [MicroOp.check]

/-- What the invariant asks of a command in flight (10_state.md R41, R43, 60_exceptions.md R231). -/
theorem seqWf_busy_iff {c : Config} {prog : List MicroOp} {upc : Nat} {st : Status} :
    seqWf c (.busy prog upc st) = true ↔ upc ≤ prog.length ∧ ProgOk c prog ∧ (st = .ok ∨ prog = []) := by
  simp [seqWf, ProgOk, and_assoc]

/-- What a state of the invariant with a command in flight gives its steps. -/
theorem State.Inv.busy {s : State} (hi : s.Inv) {prog : List MicroOp} {upc : Nat} {st : Status}
    (hs : s.seq = .busy prog upc st) : s.cfg.valid = true ∧ upc ≤ prog.length ∧ ProgOk s.cfg prog := by
  obtain ⟨hv, -, -, hq, -⟩ := (State.inv_iff s).mp hi
  obtain ⟨hu, hok, -⟩ := seqWf_busy_iff.mp (hs ▸ hq)
  exact ⟨hv, hu, hok⟩

/-- Settles O10: the invariant gives the registers and shadow bits that the micro-operation names. -/
theorem microOperationStep : Obligations.MicroOperationStep := by
  intro s prog upc st op hi hr hs hop
  obtain ⟨-, hm, hl, -⟩ := (State.inv_iff s).mp hi
  obtain ⟨hv, -, hok⟩ := hi.busy hs
  have hc : op.check s.cfg = none := hok op (List.mem_of_getElem? hop)
  refine ⟨_, step_op hv hr hs hop hc, rfl, rfl, rfl, rfl, ?_⟩
  cases op with
  | cfg l =>
    obtain ⟨r, hget⟩ := Option.isSome_iff_exists.mp
      (LineFile.isSome_get_of_connected hl (MicroOp.check_cfg_iff.mp hc))
    refine ⟨fun l' => (LineFile.mode_onLines (.cfg l) s.lines l').trans ?_, s.lines.level_configure l, rfl, rfl⟩
    by_cases hll : l' = l
    · simp [hll, hget]
    · simp [hll, Ne.symm hll, State.mode]
  | set l v =>
    obtain ⟨r, hget⟩ := Option.isSome_iff_exists.mp
      (LineFile.isSome_get_of_connected hl (MicroOp.check_set_iff.mp hc))
    refine ⟨fun l' => (s.lines.level_drive l l' v).trans ?_, LineFile.mode_onLines (.set l v) s.lines, rfl, rfl⟩
    by_cases hll : l' = l
    · simp [hll, hget]
    · simp [hll, State.level]
  | wait d => exact ⟨rfl, rfl, rfl⟩
  | shb p b x =>
    exact ⟨rfl, List.append_nil _,
      fun q c hc' => Memory.bit_writeBit hm (MicroOp.check_shb_iff.mp hc).2 p q c hc' x⟩
  | shz => exact ⟨rfl, List.append_nil _, fun _ => rfl⟩

/-- Byte `p` of a packed number is part `p` (20_memory.md R74). -/
theorem packParts_byte (f : Nat → Byte) {n p : Nat} (hp : p < n) : packParts f n / 256 ^ p % 256 = (f p).toNat := by
  induction n with
  | zero => omega
  | succ n ih =>
    rw [packParts]
    obtain hlt | rfl := Nat.lt_succ_iff_lt_or_eq.mp hp
    · obtain ⟨k, rfl⟩ := Nat.exists_eq_add_of_lt hlt
      have hpow : (f (p + k + 1)).toNat * 256 ^ (p + k + 1) = 256 ^ p * (256 * ((f (p + k + 1)).toNat * 256 ^ k)) := by
        ring
      rw [hpow, Nat.add_mul_div_left _ _ (by positivity), Nat.add_mul_mod_self_left, ih hlt]
    · have hlow : packParts f p < 256 ^ p := by
        have := packParts_lt f p
        rwa [pow_mul] at this
      rw [Nat.add_mul_div_right _ _ (by positivity), Nat.div_eq_of_lt hlow, Nat.zero_add]
      exact Nat.mod_eq_of_lt (f p).isLt

/-- Settles O11, with `rdata` the packed image of the shadow. -/
theorem completionStep : Obligations.CompletionStep := by
  intro s prog st hv hr hs
  refine ⟨_, s.rdata, step_complete hv hr hs, rfl, rfl, fun p hp => packParts_byte _ hp, ?_, rfl, rfl, rfl, rfl⟩
  have hlt := packParts_lt s.shadow.read s.cfg.n
  rwa [pow_mul] at hlt

/-! ### Runs without reset -/

theorem State.QuietFor.mono {s : State} {j k : Nat} (h : s.QuietFor k) (hjk : j ≤ k) : s.QuietFor j :=
  fun x hx => h x (List.take_subset_take_left _ hjk hx)

/-- The first step of a quiet time is quiet, and so is what is left of that time after it. -/
theorem State.QuietFor.succ {s : State} {k : Nat} (h : s.QuietFor (k + 1)) :
    s.resetNow = false ∧ ∀ t : State, t.resetIn = s.resetIn.tail → t.QuietFor k := by
  unfold State.QuietFor at h
  cases hin : s.resetIn with
  | nil => exact ⟨by simp [State.resetNow, hin], fun t ht x hx => by simp [ht] at hx⟩
  | cons b bs =>
    simp only [hin, List.take_succ_cons, List.forall_mem_cons] at h
    exact ⟨by simp [State.resetNow, hin, h.1], fun t ht => by rw [State.QuietFor, ht]; exact h.2⟩

/-- The controller's step does not read the coming samples of the reset input. -/
theorem controllerStep_withResetIn (s : State) (rs : List Bool) :
    controllerStep (s.withResetIn rs) = mapNext (·.withResetIn rs) (controllerStep s) := by
  obtain ⟨hs, hp⟩ | ⟨c, rest, hs, hp⟩ | ⟨prog, upc, st, op, hs, hop, hc⟩ | ⟨prog, upc, st, op, f, hs, hop, hc⟩ |
    ⟨prog, st, hs⟩ | ⟨prog, upc, st, hs, hu⟩ := controllerStep_situations s
  · rw [controllerStep_wait hs hp, controllerStep_wait (s := s.withResetIn rs) hs hp]; rfl
  · rw [controllerStep_accept hs hp, controllerStep_accept (s := s.withResetIn rs) hs hp]; rfl
  · rw [controllerStep_op hs hop hc, controllerStep_op (s := s.withResetIn rs) hs hop hc]; rfl
  · rw [controllerStep_badOp hs hop hc, controllerStep_badOp (s := s.withResetIn rs) hs hop hc]; rfl
  · rw [controllerStep_complete hs, controllerStep_complete (s := s.withResetIn rs) hs]; rfl
  · rw [controllerStep_pastEnd hs hu, controllerStep_pastEnd (s := s.withResetIn rs) hs hu]; rfl

theorem advance_withResetIn (s : State) (rs : List Bool) :
    advance (s.withResetIn rs) = mapNext (·.withResetIn rs) (advance s) := by
  rw [advance_eq_mapNext, advance_eq_mapNext, controllerStep_withResetIn]
  cases controllerStep s <;> rfl

/-- A step without reset keeps the configuration and the reset samples. -/
theorem advance_cfg_resetIn {s t : State} (h : advance s = .next t) : t.cfg = s.cfg ∧ t.resetIn = s.resetIn := by
  obtain ⟨u, hu, rfl⟩ := advance_next_iff.mp h
  obtain ⟨-, -, rfl⟩ | ⟨c, rest, -, -, rfl⟩ | ⟨prog, upc, st, op, -, -, -, rfl⟩ | ⟨prog, st, -, rfl⟩ :=
    controllerStep_cases hu <;> exact ⟨rfl, rfl⟩

theorem coreRun_fault {M : Host.Core} {k : Nat} {s : M.State} {f : M.Fault} (h : M.step s = .fault f) :
    M.run (k + 1) s = .fault f := by
  simp only [Host.Core.run, h]

theorem coreRun_refused {M : Host.Core} {k : Nat} {s : M.State} {r : M.Refusal} (h : M.step s = .refused r) :
    M.run (k + 1) s = .refused r := by
  simp only [Host.Core.run, h]

/-- With no reset for `k` steps, `k` steps of the machine are `k` steps of the controller, and take `k` samples of the reset
input. -/
theorem runSteps_quiet {k : Nat} {s : State} (hv : s.cfg.valid = true) (hq : s.QuietFor k) :
    runSteps k s = advanceN k (s.withResetIn (s.resetIn.drop k)) := by
  induction k generalizing s with
  | zero => rfl
  | succ k ih =>
    obtain ⟨hr, hrest⟩ := hq.succ
    have hstep := step_of_quiet hv hr
    have hw : advance (s.withResetIn (s.resetIn.drop (k + 1)))
        = mapNext (·.withResetIn (s.resetIn.drop (k + 1))) (advance s.sampled) :=
      advance_withResetIn s.sampled _
    rw [advanceN, hw]
    cases ha : advance s.sampled with
    | next t =>
      obtain ⟨hcfg, hin⟩ := advance_cfg_resetIn ha
      rw [runSteps_next (hstep.trans ha), ih (hcfg ▸ hv) (hrest t hin), hin]
      simp [mapNext]
    | fault f => exact coreRun_fault (M := Sys2Proof.core) (hstep.trans ha)
    | refused r => exact coreRun_refused (M := Sys2Proof.core) (hstep.trans ha)

/-- Settles O12: a quiet run is a run of the controller, which performs the micro-operations left and completes. -/
theorem commandLatency : Obligations.CommandLatency := by
  constructor
  · intro s prog upc st hi hs hq
    obtain ⟨hv, hu, hok⟩ := hi.busy hs
    constructor
    · intro k hk
      rw [runSteps_quiet hv (hq.mono (by omega)), advanceN_ops (s := s.withResetIn (s.resetIn.drop k)) hs hok k hk]
      exact ⟨_, rfl, rfl⟩
    · have hfinish := finish_busy (s := s.withResetIn (s.resetIn.drop (prog.length - upc + 1))) hs hok hu
      simp only [finish, withResetIn_seq, hs, Seq.stepsLeft] at hfinish
      rw [runSteps_quiet hv hq, hfinish]
      exact ⟨_, rfl, rfl⟩
  · intro s hi hr hs hp
    obtain ⟨hv, -⟩ := (State.inv_iff s).mp hi
    exact ⟨_, step_wait hv hr hs hp, hs, rfl, rfl, rfl⟩

/-- From an idle controller that presents a command, the accept step and the steps the command then takes are the command
level's run of it (10_state.md R52). -/
theorem advanceN_accept {s : State} {c : Command} {rest : List Command} (hs : s.seq = .idle)
    (hp : s.cmdPort = c :: rest) :
    advanceN ((commandProgram s.cfg s.shadow c).length + 2) s = runCommand c (s.withPort rest) := by
  have haccept : advance s = .next (observeChain (s.withPort rest) ((s.withPort rest).withSeq
      (.busy (commandProgram s.cfg s.shadow c) 0 (commandStatus s.cfg c)))) :=
    advance_next_iff.mpr ⟨_, controllerStep_accept hs hp, rfl⟩
  rw [advanceN, haccept, runCommand, acceptCommand_idle (s := s.withPort rest) hs]
  rfl

/-- Settles O15: a quiet run is a run of the controller, whose accept step and what follows is `runCommand`. -/
theorem stepsComposeToCommand : Obligations.StepsComposeToCommand := by
  intro s c rest k hi hs hp hk hq
  subst hk
  obtain ⟨hv, -⟩ := (State.inv_iff s).mp hi
  have hsteps := (runSteps_quiet hv hq).trans (advanceN_accept (s := s.withResetIn _) hs hp)
  have hcommand := fun rs => runCommand_idle (s := (s.withPort rest).withResetIn rs) hs c
  exact ⟨_, _, hcommand _, hsteps.trans (hcommand _), rfl, (afterCommand_trace _ _ _).trans (List.append_assoc _ _ _)⟩

/-! ### The lengths of the micro-programs -/

theorem zeroCells_length (n : Nat) : (zeroCells n).length = 24 * n := by
  have hcell : (fastCell false).length = 3 := rfl
  simp only [zeroCells, List.length_flatten, List.map_replicate, List.sum_replicate, hcell, smul_eq_mul]
  omega

theorem latchedFrame_length (body : List MicroOp) : (latchedFrame body).length = body.length + 2 := by
  simp [latchedFrame]

theorem progAllOff_length (c : Config) (latch : Bool) :
    (progAllOff c latch).length = if latch then 3 + 24 * c.n else 24 * c.n := by
  cases latch with
  | false => exact zeroCells_length c.n
  | true => simp [progAllOff, latchedFrame_length, zeroCells_length]; omega

/-- INIT's micro-operations: step 1, the optional OE and RST steps, ALL_OFF with its latch, the final OE (40_bringup.md
R141). -/
theorem progInit_length (c : Config) :
    (progInit c).length = 9 + 24 * c.n + (if c.hasOe then 3 else 0) + (if c.hasRst then 6 else 0) := by
  simp only [progInit, List.length_append, progAllOff_length, initLines, initOe, initRst, initEnable]
  cases c.hasOe <;> cases c.hasRst <;> simp <;> omega

/-- WRITE has `2 + 40*N` micro-operations (41_write.md R162). -/
theorem progWrite_length (c : Config) (wdata : Nat) (ord : BitOrder) :
    (progWrite c wdata ord).length = 2 + 40 * c.n := by
  have hcell : ∀ x : Nat × Nat, (writeCell c ord wdata x.1 x.2).length = 5 := fun _ => rfl
  simp only [progWrite, latchedFrame_length, List.length_flatMap, hcell, List.map_const', List.sum_replicate,
    slots_length, smul_eq_mul]
  omega

theorem slots_nodup (n : Nat) : (slots n).Nodup := List.nodup_range.product List.nodup_range

/-- The slot that carries pin `k` in a frame sent MSB first. -/
def pinSlot (k : Nat) : Nat × Nat := (pinPart k, wireBit .msbFirst (pinBit k))

theorem pinSlot_mem {c : Config} {pin : Nat} (hp : pin < c.pins) : pinSlot pin ∈ slots c.n := by
  refine mem_slots.mpr ⟨?_, wireBit_lt _ (Nat.mod_lt _ (by omega))⟩
  unfold pinPart Config.pins at *
  omega

/-- A cell of WRITE_PIN is a fast cell, with one micro-operation more at the target. -/
theorem pinCell_length (m : Memory) (pin : Nat) (x : Bool) {y : Nat × Nat} (hy : y.2 < 8) :
    (pinCell m pin x y.1 y.2).length = 3 + if y = pinSlot pin then 1 else 0 := by
  have htarget : (y.1 = pinPart pin ∧ wireBit .msbFirst y.2 = pinBit pin) ↔ y = pinSlot pin := by
    have hbit : pinBit pin < 8 := Nat.mod_lt _ (by omega)
    simp only [pinSlot, Prod.ext_iff, wireBit]
    omega
  unfold pinCell
  rw [if_congr htarget rfl rfl]
  split <;> rfl

theorem pinCells_length (m : Memory) (pin : Nat) (x : Bool) {ys : List (Nat × Nat)} (hys : ∀ y ∈ ys, y.2 < 8) :
    (ys.flatMap fun y => pinCell m pin x y.1 y.2).length = 3 * ys.length + ys.count (pinSlot pin) := by
  induction ys with
  | nil => rfl
  | cons y ys ih =>
    rw [List.flatMap_cons, List.length_append, pinCell_length m pin x (hys y List.mem_cons_self),
      ih fun z hz => hys z (List.mem_cons_of_mem y hz), List.count_cons, List.length_cons]
    simp only [beq_iff_eq]
    omega

/-- WRITE_PIN in range has one target cell, and `3 + 24*N` micro-operations (42_write_pin.md R181). -/
theorem progPin_length {c : Config} {pin : Nat} (hp : pin < c.pins) (m : Memory) (x : Bool) :
    (progPin c m pin x).length = 3 + 24 * c.n := by
  rw [progPin, latchedFrame_length, pinCells_length m pin x fun y hy => (mem_slots.mp hy).2,
    List.count_eq_one_of_mem (slots_nodup c.n) (pinSlot_mem hp), slots_length]
  omega

/-- Every micro-program but WRITE's is within the bound of INIT's (10_state.md R44, log entry 11). -/
theorem programOf_length (c : Config) (m : Memory) (i : Instr) :
    (programOf c m i).length ≤ 18 + 24 * c.n ∨
      ∃ ord w, i = .write ord w ∧ (programOf c m i).length = 2 + 40 * c.n := by
  cases i with
  | init => left; rw [programOf, progInit_length]; split <;> split <;> omega
  | write ord w => exact .inr ⟨ord, w, rfl, progWrite_length c w ord⟩
  | writePin pin x =>
    left
    rw [programOf]
    split
    · next hp => rw [progPin_length hp]; omega
    · simp
  | allOff latch => left; rw [programOf, progAllOff_length]; split <;> omega
  | state => left; simp [programOf, progState]

/-- Where the micro-program counter of a busy sequencer comes from: an accept starts it, a micro-operation moves it by one. -/
theorem step_upc {s t : State} {prog : List MicroOp} {upc : Nat} {st : Status} (h : step s = .next t)
    (ht : t.seq = .busy prog upc st) :
    upc ≤ prog.length ∧ ((s.seq = .idle ∧ upc = 0) ∨ ∃ k, s.seq = .busy prog k st ∧ upc = k + 1) := by
  cases hr : s.resetNow with
  | true => simp [resetStep_of_step hr h] at ht
  | false =>
    obtain ⟨hs, -, rfl⟩ | ⟨c, rest, hs, -, rfl⟩ | ⟨prog', k, st', op, hs, hop, rfl⟩ | ⟨prog', st', -, rfl⟩ :=
      quietStep_cases hr h
    · simp [hs] at ht
    · obtain ⟨-, rfl, -⟩ := Seq.busy.inj ht
      exact ⟨Nat.zero_le _, .inl ⟨hs, rfl⟩⟩
    · obtain ⟨rfl, rfl, rfl⟩ := Seq.busy.inj ht
      obtain ⟨hlt, -⟩ := List.getElem?_eq_some_iff.mp hop
      exact ⟨hlt, .inr ⟨k, hs, rfl⟩⟩
    · simp at ht

/-- Settles O53, from the inversion of a step and the lengths of the micro-programs. -/
theorem programCounterBounds : Obligations.ProgramCounterBounds := by
  refine ⟨fun s t prog upc st _ h ht => step_upc h ht, fun c m ho hr => ?_, fun c hv => ?_, fun c m cmd => ?_⟩
  · rw [programOf, progInit_length, if_pos ho, if_pos hr]; omega
  · obtain ⟨-, hn, -⟩ := c.valid_iff.mp hv
    omega
  · unfold commandProgram
    cases hd : decode cmd.cw cmd.wdata with
    | instr i =>
      simp only [Decoded.instr.injEq]
      exact programOf_length c m i
    | illegal why => exact .inl (Nat.zero_le _)

/-! ### Booted lines -/

theorem LineFile.outputs_booted {d : Level} {oe rst : Option Level} (ho : oe = none ∨ oe = some .low)
    (hr : rst = none ∨ rst = some .high) : (LineFile.outputs d .low .high oe rst).booted = true := by
  obtain rfl | rfl := ho <;> obtain rfl | rfl := hr <;> rfl

/-- Cells on driven lines with CLOCK LOW write DATA alone. -/
theorem afterBits_outputs (ds : List Bool) (d l : Level) (oe rst : Option Level) :
    afterBits ds (LineFile.outputs d .low l oe rst) = LineFile.outputs (lastLevel d ds) .low l oe rst := by
  induction ds generalizing d with
  | nil => rfl
  | cons x ds ih => rw [afterBits_cons]; exact ih (lvl x)

/-- A latched frame on driven lines with CLOCK LOW leaves LATCH HIGH and writes DATA besides. -/
theorem latchedBits_outputs (ds : List Bool) (d l : Level) (oe rst : Option Level) :
    (afterBits ds ((LineFile.outputs d .low l oe rst).drive .latch .low)).drive .latch .high
      = LineFile.outputs (lastLevel d ds) .low .high oe rst :=
  congrArg (LineFile.drive · .latch .high) (afterBits_outputs ds d .low oe rst)

/-- INIT boots the lines from any registers (10_state.md R53, 40_bringup.md R143). -/
theorem progInit_booted {c : Config} {f : LineFile} (hf : linesMatch c f = true) :
    ((progInit c).foldl (fun f op => MicroOp.onLines op f) f).booted = true := by
  rw [progInit_split, List.foldl_append, List.foldl_append, initPrefix_lines c hf, progAllOff_lines, if_pos rfl,
    latchedBits_outputs, initEnable]
  cases c.hasOe <;> cases c.hasRst <;> rfl

/-- Every micro-program keeps booted lines booted (10_state.md R53). -/
theorem programOf_booted {c : Config} (m : Memory) (i : Instr) {f : LineFile} (hf : linesMatch c f = true)
    (hb : f.booted = true) : ((programOf c m i).foldl (fun f op => MicroOp.onLines op f) f).booted = true := by
  obtain ⟨d, oe, rst, rfl, ho, hr⟩ := LineFile.exists_booted hb
  cases i with
  | init => exact progInit_booted hf
  | write ord w =>
    rw [programOf, progWrite_lines, latchedBits_outputs]
    exact LineFile.outputs_booted ho hr
  | writePin pin x =>
    rw [programOf]
    split
    · rw [progPin_lines, latchedBits_outputs]
      exact LineFile.outputs_booted ho hr
    · exact hb
  | allOff latch =>
    rw [programOf, progAllOff_lines, latchedBits_outputs, afterBits_outputs]
    split <;> exact LineFile.outputs_booted ho hr
  | state => exact hb

theorem commandProgram_booted {c : Config} (m : Memory) (cmd : Command) {f : LineFile} (hf : linesMatch c f = true)
    (hb : f.booted = true) : ((commandProgram c m cmd).foldl (fun f op => MicroOp.onLines op f) f).booted = true := by
  unfold commandProgram
  cases decode cmd.cw cmd.wdata with
  | instr i => exact programOf_booted m i hf hb
  | illegal why => exact hb

/-- Settles O49, from what each micro-program does to the lines. -/
theorem bootedKept : Obligations.BootedKept := by
  constructor
  · intro s hi hs
    obtain ⟨-, -, hl, -⟩ := (State.inv_iff s).mp hi
    refine ⟨_, runInstr_idle hs .init, afterCommand_inv hi (programOf_ok _ _ _) _, ?_, ?_⟩
    · rw [afterCommand_lines]
      exact progInit_booted hl
    · simp [programOf]
  · intro s c hi hs hb
    obtain ⟨-, -, hl, -⟩ := (State.inv_iff s).mp hi
    refine ⟨_, runCommand_idle hs c, afterCommand_inv hi (commandProgram_ok _ _ _) _, ?_, fun ha => ?_⟩
    · rw [afterCommand_lines]
      exact commandProgram_booted s.shadow c hl hb
    · simp [ha]

end Sys2Proof.Machine
end

section
/-! PROOFS. The shadow as memory (20_memory.md): the names of its bits (R71), the layout of the response (R74), that a
frame's effect on the outputs is atomic at its latch edge (R79), and that every command is idempotent (R80). -/

namespace Sys2Proof.Machine

/-! ### Pins -/

theorem pinPart_lt {n k : Nat} (hk : k < 8 * n) : pinPart k < n := Nat.div_lt_of_lt_mul hk

theorem pinBit_lt (k : Nat) : pinBit k < 8 := Nat.mod_lt k (by omega)

/-- No two pins name the same shadow bit (20_memory.md R71). -/
theorem pinName_eq_iff {j k : Nat} : (pinPart j = pinPart k ∧ pinBit j = pinBit k) ↔ j = k := by
  unfold pinPart pinBit
  omega

/-- Settles O30: a bit write reaches the bit it names, and a pin's name is its own. -/
theorem pinNamesOneBit : Obligations.PinNamesOneBit := by
  intro n m k j x hm hk _
  refine ⟨rfl, rfl, pinPart_lt hk, pinBit_lt k, ?_⟩
  rw [Memory.bit_writeBit hm (pinBit_lt k) _ _ _ (pinBit_lt j), if_congr pinName_eq_iff rfl rfl]

/-! ### The layout of the response -/

theorem packParts_eq_sum (f : Nat → Byte) (n : Nat) :
    packParts f n = ((List.range n).map fun p => (f p).toNat * 256 ^ p).sum := by
  induction n with
  | zero => rfl
  | succ n ih => simp [packParts, ih, List.range_succ]

/-- Settles O31: the packed image is a sum, whose bytes are the parts, whose bits are theirs. -/
theorem responseLayout : Obligations.ResponseLayout := by
  intro n m
  refine ⟨packParts_eq_sum _ n, fun p hp => packParts_byte _ hp, fun p b hp hb => ?_⟩
  rw [testBit_byte _ _ hb, rdataOf, packParts_byte _ hp]
  rfl

/-! ### The latch edge -/

/-- Driven lines stay driven: no micro-operation takes a line out of OUTPUT (10_state.md R36). -/
theorem MicroOp.onLines_keeps_driven (op : MicroOp) {f : LineFile} (hf : f.anyUndriven = false) :
    (op.onLines f).anyUndriven = false := by
  rw [LineFile.driven_iff] at hf ⊢
  intro l r hr
  have hmode := LineFile.mode_onLines op f l
  rw [hr] at hmode
  cases hget : f.get l with
  | none => simp [hget] at hmode
  | some r' =>
    simp only [hget, Option.map_some, hf l r' hget, ite_self, Option.some.injEq] at hmode
    exact hmode

/-- A step without reset on a known chain: the chain follows the lines (60_exceptions.md R260). -/
theorem quietStep_chain {s t : State} (hr : s.resetNow = false) (h : step s = .next t) (ha : s.abandoned = false) :
    t.chain = Chain.observe s.cfg.n s.freeTick s.lines t.lines s.chain := by
  obtain ⟨-, -, rfl⟩ | ⟨c, rest, -, -, rfl⟩ | ⟨prog, upc, st, op, -, -, rfl⟩ | ⟨prog, st, -, rfl⟩ :=
    quietStep_cases hr h <;> simp [stepOp, ha]

/-- A rising edge shows in the line's level register, before and after (10_state.md R38). -/
theorem level_of_risingEdge {f g : LineFile} {l : Line} (h : risingEdge f g l = true) :
    (f.get l).map LineReg.level = some .low ∧ (g.get l).map LineReg.level = some .high := by
  have hpin : ∀ (f : LineFile) (v : Level), f.pin l = some (.driven v) → (f.get l).map LineReg.level = some v := by
    intro f v hv
    obtain ⟨⟨mode, level⟩, hget, hp⟩ := Option.map_eq_some_iff.mp hv
    cases mode with
    | output => simpa [hget] using hp
    | unconfigured => simp at hp
  simp only [risingEdge, Bool.and_eq_true, beq_iff_eq] at h
  exact ⟨hpin f .low h.1, hpin g .high h.2⟩

theorem not_risingEdge_self (f : LineFile) (l : Line) : risingEdge f f l = false := by
  rw [Bool.eq_false_iff]
  intro h
  obtain ⟨hlow, hhigh⟩ := level_of_risingEdge h
  simp [hlow] at hhigh

/-- Only SET of a line to HIGH raises it (10_state.md R37). -/
theorem MicroOp.eq_set_of_risingEdge {op : MicroOp} {f : LineFile} {l : Line}
    (h : risingEdge f (op.onLines f) l = true) : op = .set l .high := by
  obtain ⟨hlow, hhigh⟩ := level_of_risingEdge h
  by_cases hset : ∃ v, op = .set l v
  · obtain ⟨v, rfl⟩ := hset
    have hv := f.level_drive l l v
    rw [if_pos rfl, hlow] at hv
    have : v = .high := by simpa using hv.symm.trans hhigh
    rw [this]
  · rw [LineFile.level_onLines_of_ne (by simpa using hset), hlow] at hhigh
    simp at hhigh

/-- On lines driven before and after, the storage stages change at a rising latch edge alone (60_exceptions.md R262). -/
theorem Chain.observe_st {n k : Nat} {f g : LineFile} {ch : Chain} (hf : f.anyUndriven = false)
    (hg : g.anyUndriven = false) (h : (Chain.observe n k f g ch).st ≠ ch.st) : risingEdge f g .latch = true := by
  by_contra hedge
  exact h (by simp [Chain.observe, hf, hg, Chain.nextSt, hedge])

/-- Settles O47: the stages change at a rising latch edge, and only SET(LATCH, HIGH) makes one. -/
theorem latchedImageChangesOnlyAtLatchEdge : Obligations.LatchedImageChangesOnlyAtLatchEdge := by
  intro s t hr h hk hne
  obtain ⟨ha, hd⟩ : s.abandoned = false ∧ s.lines.anyUndriven = false := by simpa [State.chainKnown] using hk
  rw [quietStep_chain hr h ha] at hne
  cases ho : s.currentOp with
  | none =>
    rw [(quietStep_of_no_currentOp hr h ho).1] at hne
    have hedge := Chain.observe_st hd hd hne
    simp [not_risingEdge_self] at hedge
  | some op =>
    rw [(quietStep_of_currentOp hr h ho).1] at hne
    have hedge := Chain.observe_st hd (op.onLines_keeps_driven hd) hne
    exact ⟨congrArg some (MicroOp.eq_set_of_risingEdge hedge), (level_of_risingEdge hedge).1⟩

/-! ### A micro-program is a sequence of overwrites -/

/-- Write the registers of a line for which there is a value. -/
def LineReg.overwrite (mode : Option LineMode) (level : Option Level) (r : LineReg) : LineReg :=
  ⟨mode.getD r.mode, level.getD r.level⟩

@[simp] theorem LineReg.map_overwrite_none (r : Option LineReg) : r.map (LineReg.overwrite none none) = r := by
  cases r <;> rfl

theorem LineReg.overwrite_overwrite (m m' : Option LineMode) (v v' : Option Level) (r : LineReg) :
    (r.overwrite m v).overwrite m' v' = r.overwrite (m'.or m) (v'.or v) := by
  simp [LineReg.overwrite, Option.getD_or]

/-- What a micro-operation writes to a line does not depend on what was there (10_state.md R46). -/
theorem MicroOp.onLines_overwrites (op : MicroOp) (l : Line) :
    ∃ m v, ∀ f : LineFile, (op.onLines f).get l = (f.get l).map (LineReg.overwrite m v) := by
  cases op with
  | cfg k =>
    by_cases hl : l = k
    · exact ⟨some .output, none, fun f => by rw [MicroOp.onLines, LineFile.get_configure, if_pos hl]; rfl⟩
    · exact ⟨none, none, fun f => by simp [MicroOp.onLines, LineFile.get_configure, hl]⟩
  | set k v =>
    by_cases hl : l = k
    · exact ⟨none, some v, fun f => by rw [MicroOp.onLines, LineFile.get_drive, if_pos hl]; rfl⟩
    · exact ⟨none, none, fun f => by simp [MicroOp.onLines, LineFile.get_drive, hl]⟩
  | wait _ | shb _ _ _ | shz => exact ⟨none, none, fun _ => (LineReg.map_overwrite_none _).symm⟩

theorem onLines_foldl_overwrites (prog : List MicroOp) (l : Line) :
    ∃ m v, ∀ f : LineFile, (prog.foldl (fun f op => MicroOp.onLines op f) f).get l
      = (f.get l).map (LineReg.overwrite m v) := by
  induction prog with
  | nil => exact ⟨none, none, fun f => (LineReg.map_overwrite_none _).symm⟩
  | cons op prog ih =>
    obtain ⟨m, v, hop⟩ := op.onLines_overwrites l
    obtain ⟨m', v', hprog⟩ := ih
    refine ⟨m'.or m, v'.or v, fun f => ?_⟩
    rw [List.foldl_cons, hprog, hop, Option.map_map]
    exact congrArg (Option.map · _) (funext (LineReg.overwrite_overwrite m m' v v'))

/-- A micro-program run again leaves the lines as it left them before. -/
theorem onLines_foldl_idem (prog : List MicroOp) (f : LineFile) :
    prog.foldl (fun f op => MicroOp.onLines op f) (prog.foldl (fun f op => MicroOp.onLines op f) f)
      = prog.foldl (fun f op => MicroOp.onLines op f) f := by
  refine LineFile.ext_get fun l => ?_
  obtain ⟨m, v, hprog⟩ := onLines_foldl_overwrites prog l
  rw [hprog, hprog, Option.map_map]
  refine congrArg (Option.map · _) (funext fun r => ?_)
  rw [Function.comp_apply, LineReg.overwrite_overwrite, Option.or_self, Option.or_self]

/-- What a micro-operation writes to a shadow bit does not depend on what was there (10_state.md R46). -/
theorem MicroOp.onShadow_overwrites {c : Config} {op : MicroOp} (hop : op.check c = none) (q : Nat) {b : Nat}
    (hb : b < 8) :
    ∃ o : Option Bool, ∀ m : Memory, m.wf c.n = true → (op.onShadow m).bit q b = o.getD (m.bit q b) := by
  cases op with
  | cfg _ | set _ _ | wait _ => exact ⟨none, fun _ _ => rfl⟩
  | shb p b' x =>
    refine ⟨if q = p ∧ b = b' then some x else none, fun m hm => ?_⟩
    refine (Memory.bit_writeBit hm (MicroOp.check_shb_iff.mp hop).2 p q b hb x).trans ?_
    split <;> rfl
  | shz => exact ⟨some false, fun _ _ => by simp [MicroOp.onShadow, Memory.bit]⟩

theorem ProgOk.onShadow_foldl_overwrites {c : Config} {prog : List MicroOp} (hok : ProgOk c prog) (q : Nat) {b : Nat}
    (hb : b < 8) :
    ∃ o : Option Bool, ∀ m : Memory, m.wf c.n = true →
      Memory.bit (prog.foldl (fun m op => MicroOp.onShadow op m) m) q b = o.getD (m.bit q b) := by
  induction prog with
  | nil => exact ⟨none, fun _ _ => rfl⟩
  | cons op prog ih =>
    obtain ⟨o, hop⟩ := MicroOp.onShadow_overwrites (hok op List.mem_cons_self) q hb
    obtain ⟨o', hprog⟩ := ih fun op' hm => hok op' (List.mem_cons_of_mem _ hm)
    refine ⟨o'.or o, fun m hm => ?_⟩
    have hwf : (op.onShadow m).wf c.n = true :=
      ProgOk.shadow_wf (prog := [op]) (fun op' hm => hok op' (by simp_all)) hm
    rw [List.foldl_cons, hprog _ hwf, hop m hm, Option.getD_or]

/-- A micro-program run again leaves the shadow as it left it before. -/
theorem ProgOk.onShadow_foldl_idem {c : Config} {prog : List MicroOp} (hok : ProgOk c prog) {m : Memory}
    (hm : m.wf c.n = true) :
    prog.foldl (fun m op => MicroOp.onShadow op m) (prog.foldl (fun m op => MicroOp.onShadow op m) m)
      = prog.foldl (fun m op => MicroOp.onShadow op m) m := by
  have hwf := hok.shadow_wf hm
  refine Memory.ext_bits (hok.shadow_wf hwf) hwf fun q _ b hb => ?_
  obtain ⟨o, hprog⟩ := hok.onShadow_foldl_overwrites q hb
  rw [hprog _ hwf, hprog _ hm]
  cases o <;> rfl

/-! ### Commands run twice -/

/-- A target cell does not read the shadow, and every other cell reads a bit other than the target's. -/
theorem pinCell_writeBit {n : Nat} {m : Memory} (hm : m.wf n = true) (pin : Nat) (x : Bool) (p : Nat) {i : Nat}
    (hi : i < 8) :
    pinCell (m.writeBit (pinPart pin) (pinBit pin) x) pin x p i = pinCell m pin x p i := by
  unfold pinCell
  split
  · rfl
  · next htarget => rw [Memory.bit_writeBit hm (pinBit_lt pin) _ _ _ (wireBit_lt _ hi), if_neg htarget]

/-- WRITE_PIN's micro-program is the same once its bit is written (20_memory.md R80). -/
theorem progPin_writeBit {c : Config} {m : Memory} (hm : m.wf c.n = true) (pin : Nat) (x : Bool) :
    progPin c (m.writeBit (pinPart pin) (pinBit pin) x) pin x = progPin c m pin x := by
  unfold progPin
  congr 1
  exact List.flatMap_congr fun y hy => pinCell_writeBit hm pin x y.1 (mem_slots.mp hy).2

/-- The shadow that an instruction leaves gives it the same micro-program again (20_memory.md R80). -/
theorem programOf_again {c : Config} {m : Memory} (hm : m.wf c.n = true) (i : Instr) :
    programOf c ((programOf c m i).foldl (fun m op => MicroOp.onShadow op m) m) i = programOf c m i := by
  cases i with
  | init | write _ _ | allOff _ | state => rfl
  | writePin pin x =>
    by_cases hp : pinNumber pin < c.pins
    · simp only [programOf, if_pos hp]
      rw [progPin_shadow hm hp, progPin_writeBit hm]
    · simp only [programOf, if_neg hp]

theorem commandProgram_again {c : Config} {m : Memory} (hm : m.wf c.n = true) (cmd : Command) :
    commandProgram c ((commandProgram c m cmd).foldl (fun m op => MicroOp.onShadow op m) m) cmd
      = commandProgram c m cmd := by
  unfold commandProgram
  cases decode cmd.cw cmd.wdata with
  | instr i => exact programOf_again hm i
  | illegal why => rfl

/-- Settles O42: the second run has the micro-program of the first, which overwrites what it wrote with the same. -/
theorem commandsAreIdempotent : Obligations.CommandsAreIdempotent := by
  intro s c hi hs
  obtain ⟨-, hm, -⟩ := (State.inv_iff s).mp hi
  have hok := commandProgram_ok s.cfg s.shadow c
  set prog := commandProgram s.cfg s.shadow c with hprog
  set st := commandStatus s.cfg c
  set u := afterCommand prog st s with hu
  have hsecond : runCommand c u = .next (afterCommand prog st u) := by
    rw [runCommand_idle rfl, hu, afterCommand_cfg, afterCommand_shadow, hprog, commandProgram_again hm]
  have hshadow : (afterCommand prog st u).shadow = u.shadow := by
    simp only [hu, afterCommand_shadow, hok.onShadow_foldl_idem hm]
  have hlines : (afterCommand prog st u).lines = u.lines := by
    simp only [hu, afterCommand_lines, onLines_foldl_idem]
  have hrdata : (afterCommand prog st u).rdata = u.rdata := by
    rw [State.rdata, hshadow, afterCommand_cfg, State.rdata]
  refine ⟨u, _, progEvents prog ++ [.done st u.rdata], runCommand_idle hs c, hsecond, ?_, ?_,
    hshadow, hlines, rfl⟩
  · rw [hu, afterCommand_trace, List.append_assoc]
  · rw [afterCommand_trace, hrdata, List.append_assoc]

end Sys2Proof.Machine
end

section
/-! PROOFS. The encoding (30_encoding.md): the rows of the opcode table (R106), the illegal words and their rejection (R121),
the traces of the frames (R111 to R114), and the assembler (R123, R124). -/

namespace Sys2Proof

/-! ### A word by its fields -/

/-- A word is its four fields (30_encoding.md R100). -/
theorem word_ext_iff {cw cw' : Word} :
    cw = cw' ↔ rsvField cw = rsvField cw' ∧ pinField cw = pinField cw' ∧ fField cw = fField cw' ∧
      opField cw = opField cw' := by
  refine ⟨by rintro rfl; exact ⟨rfl, rfl, rfl, rfl⟩, fun ⟨hr, hp, hf, ho⟩ => BitVec.eq_of_toNat_eq ?_⟩
  simp only [← BitVec.toNat_inj, rsvField_toNat, pinField_toNat, opField_toNat, fField_eq, decide_eq_decide] at hr hp hf ho
  omega

/-- A mask is applied field by field. -/
theorem masked_eq_iff {cw mask val : Word} :
    cw &&& mask = val ↔ rsvField cw &&& rsvField mask = rsvField val ∧ pinField cw &&& pinField mask = pinField val ∧
      (fField cw && fField mask) = fField val ∧ opField cw &&& opField mask = opField val := by
  simp [word_ext_iff, rsvField, pinField, fField, opField, BitVec.extractLsb'_and]

theorem opField_eq_iff {cw : Word} {op : BitVec 4} : opField cw = op ↔ cw.toNat % 16 = op.toNat := by
  rw [← BitVec.toNat_inj, opField_toNat]

theorem rsvField_eq_iff {cw : Word} {rsv : BitVec 11} : rsvField cw = rsv ↔ cw.toNat / 32 % 2 ^ 11 = rsv.toNat := by
  rw [← BitVec.toNat_inj, rsvField_toNat]

theorem pinField_eq_iff {cw : Word} {pin : BitVec 16} : pinField cw = pin ↔ cw.toNat / 2 ^ 16 = pin.toNat := by
  rw [← BitVec.toNat_inj, pinField_toNat]

/-! ### The decoder by the fields -/

/-- The words of each instruction (30_encoding.md R106, R120). -/
theorem decode_eq_instr_iff {cw : Word} {wdata : Nat} {i : Instr} :
    decode cw wdata = .instr i ↔ rsvField cw = 0#11 ∧
      ((i = .init ∧ pinField cw = 0#16 ∧ fField cw = false ∧ opField cw = 1#4) ∨
       (i = .write (ordOfF (fField cw)) wdata ∧ pinField cw = 0#16 ∧ opField cw = 2#4) ∨
       (i = .writePin (pinField cw) (fField cw) ∧ opField cw = 3#4) ∨
       (i = .allOff (fField cw) ∧ pinField cw = 0#16 ∧ opField cw = 4#4) ∨
       (i = .state ∧ pinField cw = 0#16 ∧ fField cw = false ∧ opField cw = 5#4)) := by
  refine ⟨decode_instr_cases, ?_⟩
  rintro ⟨hr, ⟨rfl, hp, hf, ho⟩ | ⟨rfl, hp, ho⟩ | ⟨rfl, ho⟩ | ⟨rfl, hp, ho⟩ | ⟨rfl, hp, hf, ho⟩⟩
  · simp [decode, hr, hp, hf, ho]
  · simp [decode, hr, hp, ho]
  · simp [decode, hr, ho]
  · simp [decode, hr, hp, ho]
  · simp [decode, hr, hp, hf, ho]

/-- The words of no instruction (30_encoding.md R121): each test of R120 settles one of the clauses. -/
theorem decode_illegal_iff {cw : Word} {wdata : Nat} :
    (∃ why, decode cw wdata = .illegal why) ↔
      (opField cw ≠ 1#4 ∧ opField cw ≠ 2#4 ∧ opField cw ≠ 3#4 ∧ opField cw ≠ 4#4 ∧ opField cw ≠ 5#4) ∨
      rsvField cw ≠ 0#11 ∨ (pinField cw ≠ 0#16 ∧ opField cw ≠ 3#4) ∨
      (fField cw = true ∧ (opField cw = 1#4 ∨ opField cw = 5#4)) := by
  unfold decode
  repeat' split
  all_goals simp_all

/-! ### The rows of the opcode table -/

section Rows

variable {cw : Word} {wdata : Nat}

theorem eq_cmdWord_iff {pin : BitVec 16} {f : Bool} {op : BitVec 4} :
    cw = cmdWord pin f op ↔ rsvField cw = 0#11 ∧ pinField cw = pin ∧ fField cw = f ∧ opField cw = op := by
  rw [word_ext_iff, rsvField_cmdWord, pinField_cmdWord, fField_cmdWord, opField_cmdWord]

/-- Under the mask of WRITE and ALL_OFF the bit `F` is free (30_encoding.md R106). -/
theorem masked_eq_iff_of_free_f {op : BitVec 4} :
    cw &&& 0xFFFFFFEF#32 = cmdWord 0#16 false op ↔ rsvField cw = 0#11 ∧ pinField cw = 0#16 ∧ opField cw = op := by
  have hr : rsvField 0xFFFFFFEF#32 = BitVec.allOnes 11 := by decide
  have hp : pinField 0xFFFFFFEF#32 = BitVec.allOnes 16 := by decide
  have hf : fField 0xFFFFFFEF#32 = false := by decide
  have ho : opField 0xFFFFFFEF#32 = BitVec.allOnes 4 := by decide
  simp only [masked_eq_iff, rsvField_cmdWord, pinField_cmdWord, fField_cmdWord, opField_cmdWord, hr, hp, hf, ho,
    BitVec.and_allOnes, Bool.and_false, true_and]

/-- Under the mask of WRITE_PIN the bit `F` and `PIN` are free (R106). -/
theorem masked_eq_iff_of_free_f_pin {op : BitVec 4} :
    cw &&& 0x0000FFEF#32 = cmdWord 0#16 false op ↔ rsvField cw = 0#11 ∧ opField cw = op := by
  have hr : rsvField 0x0000FFEF#32 = BitVec.allOnes 11 := by decide
  have hp : pinField 0x0000FFEF#32 = 0#16 := by decide
  have hf : fField 0x0000FFEF#32 = false := by decide
  have ho : opField 0x0000FFEF#32 = BitVec.allOnes 4 := by decide
  simp only [masked_eq_iff, rsvField_cmdWord, pinField_cmdWord, fField_cmdWord, opField_cmdWord, hr, hp, hf, ho,
    BitVec.and_allOnes, BitVec.and_zero, Bool.and_false, true_and]

theorem decode_eq_init_iff : decode cw wdata = .instr .init ↔ cw = cmdWord 0#16 false 1#4 := by
  simp [decode_eq_instr_iff, eq_cmdWord_iff]

theorem decode_eq_write_iff {ord : BitOrder} {w : Nat} :
    decode cw wdata = .instr (.write ord w) ↔
      cw &&& 0xFFFFFFEF#32 = cmdWord 0#16 false 2#4 ∧ ord = ordOfF (fField cw) ∧ w = wdata := by
  simp [decode_eq_instr_iff, masked_eq_iff_of_free_f, and_assoc, and_comm, and_left_comm]

theorem decode_eq_writePin_iff {pin : BitVec 16} {x : Bool} :
    decode cw wdata = .instr (.writePin pin x) ↔
      cw &&& 0x0000FFEF#32 = cmdWord 0#16 false 3#4 ∧ pin = pinField cw ∧ x = fField cw := by
  simp [decode_eq_instr_iff, masked_eq_iff_of_free_f_pin, and_assoc, and_comm, and_left_comm]

theorem decode_eq_allOff_iff {latch : Bool} :
    decode cw wdata = .instr (.allOff latch) ↔
      cw &&& 0xFFFFFFEF#32 = cmdWord 0#16 false 4#4 ∧ latch = fField cw := by
  simp [decode_eq_instr_iff, masked_eq_iff_of_free_f, and_assoc, and_comm]

theorem decode_eq_state_iff : decode cw wdata = .instr .state ↔ cw = cmdWord 0#16 false 5#4 := by
  simp [decode_eq_instr_iff, eq_cmdWord_iff]

end Rows

theorem ordOfF_eq_iff {f : Bool} :
    (ordOfF f = .msbFirst ↔ f = true) ∧ (ordOfF f = .lsbFirst ↔ f = false) := by cases f <;> decide

/-- Settles O3: each row's instruction is decoded from its masked word, with its operands from the free bits. -/
theorem opcodeTableRows : Obligations.OpcodeTableRows := by
  intro cw wdata
  have hall : cw &&& 0xFFFFFFFF#32 = cw := BitVec.and_allOnes
  refine ⟨?_, ?_, ?_, ?_, ?_, ?_, ?_, ?_⟩
  · rw [hall]; exact decode_eq_init_iff
  · simp only [decode_eq_write_iff, exists_and_left, exists_eq, and_true]; rfl
  · simp only [decode_eq_writePin_iff, exists_and_left, exists_eq, and_true]; rfl
  · simp only [decode_eq_allOff_iff, exists_and_left, exists_eq, and_true]; rfl
  · rw [hall]; exact decode_eq_state_iff
  · intro ord w h
    obtain ⟨-, rfl, rfl⟩ := decode_eq_write_iff.mp h
    exact ⟨ordOfF_eq_iff.1, ordOfF_eq_iff.2, rfl⟩
  · intro pin x h
    obtain ⟨-, rfl, rfl⟩ := decode_eq_writePin_iff.mp h
    exact ⟨rfl, pinField_toNat cw⟩
  · intro latch h
    exact (decode_eq_allOff_iff.mp h).2

/-! ### Illegal words -/

/-- The four cases of 30_encoding.md R121, on the word as a number. -/
theorem decode_illegal_iff_toNat {cw : Word} {wdata : Nat} :
    (∃ why, decode cw wdata = .illegal why) ↔
      ((cw.toNat % 16 = 0 ∨ 6 ≤ cw.toNat % 16) ∨ cw.toNat / 32 % 2 ^ 11 ≠ 0
        ∨ (cw.toNat / 2 ^ 16 ≠ 0 ∧ cw.toNat % 16 ≠ 3)
        ∨ (cw.getLsbD 4 = true ∧ (cw.toNat % 16 = 1 ∨ cw.toNat % 16 = 5))) := by
  have hop : (cw.toNat % 16 = 0 ∨ 6 ≤ cw.toNat % 16) ↔
      cw.toNat % 16 ≠ 1 ∧ cw.toNat % 16 ≠ 2 ∧ cw.toNat % 16 ≠ 3 ∧ cw.toNat % 16 ≠ 4 ∧ cw.toNat % 16 ≠ 5 := by omega
  rw [decode_illegal_iff, fField, hop]
  simp only [opField_eq_iff, rsvField_eq_iff, pinField_eq_iff, ne_eq, BitVec.toNat_ofNat, Nat.reducePow, Nat.reduceMod]

end Sys2Proof

namespace Sys2Proof.Machine

/-- Settles O4: the command of an illegal word is the empty micro-program with status ILLEGAL. -/
theorem illegalWordsRejected : Obligations.IllegalWordsRejected := by
  refine ⟨fun _ _ => decode_illegal_iff_toNat, fun s c why hs hd => ?_⟩
  have hprog : commandProgram s.cfg s.shadow c = [] := by rw [commandProgram, hd]
  have hst : commandStatus s.cfg c = .illegal := by rw [commandStatus, hd]
  have haccept := acceptCommand_idle hs c
  have hrun := runCommand_idle hs c
  rw [hprog, hst] at haccept hrun
  refine ⟨haccept, _, hrun, rfl, rfl, rfl, ?_, rfl, rfl, rfl, rfl⟩
  rw [afterCommand_trace, afterCommand_rdata]
  simp [State.rdata]

/-! ### The traces of the frames -/

/-- Settles O36: WRITE's cells are the settled cells of its stream, which goes through the slots in order. -/
theorem writeTrace : Obligations.WriteTrace := by
  intro s ord wdata hs
  refine ⟨⟨_, runInstr_idle hs _, ?_⟩, writeStream_length _ _ _, fun p i hp hi => ?_⟩
  · rw [afterCommand_trace, programOf, progWrite_events, statusOf]
  · rw [writeStream, stream_get _ hp hi, wdataBit_eq _ _ (wireBit_lt ord hi)]
    cases ord <;> rfl

/-- WRITE_PIN in range sends the MSB-first stream of the shadow it leaves (30_encoding.md R114). -/
theorem writePin_trace {s : State} (hi : s.Inv) (hs : s.seq = .idle) {pin : BitVec 16} (x : Bool)
    (hp : pin.toNat < 8 * s.cfg.n) :
    ∃ u, runInstr (.writePin pin x) s = .next u ∧
      u.trace = s.trace ++ latchedEvents ((shadowStream s.cfg.n u.shadow).flatMap fastEvents) ++ [.done .ok u.rdata] := by
  obtain ⟨-, hm, -⟩ := (State.inv_iff s).mp hi
  have hpin : pinNumber pin < s.cfg.pins := hp
  have hprog : programOf s.cfg s.shadow (.writePin pin x) = progPin s.cfg s.shadow (pinNumber pin) x := if_pos hpin
  have hst : statusOf s.cfg (.writePin pin x) = .ok := if_pos hpin
  refine ⟨_, runInstr_idle hs _, ?_⟩
  rw [afterCommand_trace, hst, hprog, progPin_events, pinStream_eq hm, afterCommand_shadow, progPin_shadow hm hpin]

/-- ALL_OFF sends 8N zeros, framed only if it latches (30_encoding.md R114). -/
theorem allOff_trace {s : State} (hs : s.seq = .idle) (latch : Bool) :
    ∃ u, runInstr (.allOff latch) s = .next u ∧
      u.trace = s.trace ++ (if latch then latchedEvents ((List.replicate (8 * s.cfg.n) (fastEvents false)).flatten)
        else (List.replicate (8 * s.cfg.n) (fastEvents false)).flatten) ++ [.done .ok u.rdata] := by
  refine ⟨_, runInstr_idle hs _, ?_⟩
  rw [afterCommand_trace, programOf, progAllOff_events, statusOf]

/-- Settles O39: the stream of the end shadow goes through the slots in order. -/
theorem fastFrameTraces : Obligations.FastFrameTraces := by
  intro s hi hs
  refine ⟨fun pin x hp => ?_, allOff_trace hs true, allOff_trace hs false⟩
  obtain ⟨u, hu, htrace⟩ := writePin_trace hi hs x hp
  exact ⟨u, _, hu, shadowStream_length _ _, fun p i hp hi => stream_get _ hp hi, htrace⟩

/-! ### The assembler -/

/-- Settles O52: each pseudo-command has the instruction of its command. -/
theorem pseudoCommands : Obligations.PseudoCommands := fun _ _ => ⟨rfl, rfl, rfl, rfl⟩

theorem packValues_lt {vs : List Nat} (h : ∀ v ∈ vs, v < 256) : packValues vs < 256 ^ vs.length := by
  induction vs with
  | nil => simp [packValues]
  | cons v vs ih =>
    obtain ⟨hv, hvs⟩ := List.forall_mem_cons.mp h
    have hlt := ih hvs
    rw [packValues, List.length_cons, pow_succ]
    omega

/-- Byte `p` of the packed values is the `p`-th of them, and 0 past their end. -/
theorem packValues_byte {vs : List Nat} (h : ∀ v ∈ vs, v < 256) (p : Nat) :
    packValues vs / 256 ^ p % 256 = vs.getD p 0 := by
  induction vs generalizing p with
  | nil => simp [packValues]
  | cons v vs ih =>
    obtain ⟨hv, hvs⟩ := List.forall_mem_cons.mp h
    cases p with
    | zero => simp only [packValues, List.getD_cons_zero]; omega
    | succ p =>
      have hdiv : (v + 256 * packValues vs) / 256 = packValues vs := by omega
      rw [packValues, pow_succ', ← Nat.div_div_eq_div_mul, hdiv, ih hvs, List.getD_cons_succ]

theorem wdataByte_toNat (w p : Nat) : (wdataByte w p).toNat = w / 256 ^ p % 256 := rfl

theorem assemble_write (n : Nat) (ord : BitOrder) (vs : List Nat) :
    assemble n (.write ord vs)
      = if vs.length = n ∧ ∀ v ∈ vs, v < 256 then some (encode (.write ord (packValues vs))) else none := by
  simp only [assemble, AsmLine.instr?, List.all_eq_true, decide_eq_true_eq]
  split <;> rfl

theorem assemble_writePin (n k : Nat) (x : Bool) :
    assemble n (.writePin k x) = if k < 2 ^ 16 then some (encode (.writePin (BitVec.ofNat 16 k) x)) else none := by
  rw [assemble, AsmLine.instr?, pinInstr]
  split <;> rfl

/-- `PIN` stands above the 16 bits of the other fields (30_encoding.md R100). -/
theorem cmdWord_eq_or {k : Nat} (hk : k < 2 ^ 16) (f : Bool) (op : BitVec 4) :
    cmdWord (BitVec.ofNat 16 k) f op = (BitVec.ofNat 32 k <<< 16) ||| cmdWord 0#16 f op := by
  apply BitVec.eq_of_toNat_eq
  have hlow : f.toNat * 2 ^ 4 + op.toNat < 2 ^ 16 := by
    have := op.isLt
    cases f <;> simp <;> omega
  have hshift : (BitVec.ofNat 32 k <<< 16).toNat = k <<< 16 := by
    rw [BitVec.toNat_shiftLeft, BitVec.toNat_ofNat]
    simp only [Nat.shiftLeft_eq]
    omega
  rw [BitVec.toNat_or, hshift, cmdWord_toNat, cmdWord_toNat, BitVec.toNat_ofNat, BitVec.toNat_ofNat,
    Nat.mod_eq_of_lt hk, Nat.zero_mod, Nat.zero_mul, Nat.zero_add, ← Nat.shiftLeft_add_eq_or_of_lt hlow, Nat.shiftLeft_eq,
    Nat.add_assoc]

/-- Settles O51, line by line. -/
theorem assemblerLines : Obligations.AssemblerLines := by
  intro n
  refine ⟨rfl, fun vs hl h => ?_, fun vs ord hl => ?_, fun vs ord ⟨v, hv, hge⟩ => ?_, fun k hk => ?_, fun k x hk => ?_,
    rfl, rfl, rfl⟩
  · refine ⟨packValues vs, ?_, ?_, ?_, fun p _ => ?_⟩
    · rw [assemble_write, if_pos ⟨hl, h⟩]; rfl
    · rw [assemble_write, if_pos ⟨hl, h⟩]; rfl
    · simpa [wdataFits, pow_mul, hl] using packValues_lt h
    · rw [wdataByte_toNat, packValues_byte h]
  · rw [assemble_write, if_neg fun h => hl h.1]
  · rw [assemble_write, if_neg fun h => absurd (h.2 v hv) (Nat.not_lt.mpr hge)]
  · simp only [assemble_writePin, if_pos hk, encode, cmdWord_eq_or hk]
    exact ⟨rfl, rfl⟩
  · rw [assemble_writePin, if_neg (Nat.not_lt.mpr hk)]

end Sys2Proof.Machine
end

section
/-! PROOFS. INIT (40_bringup.md): the events it emits (R141) and the state it ends in (R143). -/

namespace Sys2Proof.Machine

/-! ### The events and the response -/

/-- The events of a part of INIT that is there only if its line is connected (40_bringup.md R141). -/
theorem progEvents_ite (b : Bool) (prog : List MicroOp) :
    progEvents (if b then prog else []) = if b then progEvents prog else [] := by
  cases b <;> rfl

/-- The events of INIT, part by part (40_bringup.md R141). -/
theorem progInit_events (c : Config) :
    progEvents (progInit c)
      = progEvents initLines
        ++ (if c.hasOe then progEvents [.cfg .oe, .set .oe .high] else [])
        ++ (if c.hasRst then progEvents [.cfg .rst, .set .rst .high, .wait c.tRst, .set .rst .low, .wait c.tRst,
              .set .rst .high] else [])
        ++ latchedEvents ((List.replicate (8 * c.n) (fastEvents false)).flatten)
        ++ (if c.hasOe then progEvents [.set .oe .low] else []) := by
  simp only [progInit, initOe, initRst, initEnable, progEvents_append, progEvents_ite, progAllOff_events, if_true]

theorem rdataOf_nil (n : Nat) : rdataOf n [] = 0 := packParts_zero n

/-- INIT leaves the shadow zero, whatever it was (40_bringup.md R143). -/
theorem afterInit_shadow (st : Status) (s : State) : (afterCommand (progInit s.cfg) st s).shadow = [] :=
  (afterCommand_shadow _ _ _).trans (progInit_shadow s.cfg s.shadow)

/-- The trace of INIT: its events, then a response of value 0 (40_bringup.md R143). -/
theorem afterInit_trace (st : Status) (s : State) :
    (afterCommand (progInit s.cfg) st s).trace = s.trace ++ progEvents (progInit s.cfg) ++ [.done st 0] := by
  rw [afterCommand_trace, State.rdata, afterInit_shadow, rdataOf_nil]

/-- Settles O33: each part of INIT has its events, and the response is the image of a zero shadow. -/
theorem initTrace : Obligations.InitTrace := by
  intro s hs
  refine ⟨_, runInstr_idle hs .init, ?_⟩
  rw [programOf, statusOf, afterInit_trace, progInit_events]
  rfl

/-! ### The lines -/

/-- The lines that INIT leaves: every connected line an output, at its idle level (40_bringup.md R143). -/
def LineFile.afterInit (c : Config) : LineFile :=
  LineFile.outputs .low .low .high (if c.hasOe then some .low else none) (if c.hasRst then some .high else none)

theorem progInit_lines {c : Config} {f : LineFile} (hf : linesMatch c f = true) :
    (progInit c).foldl (fun f op => MicroOp.onLines op f) f = LineFile.afterInit c := by
  rw [progInit_split, List.foldl_append, List.foldl_append, initPrefix_lines c hf, progAllOff_lines, if_pos rfl,
    latchedBits_outputs, lastLevel_zeroStream, initEnable]
  cases h : c.hasOe with
  | false => simp [LineFile.afterInit, h]
  | true => simp only [LineFile.afterInit, h, if_true]; rfl

/-- Every connected line is an output after INIT (40_bringup.md R143). -/
theorem LineFile.mode_afterInit {c : Config} {l : Line} (hl : connected c l = true) :
    ((LineFile.afterInit c).get l).map LineReg.mode = some .output := by
  cases l with
  | data | clock | latch => rfl
  | oe | rst => simp_all [LineFile.afterInit, LineFile.outputs, LineFile.get, connected]

theorem LineFile.anyUndriven_afterInit (c : Config) : (LineFile.afterInit c).anyUndriven = false :=
  LineFile.outputs_driven _ _ _ _ _

/-- INIT leaves OE LOW where it is connected (40_bringup.md R143). -/
theorem LineFile.pin_oe_afterInit (c : Config) :
    (LineFile.afterInit c).pin .oe = none ∨ (LineFile.afterInit c).pin .oe = some (.driven .low) := by
  cases h : c.hasOe <;> simp [LineFile.afterInit, LineFile.outputs, LineFile.pin, LineFile.get, h]

/-- INIT leaves RST HIGH where it is connected: no clear is active (40_bringup.md R143). -/
theorem clearActive_afterInit (c : Config) : clearActive (LineFile.afterInit c) = false := by
  cases h : c.hasRst <;> simp [clearActive, LineFile.afterInit, LineFile.outputs, LineFile.pin, LineFile.get, h]

/-! ### The chain -/

/-- Driving OE moves no stage of a chain on driven lines with CLOCK LOW, LATCH HIGH and RST not LOW
(60_exceptions.md R261, R262, R264). -/
theorem oe_low_wire (d v : Level) {rst : Option Level} (hr : rst ≠ some .low) (ch : Chain) :
    wireOp (LineFile.outputs d .low .high (some v) rst, ch) (.set .oe .low)
      = (LineFile.outputs d .low .high (some .low) rst, ch) := by
  obtain _ | _ | _ := rst
  · rfl
  · exact absurd rfl hr
  · rfl

/-- From its ALL_OFF on INIT fills both stages with zeros, and only then enables the outputs (40_bringup.md R141). -/
theorem initFrame_wire (c : Config) {ch : Chain} (hlen : ch.sr.length = 8 * c.n) :
    (progAllOff c true ++ initEnable c).foldl wireOp
        (LineFile.outputs .low .low .low (if c.hasOe then some .high else none)
          (if c.hasRst then some .high else none), ch)
      = (LineFile.afterInit c, Chain.cleared c.n) := by
  have hr : (if c.hasRst then some Level.high else none) ≠ some .low := by split <;> simp
  have hz : (zeroStream c.n).reverse = List.replicate (8 * c.n) false := List.reverse_replicate
  rw [List.foldl_append, progAllOff_wire _ _ _ _ _ hr _ hlen, lastLevel_zeroStream, hz, LineFile.afterInit, initEnable]
  cases c.hasOe with
  | false => rfl
  | true => exact oe_low_wire _ _ hr _

/-- No micro-operation from INIT's ALL_OFF on configures a line. -/
theorem initFrame_noCfg (c : Config) : ∀ op ∈ progAllOff c true ++ initEnable c, op.noCfg = true := by
  intro op h
  obtain h | h := List.mem_append.mp h
  · exact progAllOff_noCfg c true op h
  · unfold initEnable at h
    split at h
    · rw [List.mem_singleton.mp h]; rfl
    · simp at h

/-- The micro-operations of INIT leave a chain of zeros, unless a command was abandoned before: INIT drives every line before
its frame starts, so what the chain held does not matter (60_exceptions.md R263, R266). -/
theorem runOps_init_chain {s : State} (hi : s.Inv) (ha : s.abandoned = false) :
    (runOps (progInit s.cfg) (observeChain s s)).chain = Chain.cleared s.cfg.n := by
  obtain ⟨-, -, hl, -, hsr, hst, -⟩ := (State.inv_iff s).mp hi
  have hstart := Chain.afterStep_length s.freeTick s.abandoned s.abandoned s.lines s.lines hsr hst
  have hlen := runOps_chain_length (initPrefix s.cfg) (s := observeChain s s) hstart.1 hstart.2
  have hlines : (runOps (initPrefix s.cfg) (observeChain s s)).lines = _ :=
    (runOps_lines _ _).trans (initPrefix_lines s.cfg hl)
  have hwire := runOps_wire _ (initFrame_noCfg s.cfg) (s := runOps (initPrefix s.cfg) (observeChain s s))
    (by rw [hlines, LineFile.outputs_driven]) (by simpa using ha)
  rw [hlines, initFrame_wire s.cfg hlen.1] at hwire
  rw [progInit_split, runOps_append]
  exact congrArg Prod.snd hwire

/-- The chain holds zeros when INIT completes: after an abandoned command because it completes (70_reset_and_hazards.md
R283), otherwise because of its frame (40_bringup.md R143). -/
theorem afterInit_chain {s : State} (hi : s.Inv) (st : Status) :
    (afterCommand (progInit s.cfg) st s).chain = Chain.cleared s.cfg.n := by
  obtain ⟨-, -, hl, -⟩ := (State.inv_iff s).mp hi
  have hsame := fun k => observe_same (n := s.cfg.n) (k := k) (LineFile.anyUndriven_afterInit s.cfg)
    (clearActive_afterInit s.cfg) (Chain.cleared s.cfg.n)
  cases ha : s.abandoned with
  | true => simpa [afterCommand, progInit_lines hl, ha] using hsame _
  | false => simpa [afterCommand, progInit_lines hl, ha, runOps_init_chain hi ha] using hsame _

theorem Chain.storageStage_cleared {n c k : Nat} (hc : c < n) (hk : k < 8) :
    (Chain.cleared n).storageStage c k = some false := by
  have h : 8 * c + k < 8 * n := by omega
  simp [Chain.storageStage, Chain.cleared, h]

/-- While OE is LOW or not connected, a known chain drives its latched image (60_exceptions.md R262). -/
theorem Chain.output_of_enabled {f : LineFile} {ch : Chain} {c k : Nat} {x : Bool}
    (hf : f.pin .oe = none ∨ f.pin .oe = some (.driven .low)) (hx : ch.storageStage c k = some x) (tick : Nat) :
    ch.output true f tick c k = some (.driven x) := by
  obtain hf | hf := hf <;> simp [Chain.output, hx, hf]

/-! ### The end state -/

/-- Settles O32: the shadow, the lines and the chain that INIT leaves, each by its own lemma above. -/
theorem initEndState : Obligations.InitEndState := by
  intro s hi hs
  obtain ⟨-, -, hl, -⟩ := (State.inv_iff s).mp hi
  refine ⟨startCommand_idle hs _ _, _, runInstr_idle hs .init, rfl, ?_⟩
  rw [programOf, statusOf]
  set u := afterCommand (progInit s.cfg) .ok s with hu
  have hlines : u.lines = LineFile.afterInit s.cfg := (afterCommand_lines _ _ _).trans (progInit_lines hl)
  have hchain : u.chain = Chain.cleared s.cfg.n := afterInit_chain hi .ok
  have hknown : u.chainKnown = true := by
    rw [State.chainKnown, hlines, LineFile.anyUndriven_afterInit]
    simp [hu]
  refine ⟨fun p => ?_, fun l hc => ?_, ?_, ?_, ?_, fun ho => ?_, fun hr => ?_, ?_, fun c k hc hk => ⟨?_, ?_⟩, ?_⟩
  · rw [afterInit_shadow]; rfl
  · rw [State.mode, hlines, LineFile.mode_afterInit hc]
  · rw [State.level, hlines]; rfl
  · rw [State.level, hlines]; rfl
  · rw [State.level, hlines]; rfl
  · simp [State.level, hlines, LineFile.afterInit, LineFile.outputs, LineFile.get, ho]
  · simp [State.level, hlines, LineFile.afterInit, LineFile.outputs, LineFile.get, hr]
  · rw [afterInit_trace, List.getLast?_concat]
  · rw [hchain, Chain.storageStage_cleared hc hk]
  · rw [State.output, hknown, hlines, hchain]
    exact Chain.output_of_enabled (LineFile.pin_oe_afterInit s.cfg) (Chain.storageStage_cleared hc hk) _
  · exact ⟨afterCommand_cfg _ _ _, afterCommand_cmdPort _ _ _, afterCommand_resetIn _ _ _, afterCommand_resetMarks _ _ _⟩

end Sys2Proof.Machine
end

section
/-! PROOFS. WRITE (41_write.md R163): each shadow bit is written once, and the state that WRITE ends in. -/

namespace Sys2Proof.Machine

/-! ### The shadow bits written -/

/-- In cells of which only that of `y` has elements with a property, those of the whole are those of `y`'s cell. -/
theorem filter_flatMap_of_unique {α β : Type} {xs : List α} (hn : xs.Nodup) {y : α} (hy : y ∈ xs) {cell : α → List β}
    {q : β → Bool} (hne : ∀ x ∈ xs, x ≠ y → (cell x).filter q = []) :
    (xs.flatMap cell).filter q = (cell y).filter q := by
  obtain ⟨as, bs, rfl⟩ := List.append_of_mem hy
  have hy' : y ∉ as ++ bs := (List.nodup_cons.mp (List.nodup_middle.mp hn)).1
  have hnone : ∀ x ∈ as ++ bs, (cell x).filter q = [] := fun x hx =>
    hne x (List.perm_middle.mem_iff.mpr (List.mem_cons_of_mem y hx)) fun e => hy' (e ▸ hx)
  rw [List.filter_flatMap, List.flatMap_append, List.flatMap_cons,
    List.flatMap_eq_nil_iff.mpr fun x hx => hnone x (List.mem_append_left bs hx),
    List.flatMap_eq_nil_iff.mpr fun x hx => hnone x (List.mem_append_right as hx), List.nil_append, List.append_nil]

/-- A latched frame writes the shadow bits that its body writes. -/
theorem latchedFrame_writes (p b : Nat) (body : List MicroOp) :
    (latchedFrame body).filter (MicroOp.writesBit p b) = body.filter (MicroOp.writesBit p b) := by
  simp [latchedFrame, MicroOp.writesBit]

/-- A cell of WRITE writes the one shadow bit that it sends (41_write.md R161). -/
theorem writeCell_writes (c : Config) (ord : BitOrder) (wdata q i p b : Nat) :
    (writeCell c ord wdata q i).filter (MicroOp.writesBit p b)
      = if q = p ∧ wireBit ord i = b then [.shb p b (wdataBit wdata p b)] else [] := by
  have hcell : (writeCell c ord wdata q i).filter (MicroOp.writesBit p b)
      = [MicroOp.shb q (wireBit ord i) (wdataBit wdata q (wireBit ord i))].filter (MicroOp.writesBit p b) := rfl
  rw [hcell]
  split
  · next h => obtain ⟨rfl, rfl⟩ := h; simp [MicroOp.writesBit]
  · next h => simpa [MicroOp.writesBit] using h

/-- WRITE writes each shadow bit exactly once, in the cell that sends it (41_write.md R163). -/
theorem progWrite_writes (c : Config) (wdata : Nat) (ord : BitOrder) {p b : Nat} (hp : p < c.n) (hb : b < 8) :
    (progWrite c wdata ord).filter (MicroOp.writesBit p b) = [.shb p b (wdataBit wdata p b)] := by
  rw [progWrite, latchedFrame_writes, filter_flatMap_of_unique (slots_nodup c.n) (y := (p, wireBit ord b))
    (mem_slots.mpr ⟨hp, wireBit_lt ord hb⟩), writeCell_writes, if_pos ⟨rfl, wireBit_wireBit ord hb⟩]
  rintro ⟨q, i⟩ hx hne
  rw [writeCell_writes, if_neg]
  rintro ⟨rfl, rfl⟩
  exact hne (by rw [wireBit_wireBit ord (mem_slots.mp hx).2])

/-! ### The shadow and the response -/

/-- WRITE leaves every part at its value, and the parts that do not exist as they were (41_write.md R163). -/
theorem progWrite_read {c : Config} (wdata : Nat) (ord : BitOrder) {m : Memory} (hm : m.wf c.n = true) (p : Nat) :
    Memory.read ((progWrite c wdata ord).foldl (fun m op => MicroOp.onShadow op m) m) p
      = if p < c.n then wdataByte wdata p else m.read p := by
  split
  · next hp =>
    refine BitVec.eq_of_getLsbD_eq fun b hb => ?_
    have hbit := writeBits_bit (wdataBit wdata) ((slots c.n).map fun x => (x.1, wireBit ord x.2))
      (fun _ hx => (mem_wireSlots ord).mp hx) hm p b hb
    rw [← progWrite_shadow, if_pos ((mem_wireSlots ord).mpr ⟨hp, hb⟩), wdataBit_eq _ _ hb] at hbit
    exact hbit
  · next hp =>
    have hp' : c.n ≤ p := Nat.le_of_not_lt hp
    rw [Memory.read_above ((progWrite_ok c wdata ord).shadow_wf hm) hp', Memory.read_above hm hp']

theorem afterWrite_read {s : State} (hi : s.Inv) (wdata : Nat) (ord : BitOrder) (st : Status) (p : Nat) :
    (afterCommand (progWrite s.cfg wdata ord) st s).shadow.read p
      = if p < s.cfg.n then wdataByte wdata p else s.shadow.read p := by
  obtain ⟨-, hm, -⟩ := (State.inv_iff s).mp hi
  rw [afterCommand_shadow, progWrite_read wdata ord hm]

theorem packParts_congr {f g : Nat → Byte} {n : Nat} (h : ∀ p < n, f p = g p) : packParts f n = packParts g n := by
  rw [packParts_eq_sum, packParts_eq_sum]
  exact congrArg List.sum (List.map_congr_left fun p hp => by rw [h p (List.mem_range.mp hp)])

/-- Packing the bytes of an operand gives the operand back (20_memory.md R73, R74). -/
theorem packParts_wdataByte (wdata n : Nat) : packParts (wdataByte wdata) n = wdata % 256 ^ n := by
  induction n with
  | zero => rw [pow_zero, Nat.mod_one]; rfl
  | succ n ih => rw [packParts, ih, wdataByte_toNat, Nat.mod_pow_succ, Nat.mul_comm]

theorem packParts_wdataByte_of_fits {n wdata : Nat} (h : wdataFits n wdata = true) :
    packParts (wdataByte wdata) n = wdata := by
  have hlt : wdata < 2 ^ (8 * n) := of_decide_eq_true h
  rw [pow_mul] at hlt
  rw [packParts_wdataByte]
  exact Nat.mod_eq_of_lt hlt

/-- The response of WRITE is its operand (41_write.md R163). -/
theorem afterWrite_rdata {s : State} (hi : s.Inv) {wdata : Nat} (hfits : wdataFits s.cfg.n wdata = true) (ord : BitOrder)
    (st : Status) : (afterCommand (progWrite s.cfg wdata ord) st s).rdata = wdata := by
  have hparts := packParts_congr fun p hp => (afterWrite_read hi wdata ord st p).trans (if_pos hp)
  rw [State.rdata, rdataOf, afterCommand_cfg, hparts, packParts_wdataByte_of_fits hfits]

/-! ### The lines after a latched frame -/

section Latched
variable {s u : State} {ds : List Bool} (hd : ds ≠ [])
  (hl : u.lines = (afterBits ds (s.lines.drive .latch .low)).drive .latch .high)
include hd hl

/-- A latched frame configures no line. -/
theorem mode_of_latched (l : Line) : u.mode l = s.mode l := by
  rw [State.mode, State.mode, hl, latched_get hd]
  cases l <;> rfl

/-- A latched frame leaves LATCH HIGH, CLOCK LOW, DATA at the last bit sent and the other lines as they were
(41_write.md R163). -/
theorem level_of_latched (l : Line) : u.level l =
    match l with
    | .latch => some .high
    | .clock => some .low
    | .data => some (lvl (ds.getLast hd))
    | .oe => s.level .oe
    | .rst => s.level .rst := by
  rw [State.level, hl, latched_get hd]
  cases l <;> rfl

end Latched

/-! ### The latched image -/

/-- A frame that reaches a known chain starts on outputs, with CLOCK LOW and RST not LOW. -/
theorem State.WireReady.exists_outputs {s : State} (h : s.WireReady) :
    s.abandoned = false ∧ ∃ d l oe rst, s.lines = LineFile.outputs d .low l oe rst ∧ rst ≠ some .low := by
  obtain ⟨hknown, hclock, hrst⟩ := h
  simp only [State.chainKnown, Bool.and_eq_true, Bool.not_eq_true'] at hknown
  obtain ⟨d, c, l, oe, rst, hf⟩ := LineFile.exists_outputs hknown.2
  rw [State.level, hf] at hclock hrst
  obtain rfl : c = .low := Option.some.inj hclock
  refine ⟨hknown.1, d, l, oe, rst, hf, ?_⟩
  rintro rfl
  exact hrst rfl

/-- The latched stream of a frame under the layout of its order (60_exceptions.md R263). -/
theorem storageStage_of_stream {n : Nat} {ch : Chain} {g : Nat × Nat → Bool} (hch : ch.st = ((slots n).map g).reverse)
    (ord : BitOrder) {p b : Nat} (hp : p < n) (hb : b < 8) :
    ch.storageStage (n - 1 - p) (stageOf ord b) = some (g (p, wireBit ord b)) := by
  have hstage : stageOf ord b = 7 - wireBit ord b := by
    cases ord with
    | lsbFirst => rfl
    | msbFirst => simp only [stageOf, wireBit]; omega
  have hi := wireBit_lt ord hb
  rw [Chain.storageStage, hch, hstage, reverse_stage (by simp) hp hi, stream_get g hp hi]

/-- A latched image that is the stream of a shadow matches it under the layout of the stream's order
(60_exceptions.md R265). -/
theorem State.PhysicalMatch.of_stream {u : State} {ord : BitOrder} {v : Nat → Nat → Bool}
    (hst : u.chain.st = ((slots u.cfg.n).map fun x => v x.1 (wireBit ord x.2)).reverse)
    (hv : ∀ p b, p < u.cfg.n → b < 8 → u.shadow.bit p b = v p b) : u.PhysicalMatch ord := by
  intro p hp b hb
  rw [storageStage_of_stream hst ord hp hb, wireBit_wireBit ord hb, hv p b hp hb]

/-- WRITE on a known chain latches its stream (41_write.md R163). -/
theorem afterWrite_storage {s : State} (hi : s.Inv) (hw : s.WireReady) (wdata : Nat) (ord : BitOrder) (st : Status) :
    (afterCommand (progWrite s.cfg wdata ord) st s).chain.st = (writeStream s.cfg.n ord wdata).reverse := by
  obtain ⟨-, -, -, -, hsr, -⟩ := (State.inv_iff s).mp hi
  obtain ⟨ha, d, l, oe, rst, hl, hr⟩ := hw.exists_outputs
  have hwire := progWrite_wire s.cfg wdata ord d l oe rst hr s.chain hsr
  rw [(afterCommand_wire st (progWrite_noCfg s.cfg wdata ord) hl ha hr hwire).2]

/-- WRITE on a known chain leaves the latched image of its values under the layout of `ORD` (41_write.md R163). -/
theorem afterWrite_physicalMatch {s : State} (hi : s.Inv) (hw : s.WireReady) (wdata : Nat) (ord : BitOrder)
    (st : Status) : (afterCommand (progWrite s.cfg wdata ord) st s).PhysicalMatch ord := by
  refine .of_stream (v := wdataBit wdata) ?_ fun p b hp hb => ?_
  · rw [afterWrite_storage hi hw, afterCommand_cfg, writeStream]
  · rw [afterCommand_cfg] at hp
    rw [Memory.bit, afterWrite_read hi, if_pos hp, wdataBit_eq _ _ hb]

/-! ### The end state -/

/-- Settles O35: the shadow, the response, the lines and the latched image that WRITE leaves, each by its own lemma above. -/
theorem writeEndState : Obligations.WriteEndState := by
  intro s ord wdata hi hs hfits
  refine ⟨startCommand_idle hs _ _, fun p b hp hb => ?_, _, runInstr_idle hs _, rfl, ?_⟩
  · rw [progWrite_writes _ _ _ hp hb, wdataBit_eq _ _ hb]
  rw [programOf, statusOf]
  have hd : writeStream s.cfg.n ord wdata ≠ [] := stream_ne_nil hi.one_le_n _
  have hl := (afterCommand_lines (progWrite s.cfg wdata ord) .ok s).trans (progWrite_lines s.cfg wdata ord s.lines)
  have hlevel := level_of_latched hd hl
  refine ⟨afterWrite_read hi wdata ord .ok, hlevel .latch, hlevel .clock, ?_, ?_,
    fun hw => afterWrite_physicalMatch hi hw wdata ord .ok, mode_of_latched hd hl, hlevel .oe, hlevel .rst, ?_⟩
  · have hlast : (writeStream s.cfg.n ord wdata).getLast hd = _ := stream_getLast hi.one_le_n _
    rw [hlevel .data, hlast, wdataBit_eq _ _ (wireBit_lt ord (by omega))]
    cases ord <;> rfl
  · rw [afterCommand_trace, List.getLast?_concat, afterWrite_rdata hi hfits]
  · exact ⟨afterCommand_cfg _ _ _, afterCommand_cmdPort _ _ _, afterCommand_resetIn _ _ _, afterCommand_resetMarks _ _ _⟩

end Sys2Proof.Machine
end

section
/-! PROOFS. WRITE_PIN (42_write_pin.md): the state it ends in (R183), and its agreement with the WRITE MSB of its end
shadow (R186). -/

namespace Sys2Proof.Machine

/-! ### The run, in range and out of range -/

theorem outOfRangeStatus_eq (policy : PinPolicy) :
    outOfRangeStatus policy = if policy = .reject then .outOfRange else .ok := by
  cases policy <;> rfl

section Run
variable {s : State} (hs : s.seq = .idle) {pin : BitVec 16} (x : Bool)
include hs

theorem runWritePin_inRange (hp : pin.toNat < 8 * s.cfg.n) :
    runInstr (.writePin pin x) s = .next (afterCommand (progPin s.cfg s.shadow pin.toNat x) .ok s) := by
  have hpin : pinNumber pin < s.cfg.pins := hp
  rw [runInstr_idle hs, programOf, statusOf, if_pos hpin, if_pos hpin, pinNumber]

/-- Out of range, the micro-program is empty and the status is that of `PIN_POLICY` (42_write_pin.md R183). -/
theorem runWritePin_outOfRange (hp : 8 * s.cfg.n ≤ pin.toNat) :
    runInstr (.writePin pin x) s = .next (afterCommand [] (outOfRangeStatus s.cfg.pinPolicy) s) := by
  have hpin : ¬ pinNumber pin < s.cfg.pins := Nat.not_lt.mpr hp
  rw [runInstr_idle hs, programOf, statusOf, if_neg hpin, if_neg hpin]

end Run

theorem afterCommand_outside (prog : List MicroOp) (st : Status) (s : State) :
    s.OutsideUnchanged (afterCommand prog st s) :=
  ⟨afterCommand_cfg _ _ _, afterCommand_cmdPort _ _ _, afterCommand_resetIn _ _ _, afterCommand_resetMarks _ _ _⟩

/-! ### The shadow and the lines, in range -/

/-- Writing the value a shadow bit already holds changes nothing (42_write_pin.md R183). -/
theorem Memory.writeBit_of_bit_eq {n : Nat} {m : Memory} (hm : m.wf n = true) {p b : Nat} (hp : p < n) (hb : b < 8)
    {x : Bool} (hx : m.bit p b = x) : m.writeBit p b x = m := by
  refine Memory.ext_bits (Memory.writeBit_wf hm hp b x) hm fun q _ c hc => ?_
  rw [Memory.bit_writeBit hm hb p q c hc]
  split
  · next htarget => obtain ⟨rfl, rfl⟩ := htarget; exact hx.symm
  · rfl

theorem shadowStream_ne_nil {n : Nat} (h : 1 ≤ n) (m : Memory) : shadowStream n m ≠ [] := stream_ne_nil h _

/-- The last bit of a frame sent MSB first is bit 0 of the last part (30_encoding.md R114). -/
theorem shadowStream_getLast {n : Nat} (h : 1 ≤ n) (m : Memory) :
    (shadowStream n m).getLast (shadowStream_ne_nil h m) = m.bit (n - 1) 0 := stream_getLast h _

section InRange
variable {s u : State} (hi : s.Inv) {pin : Nat} (hp : pin < 8 * s.cfg.n) {x : Bool} {st : Status}
  (hu : afterCommand (progPin s.cfg s.shadow pin x) st s = u)
include hi hp hu

theorem afterPin_shadow : u.shadow = s.shadow.writeBit (pinPart pin) (pinBit pin) x := by
  obtain ⟨-, hm, -⟩ := (State.inv_iff s).mp hi
  rw [← hu, afterCommand_shadow, progPin_shadow hm hp]

theorem afterPin_shadow_wf : u.shadow.wf s.cfg.n = true := by
  obtain ⟨-, hm, -⟩ := (State.inv_iff s).mp hi
  rw [afterPin_shadow hi hp hu]
  exact Memory.writeBit_wf hm (pinPart_lt hp) _ _

/-- WRITE_PIN sends the MSB-first stream of the shadow it leaves (30_encoding.md R114). -/
theorem pinStream_eq_afterPin : pinStream s.cfg.n s.shadow pin x = shadowStream s.cfg.n u.shadow := by
  obtain ⟨-, hm, -⟩ := (State.inv_iff s).mp hi
  rw [afterPin_shadow hi hp hu, pinStream_eq hm]

theorem afterPin_lines :
    u.lines = (afterBits (shadowStream s.cfg.n u.shadow) (s.lines.drive .latch .low)).drive .latch .high := by
  rw [← pinStream_eq_afterPin hi hp hu, ← hu, afterCommand_lines, progPin_lines]

theorem afterPin_trace : u.trace
    = s.trace ++ (latchedEvents ((shadowStream s.cfg.n u.shadow).flatMap fastEvents) ++ [.done st u.rdata]) := by
  rw [← pinStream_eq_afterPin hi hp hu, ← hu, afterCommand_trace, progPin_events, List.append_assoc]

end InRange

/-! ### The end state -/

/-- Settles O37: in range, one shadow bit is written and the lines are those after a latched frame of the new shadow; out of
range, the micro-program is empty. -/
theorem pinEndState : Obligations.PinEndState := by
  intro s pin x hi hs
  obtain ⟨-, hm, -⟩ := (State.inv_iff s).mp hi
  obtain ⟨-, -, -, -, hacceptIn, hacceptOut, -⟩ := acceptStep.1 s 0 hs
  refine ⟨fun hp => ⟨hacceptIn pin x hp, ?_⟩, fun hp => ⟨_, _, hacceptOut pin x hp, runWritePin_outOfRange hs x hp, rfl,
    afterCommand_shadow _ _ _, afterCommand_lines _ _ _, ?_, afterCommand_outside _ _ _⟩⟩
  · obtain ⟨u, hu⟩ : ∃ u, afterCommand (progPin s.cfg s.shadow pin.toNat x) .ok s = u := ⟨_, rfl⟩
    have hshadow := afterPin_shadow hi hp hu
    have hd := shadowStream_ne_nil hi.one_le_n u.shadow
    have hl := afterPin_lines hi hp hu
    have hlevel := level_of_latched hd hl
    refine ⟨u, hu ▸ runWritePin_inRange hs x hp, hu ▸ rfl, fun p b hb => ?_, fun hx => ?_, hlevel .latch, hlevel .clock,
      ?_, ?_, mode_of_latched hd hl, hlevel .oe, hlevel .rst, hu ▸ afterCommand_outside _ _ _⟩
    · rw [hshadow, Memory.bit_writeBit hm (pinBit_lt _) _ _ _ hb]
      rfl
    · rw [hshadow]
      exact Memory.writeBit_of_bit_eq hm (pinPart_lt hp) (pinBit_lt _) hx
    · rw [hlevel .data, shadowStream_getLast hi.one_le_n]
    · rw [afterPin_trace hi hp hu, ← List.append_assoc, List.getLast?_concat]
  · rw [afterCommand_trace, outOfRangeStatus_eq, progEvents_nil, List.append_nil, State.rdata, afterCommand_cfg,
      afterCommand_shadow]
    rfl

/-! ### WRITE of a shadow's image -/

/-- The image of a shadow, read as an operand, has the shadow's parts (20_memory.md R73, R74). -/
theorem wdataByte_rdataOf {n p : Nat} (hp : p < n) (m : Memory) : wdataByte (rdataOf n m) p = m.read p :=
  BitVec.eq_of_toNat_eq ((wdataByte_toNat _ _).trans (packParts_byte m.read hp))

/-- WRITE MSB of the image of a shadow sends the shadow's MSB-first stream (30_encoding.md R113, R114). -/
theorem writeStream_rdataOf (n : Nat) (m : Memory) : writeStream n .msbFirst (rdataOf n m) = shadowStream n m := by
  refine List.map_congr_left fun y hy => ?_
  obtain ⟨hp, hi⟩ := mem_slots.mp hy
  rw [wdataBit_eq _ _ (wireBit_lt _ hi), wdataByte_rdataOf hp, Memory.bit]

/-- WRITE of the image of a canonical shadow leaves that shadow. -/
theorem afterWrite_rdataOf_shadow {s : State} (hi : s.Inv) {m : Memory} (hm : m.wf s.cfg.n = true) (ord : BitOrder)
    (st : Status) : (afterCommand (progWrite s.cfg (rdataOf s.cfg.n m) ord) st s).shadow = m := by
  obtain ⟨-, hs, -⟩ := (State.inv_iff s).mp hi
  refine Memory.ext_wf (n := s.cfg.n) ?_ hm fun p hp => ?_
  · rw [afterCommand_shadow]
    exact (progWrite_ok s.cfg _ ord).shadow_wf hs
  · rw [afterWrite_read hi, if_pos hp, wdataByte_rdataOf hp]

/-! ### Settled cells without their waits -/

/-- A settled cell without its wait is a fast cell (30_encoding.md R111, R112). -/
theorem settledEvents_withoutWait (t : Nat) (d : Bool) :
    (settledEvents t d).filter (fun e => !e.isWait) = fastEvents d := rfl

theorem latchedEvents_withoutWait (cells : List Event) :
    (latchedEvents cells).filter (fun e => !e.isWait) = latchedEvents (cells.filter fun e => !e.isWait) := by
  simp [latchedEvents, Event.isWait]

/-- A latched frame of settled cells without its waits is the frame of fast cells of the same stream. -/
theorem settledFrame_withoutWait (t : Nat) (ds : List Bool) :
    (latchedEvents (ds.flatMap (settledEvents t))).filter (fun e => !e.isWait) = latchedEvents (ds.flatMap fastEvents) := by
  rw [latchedEvents_withoutWait, List.filter_flatMap]
  simp only [settledEvents_withoutWait]

/-! ### The agreement with WRITE -/

/-- Settles O41: WRITE MSB of the end shadow sends the same stream, in settled cells, and leaves the same shadow. -/
theorem pinAgreesWithWrite : Obligations.PinAgreesWithWrite := by
  intro s pin x hi hs hp
  obtain ⟨u, hu⟩ : ∃ u, afterCommand (progPin s.cfg s.shadow pin.toNat x) .ok s = u := ⟨_, rfl⟩
  obtain ⟨v, hv⟩ : ∃ v, afterCommand (progWrite s.cfg (rdataOf s.cfg.n u.shadow) .msbFirst) .ok s = v := ⟨_, rfl⟩
  have hwdata : u.rdata = rdataOf s.cfg.n u.shadow := by rw [State.rdata, ← hu, afterCommand_cfg]
  have hrun : runInstr (.write .msbFirst u.rdata) s = .next v := by
    rw [runInstr_idle hs, programOf, statusOf, hwdata, hv]
  have hshadow : v.shadow = u.shadow := hv ▸ afterWrite_rdataOf_shadow hi (afterPin_shadow_wf hi hp hu) .msbFirst .ok
  have hlines : v.lines = u.lines := by
    rw [← hv, afterCommand_lines, progWrite_lines, writeStream_rdataOf, afterPin_lines hi hp hu]
  have hrdata : v.rdata = u.rdata := by rw [State.rdata, hshadow, ← hv, afterCommand_cfg, hwdata]
  have htrace : v.trace = s.trace ++ (latchedEvents ((shadowStream s.cfg.n u.shadow).flatMap (settledEvents s.cfg.tSettle))
      ++ [.done .ok u.rdata]) := by
    rw [← hrdata, ← hv, afterCommand_trace, progWrite_events, writeStream_rdataOf, List.append_assoc]
  refine ⟨u, v, _, _, hu ▸ runWritePin_inRange hs x hp, hrun, afterPin_trace hi hp hu, htrace, ?_, hshadow.symm,
    hlines.symm, hu ▸ hv ▸ rfl⟩
  rw [List.filter_append, settledFrame_withoutWait]
  rfl

end Sys2Proof.Machine
end

section
/-! PROOFS. ALL_OFF (43_all_off.md R203): the state it ends in, with and without its latch. -/

namespace Sys2Proof.Machine

/-! ### The lines after cells without a latch -/

section Unlatched
variable {s u : State} {ds : List Bool} (hd : ds ≠ []) (hl : u.lines = afterBits ds s.lines)
include hd hl

/-- Cells configure no line. -/
theorem mode_of_unlatched (l : Line) : u.mode l = s.mode l := by
  rw [State.mode, State.mode, hl, afterBits_get _ hd]
  cases l <;> rfl

/-- Cells without a latch leave CLOCK LOW, DATA at the last bit sent and the other lines, LATCH among them, as they were
(43_all_off.md R203). -/
theorem level_of_unlatched (l : Line) : u.level l =
    match l with
    | .latch => s.level .latch
    | .clock => some .low
    | .data => some (lvl (ds.getLast hd))
    | .oe => s.level .oe
    | .rst => s.level .rst := by
  rw [State.level, hl, afterBits_get _ hd]
  cases l <;> rfl

end Unlatched

/-! ### The zeros -/

theorem zeroStream_ne_nil {n : Nat} (h : 1 ≤ n) : zeroStream n ≠ [] := by
  rw [← zeroStream_eq]
  exact stream_ne_nil h _

theorem zeroStream_getLast {n : Nat} (h : zeroStream n ≠ []) : (zeroStream n).getLast h = false :=
  List.getLast_replicate h

/-- Stages that hold the zero stream are zero at every stage of every chip (60_exceptions.md R260). -/
theorem zeroStream_stage {n c k : Nat} (hc : c < n) (hk : k < 8) : (zeroStream n)[8 * c + k]? = some false :=
  Chain.storageStage_cleared hc hk

/-- The wire after ALL_OFF, with and without its latch (43_all_off.md R203). -/
theorem progAllOff_wire_of_latch (c : Config) (latch : Bool) (d l : Level) (oe : Option Level) {rst : Option Level}
    (hr : rst ≠ some .low) {ch : Chain} (hlen : ch.sr.length = 8 * c.n) :
    (progAllOff c latch).foldl wireOp (LineFile.outputs d .low l oe rst, ch)
      = (LineFile.outputs (lastLevel d (zeroStream c.n)) .low (if latch then .high else l) oe rst,
          ⟨zeroStream c.n, if latch then zeroStream c.n else ch.st⟩) := by
  have hz : (zeroStream c.n).reverse = zeroStream c.n := List.reverse_replicate
  cases latch with
  | false => exact (zeroCells_wire c.n d l oe rst hr ch hlen).trans (by rw [hz]; rfl)
  | true => exact (progAllOff_wire c d l oe rst hr ch hlen).trans (by rw [hz]; rfl)

/-! ### The parts of the end state -/

theorem rdata_afterAllOff (latch : Bool) (st : Status) (s : State) :
    (afterCommand (progAllOff s.cfg latch) st s).rdata = if latch then 0 else s.rdata := by
  rw [State.rdata, afterCommand_cfg, afterCommand_shadow, progAllOff_shadow]
  cases latch with
  | false => rfl
  | true => exact rdataOf_nil _

section
variable {s : State} (hi : s.Inv) (latch : Bool) (st : Status)
include hi

theorem mode_afterAllOff (l : Line) : (afterCommand (progAllOff s.cfg latch) st s).mode l = s.mode l := by
  have hd := zeroStream_ne_nil hi.one_le_n
  have hl := (afterCommand_lines _ st s).trans (progAllOff_lines s.cfg latch s.lines)
  cases latch with
  | false => exact mode_of_unlatched hd hl l
  | true => exact mode_of_latched hd hl l

/-- ALL_OFF leaves CLOCK and DATA LOW, and writes LATCH only if it latches (43_all_off.md R203). -/
theorem level_afterAllOff (l : Line) : (afterCommand (progAllOff s.cfg latch) st s).level l =
    match l with
    | .latch => if latch then some .high else s.level .latch
    | .clock => some .low
    | .data => some .low
    | .oe => s.level .oe
    | .rst => s.level .rst := by
  have hd := zeroStream_ne_nil hi.one_le_n
  have hl := (afterCommand_lines _ st s).trans (progAllOff_lines s.cfg latch s.lines)
  cases latch with
  | false => rw [level_of_unlatched hd hl, zeroStream_getLast]; cases l <;> rfl
  | true => rw [level_of_latched hd hl, zeroStream_getLast]; cases l <;> rfl

/-- On a known chain ALL_OFF fills the shift stages with zeros, and the latched image only if it latches (43_all_off.md
R203). -/
theorem chain_afterAllOff (hw : s.WireReady) : (afterCommand (progAllOff s.cfg latch) st s).chain
    = ⟨zeroStream s.cfg.n, if latch then zeroStream s.cfg.n else s.chain.st⟩ := by
  obtain ⟨-, -, -, -, hsr, -⟩ := (State.inv_iff s).mp hi
  obtain ⟨ha, d, l, oe, rst, hl, hr⟩ := hw.exists_outputs
  exact (afterCommand_wire st (progAllOff_noCfg s.cfg latch) hl ha hr
    (progAllOff_wire_of_latch s.cfg latch d l oe hr hsr)).2

end

/-! ### The end state -/

/-- Settles O38: the shadow, the lines, the response and the chain that ALL_OFF leaves, each by its own lemma above. -/
theorem allOffEndState : Obligations.AllOffEndState := by
  intro s latch hi hs
  refine ⟨startCommand_idle hs _ _, _, runInstr_idle hs _, rfl, ?_⟩
  rw [programOf, statusOf]
  have hlevel := level_afterAllOff hi latch .ok
  refine ⟨fun p => ?_, hlevel .latch, hlevel .clock, hlevel .data, ?_, fun hw c k hc hk => ?_,
    mode_afterAllOff hi latch .ok, hlevel .oe, hlevel .rst, afterCommand_outside _ _ _⟩
  · rw [afterCommand_shadow, progAllOff_shadow]
    cases latch <;> rfl
  · rw [afterCommand_trace, List.getLast?_concat, rdata_afterAllOff]
  · rw [chain_afterAllOff hi latch .ok hw]
    refine ⟨zeroStream_stage hc hk, ?_⟩
    cases latch with
    | false => rfl
    | true => exact zeroStream_stage hc hk

end Sys2Proof.Machine
end

section
/-! PROOFS. STATE (44_state.md R222): it has no effect but its response, and when its word is rejected. -/

namespace Sys2Proof.Machine

/-! ### The empty micro-program -/

/-- An empty micro-program leaves the response as it was (20_memory.md R74). -/
theorem afterCommand_nil_rdata (st : Status) (s : State) : (afterCommand [] st s).rdata = s.rdata := by
  rw [State.rdata, afterCommand_cfg, afterCommand_shadow, List.foldl_nil, State.rdata]

/-- An empty micro-program emits no event but its `Done` (10_state.md R47). -/
theorem afterCommand_nil_trace (st : Status) (s : State) :
    (afterCommand [] st s).trace = s.trace ++ [.done st s.rdata] := by
  rw [afterCommand_trace, afterCommand_nil_rdata, progEvents_nil, List.append_nil]

/-! ### The word of STATE -/

/-- For the opcode of STATE the cases of 30_encoding.md R121 are the three of 44_state.md R222: the unknown opcodes are
others, and `PIN` and `F` are free only under others. -/
theorem decode_illegal_iff_of_state_op {cw : Word} {wdata : Nat} (hop : cw.toNat % 16 = 5) :
    (∃ why, decode cw wdata = .illegal why) ↔
      (cw.getLsbD 4 = true ∨ cw.toNat / 32 % 2 ^ 11 ≠ 0 ∨ cw.toNat / 2 ^ 16 ≠ 0) := by
  have hknown : ¬(cw.toNat % 16 = 0 ∨ 6 ≤ cw.toNat % 16) := by omega
  have hpin : cw.toNat % 16 ≠ 3 := by omega
  rw [decode_illegal_iff_toNat, or_iff_right hknown, and_iff_left hpin, and_iff_left (Or.inr hop), ← or_assoc, or_comm]

/-! ### The effect -/

/-- Settles O40: STATE is the empty micro-program with status OK, and R121 on its opcode. -/
theorem stateEffect : Obligations.StateEffect := by
  refine ⟨fun s hs => ?_, fun _ _ => decode_illegal_iff_of_state_op⟩
  have hrun : runInstr .state s = .next (afterCommand [] .ok s) := runInstr_idle hs .state
  exact ⟨startCommand_idle hs _ _, _, hrun, rfl, afterCommand_shadow _ _ _, afterCommand_lines _ _ _,
    afterCommand_nil_trace _ _, afterCommand_outside _ _ _⟩

end Sys2Proof.Machine
end

section
/-! PROOFS. Commands to their end (60_exceptions.md): each completes with one `Done` (R230), a frame lands in the chain in
reverse (R263), and the latched image of a booted controller is its shadow (R265). -/

namespace Sys2Proof.Machine

/-! ### Completion -/

/-- Only the completion step emits a `Done` (10_state.md R46, R47). -/
theorem MicroOp.event_ne_done (op : MicroOp) : ∀ e ∈ op.event, e.isDone = false := by
  cases op <;> simp [MicroOp.event, Event.isDone]

theorem progEvents_ne_done (prog : List MicroOp) : ∀ e ∈ progEvents prog, e.isDone = false := by
  intro e he
  obtain ⟨op, -, hop⟩ := List.mem_filterMap.mp he
  exact op.event_ne_done e hop

/-- Settles O13: the events before the completion step are those of micro-operations. -/
theorem everyCommandCompletesOnce : Obligations.EveryCommandCompletesOnce := fun s c hs =>
  ⟨_, progEvents (commandProgram s.cfg s.shadow c), runCommand_idle hs c, rfl, afterCommand_trace _ _ _,
    progEvents_ne_done _, afterCommand_outside _ _ _⟩

/-! ### The chain after a frame -/

theorem streamOf_writePin_eq_some {c : Config} {m : Memory} {pin : BitVec 16} {x : Bool} {ds : List Bool}
    (h : streamOf c m (.writePin pin x) = some ds) :
    pinNumber pin < c.pins ∧ shadowStream c.n (m.writeBit (pinPart (pinNumber pin)) (pinBit (pinNumber pin)) x) = ds := by
  simpa [streamOf] using h

theorem streamOf_length {c : Config} {m : Memory} {i : Instr} {ds : List Bool} (h : streamOf c m i = some ds) :
    ds.length = 8 * c.n := by
  cases i with
  | init | allOff latch => rw [← Option.some.inj h, zeroStream, List.length_replicate]
  | write ord w => rw [← Option.some.inj h, writeStream_length]
  | writePin pin x => rw [← (streamOf_writePin_eq_some h).2, shadowStream_length]
  | state => cases h

/-- WRITE_PIN in range on a known chain leaves the MSB-first stream of its new shadow in both stages
(42_write_pin.md R183). -/
theorem afterPin_chain {s u : State} (hi : s.Inv) (hw : s.WireReady) {pin : Nat} (hp : pin < 8 * s.cfg.n) {x : Bool}
    {st : Status} (hu : afterCommand (progPin s.cfg s.shadow pin x) st s = u) :
    u.chain = ⟨(shadowStream s.cfg.n u.shadow).reverse, (shadowStream s.cfg.n u.shadow).reverse⟩ := by
  obtain ⟨-, -, -, -, hsr, -⟩ := (State.inv_iff s).mp hi
  obtain ⟨ha, d, l, oe, rst, hl, hr⟩ := hw.exists_outputs
  have hwire := progPin_wire s.cfg s.shadow pin x d l oe rst hr s.chain hsr
  rw [← pinStream_eq_afterPin hi hp hu, ← hu]
  exact (afterCommand_wire st (progPin_noCfg s.cfg s.shadow pin x) hl ha hr hwire).2

/-- A frame fills the shift stages of a known chain with its stream, the first bit deepest (60_exceptions.md R263). -/
theorem afterFrame_sr {s : State} (hi : s.Inv) (hw : s.WireReady) {i : Instr} {ds : List Bool}
    (h : streamOf s.cfg s.shadow i = some ds) (st : Status) :
    (afterCommand (programOf s.cfg s.shadow i) st s).chain.sr = ds.reverse := by
  cases i with
  | init =>
    rw [programOf, afterInit_chain hi, ← Option.some.inj h]
    exact List.reverse_replicate.symm
  | write ord w =>
    obtain ⟨-, -, -, -, hsr, -⟩ := (State.inv_iff s).mp hi
    obtain ⟨ha, d, l, oe, rst, hl, hr⟩ := hw.exists_outputs
    have hwire := progWrite_wire s.cfg w ord d l oe rst hr s.chain hsr
    rw [programOf, (afterCommand_wire st (progWrite_noCfg s.cfg w ord) hl ha hr hwire).2, ← Option.some.inj h]
  | writePin pin x =>
    obtain ⟨hp, hds⟩ := streamOf_writePin_eq_some h
    rw [programOf, if_pos hp, afterPin_chain hi hw hp rfl, afterPin_shadow hi hp rfl, hds]
  | allOff latch =>
    rw [programOf, chain_afterAllOff hi latch st hw, ← Option.some.inj h]
    exact List.reverse_replicate.symm
  | state => cases h

section Placement
variable {u : State} {n : Nat} {ds : List Bool} (hsr : u.chain.sr = ds.reverse) (hl : ds.length = 8 * n)
include hsr hl

/-- The bit sent `t`-th is at global cell `8N - 1 - t` (60_exceptions.md R263). -/
theorem shiftStage_of_sent {t : Nat} (ht : t < 8 * n) :
    u.chain.shiftStage ((8 * n - 1 - t) / 8) ((8 * n - 1 - t) % 8) = ds[t]? := by
  rw [Chain.shiftStage, hsr, Nat.div_add_mod, List.getElem?_reverse (by omega), hl]
  congr 1
  omega

/-- The `j`-th bit of part `p` is at stage `7 - j` of chip `N - 1 - p` (60_exceptions.md R263). -/
theorem shiftStage_of_part {p j : Nat} (hp : p < n) (hj : j < 8) :
    u.chain.shiftStage (n - 1 - p) (7 - j) = ds[8 * p + j]? := by
  rw [Chain.shiftStage, hsr, reverse_stage hl hp hj]

end Placement

/-- Value bit `b` of part `p` is at the stage that the order of its stream gives it (60_exceptions.md R263). -/
theorem shiftStage_of_stream {u : State} {n : Nat} {ord : BitOrder} {v : Nat → Nat → Bool}
    (hsr : u.chain.sr = ((slots n).map fun x => v x.1 (wireBit ord x.2)).reverse) {p b : Nat} (hp : p < n) (hb : b < 8) :
    u.chain.shiftStage (n - 1 - p) (stageOf ord b) = some (v p b) := by
  have hst : (Chain.mk [] u.chain.sr).storageStage (n - 1 - p) (stageOf ord b) = _ :=
    storageStage_of_stream (g := fun x => v x.1 (wireBit ord x.2)) hsr ord hp hb
  rwa [wireBit_wireBit ord hb] at hst

/-- Settles O48: the shift stages hold the stream in reverse, and the streams of WRITE and WRITE_PIN go through the slots in
order. -/
theorem framePlacement : Obligations.FramePlacement := by
  intro s i ds hi hs hw hds
  have hl := streamOf_length hds
  have hsr := afterFrame_sr hi hw hds (statusOf s.cfg i)
  refine ⟨hl, _, runInstr_idle hs i, fun t => shiftStage_of_sent hsr hl, fun p j => shiftStage_of_part hsr hl, ?_, ?_⟩
  · rintro ord w rfl p b hp hb
    obtain rfl : writeStream s.cfg.n ord w = ds := Option.some.inj hds
    rw [← wdataBit_eq w p hb]
    have hstage := shiftStage_of_stream (v := wdataBit w) hsr hp hb
    cases ord <;> exact hstage
  · rintro pin x rfl p b hp hb
    obtain ⟨hpin, rfl⟩ := streamOf_writePin_eq_some hds
    rw [programOf, if_pos hpin] at hsr ⊢
    rw [← afterPin_shadow hi hpin rfl] at hsr
    exact shiftStage_of_stream (v := Memory.bit _) hsr hp hb

/-! ### The latched image after a command -/

/-- An all-zero latched frame leaves a match under either order (60_exceptions.md R265). -/
theorem State.PhysicalMatch.of_zero {u : State} (hst : u.chain.st = zeroStream u.cfg.n) (hm : u.shadow = [])
    (ord : BitOrder) : u.PhysicalMatch ord := by
  intro p hp b hb
  have hstage : stageOf ord b < 8 := by cases ord <;> simp only [stageOf] <;> omega
  have hzero : u.shadow.bit p b = false := by simp [hm, Memory.bit]
  rw [Chain.storageStage, hst, zeroStream_stage (by omega) hstage, hzero]

/-- A command that latches no frame and writes no shadow bit keeps the match (60_exceptions.md R265). -/
theorem State.PhysicalMatch.of_unchanged {s u : State} {ord : BitOrder} (h : s.PhysicalMatch ord) (hc : u.cfg = s.cfg)
    (hst : u.chain.st = s.chain.st) (hm : u.shadow = s.shadow) : u.PhysicalMatch ord := by
  intro p hp b hb
  rw [hc] at hp
  rw [Chain.storageStage, hst, hm, hc]
  exact h p hp b hb

theorem afterInit_physicalMatch {s : State} (hi : s.Inv) (st : Status) (ord : BitOrder) :
    (afterCommand (progInit s.cfg) st s).PhysicalMatch ord := by
  refine .of_zero ?_ (afterInit_shadow st s) ord
  rw [afterInit_chain hi, afterCommand_cfg]
  rfl

theorem afterCommand_nil_chain {s : State} (hw : s.WireReady) (st : Status) : (afterCommand [] st s).chain = s.chain := by
  obtain ⟨ha, d, l, oe, rst, hl, hr⟩ := hw.exists_outputs
  exact (afterCommand_wire st (prog := []) (by simp) hl ha hr rfl).2

/-- A rejected command and STATE keep the match (60_exceptions.md R231, R265). -/
theorem afterCommand_nil_physicalMatch {s : State} (hw : s.WireReady) (st : Status) {ord : BitOrder}
    (hm : s.PhysicalMatch ord) : (afterCommand [] st s).PhysicalMatch ord :=
  hm.of_unchanged (afterCommand_cfg _ _ _) (by rw [afterCommand_nil_chain hw]) (afterCommand_shadow _ _ _)

section KnownChain
variable {s : State} (hi : s.Inv) (hw : s.WireReady) (st : Status)
include hi hw

theorem afterPin_physicalMatch {pin : Nat} (hp : pin < 8 * s.cfg.n) (x : Bool) :
    (afterCommand (progPin s.cfg s.shadow pin x) st s).PhysicalMatch .msbFirst := by
  refine .of_stream (v := Memory.bit (afterCommand (progPin s.cfg s.shadow pin x) st s).shadow) ?_ fun _ _ _ _ => rfl
  rw [afterPin_chain hi hw hp rfl, afterCommand_cfg, shadowStream]

theorem afterLatchedAllOff_physicalMatch (ord : BitOrder) :
    (afterCommand (progAllOff s.cfg true) st s).PhysicalMatch ord := by
  refine .of_zero ?_ ?_ ord
  · rw [chain_afterAllOff hi true st hw, afterCommand_cfg, if_pos rfl]
  · rw [afterCommand_shadow, progAllOff_shadow, if_pos rfl]

theorem afterUnlatchedAllOff_physicalMatch {ord : BitOrder} (hm : s.PhysicalMatch ord) :
    (afterCommand (progAllOff s.cfg false) st s).PhysicalMatch ord := by
  refine hm.of_unchanged (afterCommand_cfg _ _ _) ?_ ?_
  · rw [chain_afterAllOff hi false st hw]
    rfl
  · rw [afterCommand_shadow, progAllOff_shadow]
    rfl

/-- On a known chain every command leaves a match under the order of its latched frame, or under the order before where it
latches none (60_exceptions.md R265). -/
theorem afterCommand_physicalMatch {ord : BitOrder} (hm : s.PhysicalMatch ord) (c : Command) :
    (afterCommand (commandProgram s.cfg s.shadow c) st s).PhysicalMatch (orderAfter s.cfg ord c) := by
  unfold commandProgram orderAfter
  cases decode c.cw c.wdata with
  | illegal why => exact afterCommand_nil_physicalMatch hw st hm
  | instr i =>
    cases i with
    | init => exact afterInit_physicalMatch hi st ord
    | write ord' w => exact afterWrite_physicalMatch hi hw w ord' st
    | writePin pin x =>
      by_cases hp : pinNumber pin < s.cfg.pins
      · simp only [programOf, if_pos hp]
        exact afterPin_physicalMatch hi hw st hp x
      · simp only [programOf, if_neg hp]
        exact afterCommand_nil_physicalMatch hw st hm
    | allOff latch =>
      cases latch with
      | false => exact afterUnlatchedAllOff_physicalMatch hi hw st hm
      | true => exact afterLatchedAllOff_physicalMatch hi hw st ord
    | state => exact afterCommand_nil_physicalMatch hw st hm

theorem afterZeroFrame_physicalMatch {c : Command}
    (hc : decode c.cw c.wdata = .instr .init ∨ decode c.cw c.wdata = .instr (.allOff true)) (ord : BitOrder) :
    (afterCommand (commandProgram s.cfg s.shadow c) st s).PhysicalMatch ord := by
  unfold commandProgram
  obtain hc | hc := hc <;> rw [hc]
  · exact afterInit_physicalMatch hi st ord
  · exact afterLatchedAllOff_physicalMatch hi hw st ord

end KnownChain

/-! ### The match as an invariant of commands -/

/-- A frame sent by a booted controller with no abandoned command reaches a known chain (10_state.md R53). -/
theorem State.WireReady.of_booted {s : State} (hb : s.lines.booted = true) (ha : s.abandoned = false) : s.WireReady := by
  obtain ⟨d, oe, rst, hl, -, hr⟩ := LineFile.exists_booted hb
  refine ⟨by simp [State.chainKnown, ha, hl], by rw [State.level, hl]; rfl, ?_⟩
  rw [State.level, hl]
  obtain rfl | rfl := hr <;> simp [LineFile.get, LineFile.outputs]

/-- Between commands, after INIT: idle, booted, no command abandoned, and the latched image is the shadow under `ord`
(10_state.md R53, 60_exceptions.md R265). -/
structure State.Matched (s : State) (ord : BitOrder) : Prop where
  inv : s.Inv
  idle : s.seq = .idle
  booted : s.lines.booted = true
  notAbandoned : s.abandoned = false
  physicalMatch : s.PhysicalMatch ord

theorem State.Matched.wireReady {s : State} {ord : BitOrder} (h : s.Matched ord) : s.WireReady :=
  .of_booted h.booted h.notAbandoned

theorem State.Matched.afterCommand {s : State} {ord : BitOrder} (h : s.Matched ord) (c : Command) (st : Status) :
    (afterCommand (commandProgram s.cfg s.shadow c) st s).Matched (orderAfter s.cfg ord c) where
  inv := afterCommand_inv h.inv (commandProgram_ok _ _ _) st
  idle := rfl
  booted := by
    obtain ⟨-, -, hl, -⟩ := (State.inv_iff s).mp h.inv
    rw [afterCommand_lines]
    exact commandProgram_booted s.shadow c hl h.booted
  notAbandoned := by rw [afterCommand_abandoned, h.notAbandoned, Bool.false_and]
  physicalMatch := afterCommand_physicalMatch h.inv h.wireReady st h.physicalMatch c

/-- INIT makes the match from any idle state, under either order (40_bringup.md R143, 60_exceptions.md R265). -/
theorem State.Inv.matched_afterInit {s : State} (hi : s.Inv) (st : Status) (ord : BitOrder) :
    (afterCommand (progInit s.cfg) st s).Matched ord where
  inv := afterCommand_inv hi (progInit_ok _) st
  idle := rfl
  booted := by
    obtain ⟨-, -, hl, -⟩ := (State.inv_iff s).mp hi
    rw [afterCommand_lines]
    exact progInit_booted hl
  notAbandoned := by simp
  physicalMatch := afterInit_physicalMatch hi st ord

/-- Settles O56: every command keeps the match, and an all-zero latched frame makes it under either order. -/
theorem commandKeepsPhysicalMatch : Obligations.CommandKeepsPhysicalMatch := by
  intro s ord c hi hs hb ha hm
  have h : s.Matched ord := ⟨hi, hs, hb, ha, hm⟩
  obtain ⟨hi', hs', hb', ha', hm'⟩ := h.afterCommand c (commandStatus s.cfg c)
  exact ⟨_, runCommand_idle hs c, hi', hs', hb', ha', hm',
    fun hc ord' => afterZeroFrame_physicalMatch hi h.wireReady _ hc ord'⟩

/-- Every list of commands keeps the match. -/
theorem State.Matched.runCommands {s : State} {ord : BitOrder} (h : s.Matched ord) (cs : List Command) :
    ∃ u, runCommands cs s = .next u ∧ u.Matched (ordersAfter s.cfg ord cs) := by
  induction cs generalizing s ord with
  | nil => exact ⟨s, rfl, h⟩
  | cons c cs ih =>
    obtain ⟨u, hrun, hu⟩ := ih (h.afterCommand c (commandStatus s.cfg c))
    rw [afterCommand_cfg] at hu
    exact ⟨u, by rw [Machine.runCommands, runCommand_idle h.idle]; exact hrun, hu⟩

/-- Settles O50: INIT makes the match and the commands after it keep it. -/
theorem physicalInvariant : Obligations.PhysicalInvariant := by
  intro s ord cs hi hs
  have hinit : runCommand (encode .init) s = .next (afterCommand (progInit s.cfg) .ok s) := runCommand_idle hs _
  obtain ⟨u, hrun, hu⟩ := (hi.matched_afterInit .ok ord).runCommands cs
  rw [afterCommand_cfg] at hu
  exact ⟨u, by rw [runCommands, hinit]; exact hrun, hu.idle, hu.physicalMatch⟩

end Sys2Proof.Machine
end

section
/-! PROOFS. The chain, step by step (60_exceptions.md R261, R262, R264, R266): what one step does to the stages of a known
chain, and what an undriven line leaves of them. -/

namespace Sys2Proof.Machine

/-! ### Pins of driven lines -/

theorem LineFile.level_of_pin {f : LineFile} {l : Line} {v : Level} (h : f.pin l = some (.driven v)) :
    (f.get l).map LineReg.level = some v := by
  obtain ⟨⟨mode, level⟩, hget, hp⟩ := Option.map_eq_some_iff.mp h
  cases mode with
  | output => simpa [hget] using hp
  | unconfigured => simp at hp

theorem LineFile.pin_of_driven {f : LineFile} (hf : f.anyUndriven = false) {l : Line} {v : Level}
    (h : (f.get l).map LineReg.level = some v) : f.pin l = some (.driven v) := by
  obtain ⟨⟨mode, level⟩, hget, rfl⟩ := Option.map_eq_some_iff.mp h
  obtain rfl : mode = .output := f.driven_iff.mp hf l _ hget
  simp [LineFile.pin, hget]

/-! ### A step of a known chain -/

section KnownStep
variable {s t : State} (hr : s.resetNow = false) (h : step s = .next t) (hk : s.chainKnown = true)
include hr h

/-- A step without reset changes the lines by its current micro-operation alone (10_state.md R46). -/
theorem quietStep_lines :
    t.lines = s.currentOp.elim s.lines fun op => op.onLines s.lines := by
  cases ho : s.currentOp with
  | none => exact (quietStep_of_no_currentOp hr h ho).1
  | some op => exact (quietStep_of_currentOp hr h ho).1

/-- Only SET(RST, LOW) starts a clear (10_state.md R37, 60_exceptions.md R264). -/
theorem clearActive_of_no_set (hrst : s.level .rst ≠ some .low) (ho : ∀ v, s.currentOp ≠ some (.set .rst v)) :
    clearActive t.lines = false := by
  rw [Bool.eq_false_iff]
  intro hc
  have ht : t.level .rst = some .low := LineFile.level_of_pin (eq_of_beq hc)
  rw [(levelWrittenOnlyBySet s t .rst hr h).2 ho] at ht
  exact hrst ht

include hk

/-- On a known chain a step leaves every line driven, and the stages follow the lines (60_exceptions.md R260, R266). -/
theorem knownStep_chain :
    t.chain = ⟨Chain.nextSr s.lines t.lines s.chain, Chain.nextSt s.lines t.lines s.chain⟩ := by
  obtain ⟨ha, hd⟩ : s.abandoned = false ∧ s.lines.anyUndriven = false := by simpa [State.chainKnown] using hk
  have hd' : t.lines.anyUndriven = false := by
    rw [quietStep_lines hr h]
    cases s.currentOp with
    | none => exact hd
    | some op => exact op.onLines_keeps_driven hd
  rw [quietStep_chain hr h ha]
  simp [Chain.observe, hd, hd']

/-- On a known chain the rising edges are the SETs to HIGH of a LOW line (60_exceptions.md R261, R262). -/
theorem knownStep_risingEdge_iff (l : Line) :
    risingEdge s.lines t.lines l = true ↔ s.currentOp = some (.set l .high) ∧ s.level l = some .low := by
  obtain ⟨-, hd⟩ : s.abandoned = false ∧ s.lines.anyUndriven = false := by simpa [State.chainKnown] using hk
  rw [quietStep_lines hr h]
  constructor
  · intro he
    cases ho : s.currentOp with
    | none =>
      rw [ho, Option.elim_none, not_risingEdge_self] at he
      cases he
    | some op =>
      rw [ho] at he
      exact ⟨congrArg some (MicroOp.eq_set_of_risingEdge he), (level_of_risingEdge he).1⟩
  · rintro ⟨ho, hl⟩
    have hhigh : ((s.lines.drive l .high).get l).map LineReg.level = some .high := by
      rw [LineFile.level_drive, if_pos rfl, show (s.lines.get l).map LineReg.level = some .low from hl]
      rfl
    have hafter : (s.lines.drive l .high).pin l = some (.driven .high) :=
      LineFile.pin_of_driven (by rw [LineFile.anyUndriven_drive, hd]) hhigh
    rw [ho, Option.elim_some, risingEdge, LineFile.pin_of_driven hd hl]
    simp [MicroOp.onLines, hafter]

theorem knownStep_sr_of_rise (hc : clearActive t.lines = false) (ho : s.currentOp = some (.set .clock .high))
    (hl : s.level .clock = some .low) : t.chain.sr = Chain.shiftIn (t.lines.data.level == .high) s.chain.sr := by
  rw [knownStep_chain hr h hk, Chain.nextSr, hc, (knownStep_risingEdge_iff hr h hk .clock).mpr ⟨ho, hl⟩]
  rfl

theorem knownStep_sr_of_no_rise (hc : clearActive t.lines = false)
    (hn : ¬(s.currentOp = some (.set .clock .high) ∧ s.level .clock = some .low)) : t.chain.sr = s.chain.sr := by
  have hedge := (knownStep_risingEdge_iff hr h hk .clock).not.mpr hn
  rw [knownStep_chain hr h hk, Chain.nextSr, hc, if_neg Bool.false_ne_true, if_neg hedge]

theorem knownStep_st_of_rise (ho : s.currentOp = some (.set .latch .high)) (hl : s.level .latch = some .low) :
    t.chain.st = s.chain.sr := by
  rw [knownStep_chain hr h hk, Chain.nextSt, if_pos ((knownStep_risingEdge_iff hr h hk .latch).mpr ⟨ho, hl⟩)]

theorem knownStep_st_of_no_rise (hn : ¬(s.currentOp = some (.set .latch .high) ∧ s.level .latch = some .low)) :
    t.chain.st = s.chain.st := by
  rw [knownStep_chain hr h hk, Chain.nextSt, if_neg ((knownStep_risingEdge_iff hr h hk .latch).not.mpr hn)]

end KnownStep

/-! ### The shift -/

theorem Chain.shiftIn_getElem?_zero {x : Bool} {sr : List Bool} (h : 0 < sr.length) :
    (Chain.shiftIn x sr)[0]? = some x := by
  simp [Chain.shiftIn, h]

/-- Every stage takes the one before it (60_exceptions.md R261). -/
theorem Chain.shiftIn_getElem?_succ {x : Bool} {sr : List Bool} {j : Nat} (h : j + 1 < sr.length) :
    (Chain.shiftIn x sr)[j + 1]? = sr[j]? := by
  rw [Chain.shiftIn, List.getElem?_take_of_lt h, List.getElem?_cons_succ]

/-- Settles O44: a rise of CLOCK shifts DATA in, and SET(CLOCK, LOW) raises no line. -/
theorem chainShift : Obligations.ChainShift := by
  intro s t hi hr h hk hrst
  obtain ⟨-, -, -, -, hsr, -⟩ := (State.inv_iff s).mp hi
  have hn := hi.one_le_n
  refine ⟨fun ho hl => ?_, fun ho => ?_⟩
  · have hc := clearActive_of_no_set hr h hrst (by simp [ho])
    have hshift := knownStep_sr_of_rise hr h hk hc ho hl
    refine ⟨fun v hv => ?_, fun c hc => ?_, fun c k hc hk => ?_⟩
    · have hdata : t.level .data = some v := by
        rw [(levelWrittenOnlyBySet s t .data hr h).2 (by simp [ho]), hv]
      obtain rfl : t.lines.data.level = v := Option.some.inj hdata
      rw [Chain.shiftStage, hshift]
      exact Chain.shiftIn_getElem?_zero (by omega)
    · rw [Chain.shiftStage, hshift]
      exact Chain.shiftIn_getElem?_succ (j := 8 * c + 7) (by omega)
    · rw [Chain.shiftStage, hshift]
      exact Chain.shiftIn_getElem?_succ (j := 8 * c + k) (by omega)
  · have hc := clearActive_of_no_set hr h hrst (by simp [ho])
    have hsr := knownStep_sr_of_no_rise hr h hk hc (by simp [ho])
    have hst := knownStep_st_of_no_rise hr h hk (by simp [ho])
    calc t.chain = ⟨t.chain.sr, t.chain.st⟩ := rfl
      _ = s.chain := by rw [hsr, hst]

/-! ### The latch and the outputs -/

theorem Chain.output_of_disabled {f : LineFile} {ch : Chain} {c k : Nat} {x : Bool}
    (hf : f.pin .oe = some (.driven .high)) (hx : ch.storageStage c k = some x) (tick : Nat) :
    ch.output true f tick c k = some .highZ := by
  simp [Chain.output, hx, hf]

/-- Where the chain is not known an output is a free value, whatever OE is (60_exceptions.md R266). -/
theorem Chain.output_of_unknown {f : LineFile} {ch : Chain} {c k : Nat} {x : Bool}
    (hx : ch.storageStage c k = some x) (tick : Nat) :
    ch.output false f tick c k = some (Chain.freeOutput tick (8 * c + k)) := by
  simp [Chain.output, hx]

/-- Settles O45: the storage stages change at a rise of LATCH alone, and OE decides the outputs of a known chain. -/
theorem chainLatchAndOutputs : Obligations.ChainLatchAndOutputs := by
  refine ⟨fun s t _ hr h hk => ⟨knownStep_st_of_rise hr h hk, fun _ hl => ?_, fun ho => ?_⟩, fun s c k x hx => ?_⟩
  · exact knownStep_st_of_no_rise hr h hk (by simp [hl])
  · exact knownStep_st_of_no_rise hr h hk (by simp [ho])
  · refine ⟨fun hk hoe => ?_, fun hk hoe => ?_, fun hk => ?_⟩ <;> rw [State.output, hk]
    · exact Chain.output_of_enabled hoe hx _
    · exact Chain.output_of_disabled hoe hx _
    · exact Chain.output_of_unknown hx _

/-! ### The clear -/

/-- While the clear is active every shift stage is 0 (60_exceptions.md R264). -/
theorem knownStep_sr_of_clear {s t : State} (hr : s.resetNow = false) (h : step s = .next t) (hk : s.chainKnown = true)
    (hc : t.pin .rst = some (.driven .low)) : t.chain.sr = List.replicate s.chain.sr.length false := by
  have hclear : clearActive t.lines = true := beq_iff_eq.mpr hc
  rw [knownStep_chain hr h hk, Chain.nextSr, hclear, if_pos rfl, List.map_const']

/-- Settles O46: the clear reaches the shift stages alone. -/
theorem chainClear : Obligations.ChainClear := by
  intro s t hi hr h hk hc
  obtain ⟨-, -, -, -, hsr, -⟩ := (State.inv_iff s).mp hi
  refine ⟨fun c k hcn hk8 => ?_, fun ho => knownStep_st_of_no_rise hr h hk fun hrise => ho hrise.1⟩
  rw [Chain.shiftStage, knownStep_sr_of_clear hr h hk hc, hsr, List.getElem?_replicate_of_lt (by omega)]

/-! ### Undriven lines -/

/-- Every step, reset or not, is one that the chain looks on (60_exceptions.md R260). -/
theorem step_observed {s t : State} (h : step s = .next t) :
    ∃ u, u.cfg = s.cfg ∧ t = observeChain s.sampled u := by
  obtain ⟨-, ⟨-, ht⟩ | ⟨-, u, hu, ht⟩⟩ := step_cases h
  · exact ⟨controllerReset s.sampled, rfl, ht⟩
  · exact ⟨u, controllerStep_cfg (s := s.sampled) hu, ht⟩

theorem step_freeTick {s t : State} (h : step s = .next t) : t.freeTick = s.freeTick + 1 := by
  obtain ⟨u, -, rfl⟩ := step_observed h
  rfl

theorem Chain.observe_undriven {n tick : Nat} {f g : LineFile} (h : f.anyUndriven = true ∨ g.anyUndriven = true)
    (ch : Chain) : Chain.observe n tick f g ch = Chain.unknown n tick := by
  rw [Chain.observe, if_pos (by simpa using h)]

/-- A line undriven before or after a step draws every stage anew, an abandoned command or not (60_exceptions.md R266). -/
theorem Chain.afterStep_undriven {n tick : Nat} {f g : LineFile} (h : f.anyUndriven = true ∨ g.anyUndriven = true)
    (x y : Bool) (ch : Chain) : Chain.afterStep n tick x y f g ch = Chain.unknown n tick := by
  cases y with
  | true => rfl
  | false => exact Chain.observe_undriven h _

theorem step_chain_of_undriven {s t : State} (h : step s = .next t)
    (hu : s.lines.anyUndriven = true ∨ t.lines.anyUndriven = true) : t.chain = Chain.unknown s.cfg.n s.freeTick := by
  obtain ⟨u, hcfg, rfl⟩ := step_observed h
  rw [← hcfg]
  exact Chain.afterStep_undriven hu _ _ _

theorem Chain.storageStage_unknown {n c k : Nat} (tick : Nat) (hc : c < n) (hk : k < 8) :
    (Chain.unknown n tick).storageStage c k = some (Config.freeSt tick (8 * c + k)) := by
  have h : 8 * c + k < 8 * n := by omega
  simp [Chain.storageStage, Chain.unknown, h]

/-- Settles O54: a line undriven before or after the step makes the stages a fresh draw, and one undriven after it the
outputs too. -/
theorem undrivenChainUnknown : Obligations.UndrivenChainUnknown := by
  intro s t h hu
  have hchain := step_chain_of_undriven h hu
  refine ⟨hchain, step_freeTick h, fun ht c k hc hk => ?_⟩
  have hknown : t.chainKnown = false := by simp [State.chainKnown, ht]
  rw [State.output, hknown, hchain]
  exact Chain.output_of_unknown (Chain.storageStage_unknown _ hc hk) _

end Sys2Proof.Machine
end

section
/-! PROOFS. Reset and abandoned commands (70_reset_and_hazards.md section 1), the output enable during INIT (section 3), and
the timing table (section 4). -/

namespace Sys2Proof.Machine

/-! ### INIT behind its output enable -/

/-- A micro-operation that writes no register of a line. -/
def MicroOp.leaves (l : Line) : MicroOp → Bool
  | .cfg k => k != l
  | .set k _ => k != l
  | .wait _ => true
  | .shb _ _ _ => true
  | .shz => true

theorem MicroOp.get_onLines_of_leaves {op : MicroOp} {l : Line} (h : op.leaves l = true) (f : LineFile) :
    (op.onLines f).get l = f.get l := by
  cases op with
  | cfg k => exact (f.get_configure k l).trans (if_neg fun e => by simp [MicroOp.leaves, e] at h)
  | set k v => exact (f.get_drive k l v).trans (if_neg fun e => by simp [MicroOp.leaves, e] at h)
  | wait t | shb p b x | shz => rfl

theorem LineFile.pin_foldl_of_leaves {prog : List MicroOp} {l : Line} (h : ∀ op ∈ prog, op.leaves l = true)
    (f : LineFile) : (prog.foldl (fun f op => op.onLines f) f).pin l = f.pin l := by
  induction prog generalizing f with
  | nil => rfl
  | cons op prog ih =>
    rw [List.foldl_cons, ih (fun o ho => h o (List.mem_cons_of_mem _ ho)), LineFile.pin,
      op.get_onLines_of_leaves (h op List.mem_cons_self), LineFile.pin]

/-- No micro-operation undrives a line (10_state.md R36). -/
theorem LineFile.foldl_keeps_driven (prog : List MicroOp) {f : LineFile} (hf : f.anyUndriven = false) :
    (prog.foldl (fun f op => op.onLines f) f).anyUndriven = false := by
  induction prog generalizing f with
  | nil => exact hf
  | cons op prog ih => exact ih (op.onLines_keeps_driven hf)

/-- INIT between its `Set(OE, HIGH)` and its last `Set(OE, LOW)` (40_bringup.md R141). -/
def initMiddle (c : Config) : List MicroOp := initRst c ++ progAllOff c true

theorem initMiddle_leaves_oe (c : Config) : ∀ op ∈ initMiddle c, op.leaves .oe = true := by
  rw [← List.all_eq_true]
  cases hr : c.hasRst <;>
    simp [initMiddle, initRst, hr, progAllOff, latchedFrame, zeroCells, fastCell, clockPulse, MicroOp.leaves]

/-- The lines at INIT's `Set(OE, HIGH)`: all driven but for RST, which has the registers it had (40_bringup.md R141). -/
def LineFile.behindOe (rst : Option LineReg) : LineFile :=
  ⟨⟨.output, .low⟩, ⟨.output, .low⟩, ⟨.output, .low⟩, some ⟨.output, .high⟩, rst⟩

theorem initStart_lines {c : Config} (ho : c.hasOe = true) {f : LineFile} (hf : linesMatch c f = true) :
    (initLines ++ initOe c).foldl (fun f op => op.onLines f) f = LineFile.behindOe f.rst := by
  obtain ⟨r, hr⟩ := Option.isSome_iff_exists.mp (LineFile.isSome_get_of_connected hf (l := .oe) ho)
  obtain ⟨data, clock, latch, oe, rst⟩ := f
  obtain rfl : oe = some r := hr
  simp only [initOe, ho, if_true]
  rfl

section Disabled

variable {c : Config} (ho : c.hasOe = true) {k : Nat} (hk : 8 ≤ k) (hlt : k < (progInit c).length)
include ho hk hlt

/-- INIT cut off after its `Set(OE, HIGH)` and before its last micro-operation. -/
theorem progInit_take : (progInit c).take k = (initLines ++ initOe c) ++ (initMiddle c).take (k - 8) := by
  have hstart : (initLines ++ initOe c).length = 8 := by simp [initLines, initOe, ho]
  have hlast : (initEnable c).length = 1 := by simp [initEnable, ho]
  have hsplit : progInit c = (initLines ++ initOe c) ++ (initMiddle c ++ initEnable c) := by
    simp [progInit, initMiddle]
  have hlen : (progInit c).length = 8 + ((initMiddle c).length + 1) := by
    rw [hsplit, List.length_append, hstart, List.length_append, hlast]
  rw [hsplit, List.take_append, hstart, List.take_of_length_le (by omega), List.take_append_of_le_length (by omega)]

variable {f : LineFile} (hf : linesMatch c f = true)
include hf

theorem progInit_take_lines :
    ((progInit c).take k).foldl (fun f op => op.onLines f) f
      = ((initMiddle c).take (k - 8)).foldl (fun f op => op.onLines f) (LineFile.behindOe f.rst) := by
  rw [progInit_take ho hk hlt, List.foldl_append, initStart_lines ho hf]

/-- INIT holds OE HIGH (70_reset_and_hazards.md R291). -/
theorem progInit_take_pin_oe :
    (((progInit c).take k).foldl (fun f op => op.onLines f) f).pin .oe = some (.driven .high) := by
  rw [progInit_take_lines ho hk hlt hf,
    LineFile.pin_foldl_of_leaves fun op h => initMiddle_leaves_oe c op (List.mem_of_mem_take h)]
  rfl

/-- Every line is driven from INIT's `Cfg(RST)` on, and before it where RST needs no configuring (60_exceptions.md R266). -/
theorem progInit_take_driven (h : 9 ≤ k ∨ c.hasRst = false ∨ f.anyUndriven = false) :
    (((progInit c).take k).foldl (fun f op => op.onLines f) f).anyUndriven = false := by
  obtain hd | hrst : f.anyUndriven = false ∨ (9 ≤ k ∨ c.hasRst = false) := by tauto
  · exact LineFile.foldl_keeps_driven _ hd
  · rw [progInit_take_lines ho hk hlt hf]
    obtain ⟨-, hmatch⟩ : f.oe.isSome = c.hasOe ∧ f.rst.isSome = c.hasRst := by simpa [linesMatch] using hf
    cases hr : f.rst with
    | none => exact LineFile.foldl_keeps_driven _ rfl
    | some r =>
      have hc : c.hasRst = true := by rw [← hmatch, hr]; rfl
      have hk9 : 9 ≤ k := by simpa [hc] using hrst
      have hcfg : initMiddle c = .cfg .rst :: (initMiddle c).tail := by simp [initMiddle, initRst, hc]
      rw [hcfg, show k - 8 = (k - 9) + 1 by omega, List.take_succ_cons, List.foldl_cons]
      exact LineFile.foldl_keeps_driven _ rfl

end Disabled

/-- Settles O34: no micro-operation between INIT's two SETs of OE touches OE, and INIT's own CFGs drive every line. -/
theorem outputsDisabledDuringInit : Obligations.OutputsDisabledDuringInit := by
  intro s k hi ho hs hk hlt
  obtain ⟨-, -, hl, -, hsr, hst, -⟩ := (State.inv_iff s).mp hi
  have hrun := advanceN_ops hs (progInit_ok s.cfg) k (by omega)
  rw [List.drop_zero, Nat.zero_add] at hrun
  have hoe := progInit_take_pin_oe ho hk hlt hl
  refine ⟨_, hrun, rfl, by simpa [State.pin] using hoe, fun ha hd c j hc hj => ?_⟩
  have hknown : ((runOps ((progInit s.cfg).take k) s).withSeq (.busy (progInit s.cfg) k .ok)).chainKnown = true := by
    simp [State.chainKnown, ha, progInit_take_driven ho hk hlt hl hd]
  have hlen := (runOps_chain_length ((progInit s.cfg).take k) hsr hst).2
  rw [State.output, hknown]
  exact Chain.output_of_disabled (by simpa using hoe)
    (List.getElem?_eq_getElem (show 8 * c + j < _ by rw [withSeq_chain, hlen]; omega)) _

/-! ### The timing table -/

/-- One micro-program after another. -/
def TimingRow.add (r r' : TimingRow) : TimingRow where
  ops := r.ops + r'.ops
  events := r.events + r'.events
  waits := r.waits + r'.waits
  rises := r.rises + r'.rises
  duration := r.duration + r'.duration

theorem timingOf_nil : timingOf [] = ⟨0, 0, 0, 0, 0⟩ := rfl

theorem timingOf_append (p q : List MicroOp) : timingOf (p ++ q) = (timingOf p).add (timingOf q) := by
  simp [timingOf, TimingRow.add, eventCount, progEvents, waitCount, clockRises, leastDuration]

/-- Cells that differ at most in their number of micro-operations. -/
theorem timingOf_cells {α : Type} {cell : α → List MicroOp} {e w r d : Nat}
    (h : ∀ x, timingOf (cell x) = ⟨(cell x).length, e, w, r, d⟩) (xs : List α) :
    timingOf (xs.flatMap cell)
      = ⟨(xs.flatMap cell).length, xs.length * e, xs.length * w, xs.length * r, xs.length * d⟩ := by
  induction xs with
  | nil => simp [timingOf_nil]
  | cons x xs ih =>
    rw [List.flatMap_cons, timingOf_append, h, ih]
    simp only [TimingRow.add, List.length_append, List.length_cons, Nat.succ_mul, Nat.add_comm]

/-- The latch framing adds two events and no clock edge (30_encoding.md R110). -/
theorem timingOf_latchedFrame (body : List MicroOp) :
    timingOf (latchedFrame body) = (timingOf body).add ⟨2, 2, 0, 0, 0⟩ := by
  have hset : ∀ v, timingOf [.set .latch v] = ⟨1, 1, 0, 0, 0⟩ := fun v => by cases v <;> rfl
  have hframe : latchedFrame body = [.set .latch .low] ++ (body ++ [.set .latch .high]) := rfl
  rw [hframe, timingOf_append, timingOf_append, hset, hset]
  simp only [TimingRow.add, TimingRow.mk.injEq]
  omega

/-- A latched frame of cells that differ at most in their number of micro-operations. -/
theorem timingOf_frame {α : Type} {cell : α → List MicroOp} {e w r d : Nat}
    (h : ∀ x, timingOf (cell x) = ⟨(cell x).length, e, w, r, d⟩) (xs : List α) :
    timingOf (latchedFrame (xs.flatMap cell)) = ⟨(latchedFrame (xs.flatMap cell)).length,
      xs.length * e + 2, xs.length * w, xs.length * r, xs.length * d⟩ := by
  rw [timingOf_latchedFrame, timingOf_cells h, latchedFrame_length]
  rfl

theorem timingOf_fastCell (x : Bool) : timingOf (fastCell x) = ⟨(fastCell x).length, 3, 0, 1, 0⟩ := by
  cases x <;> rfl

theorem timingOf_writeCell (c : Config) (ord : BitOrder) (wdata p i : Nat) :
    timingOf (writeCell c ord wdata p i) = ⟨(writeCell c ord wdata p i).length, 4, 1, 1, c.tSettle⟩ := by
  unfold writeCell
  cases wdataBit wdata p (wireBit ord i) <;> rfl

theorem timingOf_pinCell (m : Memory) (pin : Nat) (x : Bool) (p i : Nat) :
    timingOf (pinCell m pin x p i) = ⟨(pinCell m pin x p i).length, 3, 0, 1, 0⟩ := by
  unfold pinCell
  split
  · cases x <;> rfl
  · exact timingOf_fastCell _

theorem timingOf_zeroCells (n : Nat) : timingOf (zeroCells n) = ⟨24 * n, 24 * n, 0, 8 * n, 0⟩ := by
  have h := timingOf_cells (fun _ => timingOf_fastCell false) (slots n)
  rw [← zeroCells_eq, zeroCells_length, slots_length] at h
  rw [h, TimingRow.mk.injEq]
  omega

/-- ALL_OFF's row (43_all_off.md R201): its frame emits all but SHZ. -/
theorem timingOf_progAllOff (c : Config) (latch : Bool) :
    timingOf (progAllOff c latch)
      = if latch then ⟨3 + 24 * c.n, 2 + 24 * c.n, 0, 8 * c.n, 0⟩ else ⟨24 * c.n, 24 * c.n, 0, 8 * c.n, 0⟩ := by
  cases latch with
  | false => exact timingOf_zeroCells c.n
  | true =>
    have hshz : timingOf [.shz] = ⟨1, 0, 0, 0, 0⟩ := rfl
    rw [progAllOff, if_pos rfl, timingOf_append, timingOf_latchedFrame, timingOf_zeroCells, hshz]
    simp only [TimingRow.add, ↓reduceIte, Nat.add_zero, TimingRow.mk.injEq, and_true]
    omega

theorem timingOf_progWrite (c : Config) (wdata : Nat) (ord : BitOrder) :
    timingOf (progWrite c wdata ord) = ⟨2 + 40 * c.n, 2 + 32 * c.n, 8 * c.n, 8 * c.n, 8 * c.n * c.tSettle⟩ := by
  have h := timingOf_frame (fun y : Nat × Nat => timingOf_writeCell c ord wdata y.1 y.2) (slots c.n)
  rw [← progWrite, progWrite_length, slots_length] at h
  rw [h, TimingRow.mk.injEq]
  omega

theorem timingOf_progPin {c : Config} {pin : Nat} (hp : pin < c.pins) (m : Memory) (x : Bool) :
    timingOf (progPin c m pin x) = ⟨3 + 24 * c.n, 2 + 24 * c.n, 0, 8 * c.n, 0⟩ := by
  have h := timingOf_frame (fun y : Nat × Nat => timingOf_pinCell m pin x y.1 y.2) (slots c.n)
  rw [← progPin, progPin_length hp, slots_length] at h
  rw [h, TimingRow.mk.injEq]
  omega

/-- Steps 1 to 3 of INIT: the optional lines take 2 and 6 micro-operations (40_bringup.md R141). -/
theorem timingOf_initPrefix (c : Config) :
    timingOf (initPrefix c) = ⟨6 + 2 * bit01 c.hasOe + 6 * bit01 c.hasRst, 6 + 2 * bit01 c.hasOe + 6 * bit01 c.hasRst,
      2 * bit01 c.hasRst, 0, 2 * bit01 c.hasRst * c.tRst⟩ := by
  have hlines : timingOf initLines = ⟨6, 6, 0, 0, 0⟩ := rfl
  have hoe : timingOf (initOe c) = ⟨2 * bit01 c.hasOe, 2 * bit01 c.hasOe, 0, 0, 0⟩ := by
    unfold initOe
    cases c.hasOe <;> rfl
  have hrst : timingOf (initRst c)
      = ⟨6 * bit01 c.hasRst, 6 * bit01 c.hasRst, 2 * bit01 c.hasRst, 0, 2 * bit01 c.hasRst * c.tRst⟩ := by
    unfold initRst
    cases c.hasRst with
    | false => simp [timingOf_nil, bit01]
    | true =>
      have hsum : c.tRst + c.tRst = 2 * bit01 true * c.tRst := (Nat.two_mul _).symm
      exact congrArg (TimingRow.mk 6 6 2 0) hsum
  rw [initPrefix, timingOf_append, timingOf_append, hlines, hoe, hrst]
  simp [TimingRow.add]

/-- INIT's row: the prefix, ALL_OFF with its latch, the last `Set(OE, LOW)` (40_bringup.md R141). -/
theorem timingOf_progInit (c : Config) :
    timingOf (progInit c) = ⟨6 + 2 * bit01 c.hasOe + 6 * bit01 c.hasRst + 24 * c.n + 3 + bit01 c.hasOe,
      6 + 3 * bit01 c.hasOe + 6 * bit01 c.hasRst + 24 * c.n + 2, 2 * bit01 c.hasRst, 8 * c.n,
      2 * bit01 c.hasRst * c.tRst⟩ := by
  have henable : timingOf (initEnable c) = ⟨bit01 c.hasOe, bit01 c.hasOe, 0, 0, 0⟩ := by
    unfold initEnable
    cases c.hasOe <;> rfl
  rw [progInit_split, timingOf_append, timingOf_append, timingOf_initPrefix, timingOf_progAllOff, henable]
  simp only [TimingRow.add, ↓reduceIte, Nat.add_zero, Nat.zero_add, TimingRow.mk.injEq, and_true]
  omega

/-- Settles O43, row by row. -/
theorem timingTable : Obligations.TimingTable := by
  intro c m ord wdata
  refine ⟨timingOf_progInit c, timingOf_progWrite c wdata ord, fun pin x hp => ?_, fun pin x hp => ?_,
    timingOf_progAllOff c true, timingOf_progAllOff c false, timingOf_nil, fun cw why hd => ?_⟩
  · rw [programOf, if_pos (show pinNumber pin < c.pins from hp)]
    exact timingOf_progPin hp m x
  · rw [programOf, if_neg (show ¬pinNumber pin < c.pins from Nat.not_lt.mpr hp), timingOf_nil]
  · rw [commandProgram, hd, timingOf_nil]

/-! ### Reset -/

/-- Settles O17: the step is the reset step, and each clause is a reset value (10_state.md R39). -/
theorem resetAbandonsCommand : Obligations.ResetAbandonsCommand := by
  intro s hv hr
  obtain ⟨-, hmode, -, -, -, hoe, hrst, -⟩ := resetValues s.cfg
  exact ⟨resetStep s.sampled, step_of_reset hv hr, rfl, fun _ => rfl,
    fun l hl => State.pin_of_unconfigured (hmode l hl), rfl, rfl, rfl, hoe, hrst, rfl, rfl, rfl, rfl⟩

/-! ### An abandoned command -/

/-- A reset leaves an abandoned command pending where it cuts one off or one was pending (70_reset_and_hazards.md R283). -/
theorem resetStep_abandoned_iff {s t : State} (hr : s.resetNow = true) (h : step s = .next t) :
    t.abandoned = true ↔ s.abandoned = true ∨ s.seq ≠ .idle := by
  simp [resetStep_of_step hr h]

/-- A step without reset keeps an abandoned command pending unless it completes an INIT (70_reset_and_hazards.md R283). -/
theorem quietStep_abandoned_iff {s t : State} (hr : s.resetNow = false) (h : step s = .next t) :
    t.abandoned = true ↔
      s.abandoned = true ∧ ∀ st, s.seq ≠ .busy (progInit s.cfg) (progInit s.cfg).length st := by
  obtain ⟨hs, -, rfl⟩ | ⟨c, rest, hs, -, rfl⟩ | ⟨prog, upc, st, op, hs, hop, rfl⟩ | ⟨prog, st, hs, rfl⟩ :=
    quietStep_cases hr h
  · simp [hs]
  · simp [hs]
  · have hne : ∀ st', Seq.busy prog upc st ≠ .busy (progInit s.cfg) (progInit s.cfg).length st' := by
      rintro st' ⟨⟩
      simp at hop
    rw [hs]
    exact (and_iff_left hne).symm
  · have hne : (∀ st', Seq.busy prog prog.length st ≠ .busy (progInit s.cfg) (progInit s.cfg).length st')
        ↔ prog ≠ progInit s.cfg :=
      ⟨fun hall e => hall st (by rw [e]), fun hp st' e => hp (Seq.busy.inj e).1⟩
    rw [hs, hne, observeChain_abandoned, settleInit_abandoned, Bool.and_eq_true, bne_iff_ne]
    rfl

/-- Where the stages are a free draw and the chain is not known, every output is a free value (R266, R283). -/
theorem State.output_of_unknown {t : State} {n tick : Nat} (hknown : t.chainKnown = false)
    (hchain : t.chain = Chain.unknown n tick) {c k : Nat} (hc : c < n) (hk : k < 8) :
    t.output c k = some (Chain.freeOutput t.freeTick (8 * c + k)) := by
  rw [State.output, hknown, hchain]
  exact Chain.output_of_unknown (Chain.storageStage_unknown _ hc hk) _

/-- Settles O55: a step sets, keeps and clears the flag as R283 says, and while it is set the chain draws its stages anew. -/
theorem abandonedChainUnknown : Obligations.AbandonedChainUnknown := by
  intro s t h
  refine ⟨?_, fun ha => ?_⟩
  · cases hr : s.resetNow with
    | true => simpa using resetStep_abandoned_iff hr h
    | false => simpa using quietStep_abandoned_iff hr h
  · have hchain : t.chain = Chain.unknown s.cfg.n s.freeTick := by
      obtain ⟨u, hcfg, rfl⟩ := step_observed h
      rw [observeChain_abandoned] at ha
      rw [observeChain_chain, ha, Chain.afterStep_abandoned, hcfg, sampled_freeTick]
    exact ⟨hchain, fun c k => State.output_of_unknown (by simp [State.chainKnown, ha]) hchain⟩

end Sys2Proof.Machine
end

section
/-! PROOFS. The command word and back (30_encoding.md R100 to R106, R120): the decoder and the encoder are inverse, the data
operand is WRITE's alone (R100), and the status codes (R104). -/

namespace Sys2Proof

theorem rsvField_encode (i : Instr) : rsvField (encode i).cw = 0#11 := by
  cases i <;> exact rsvField_cmdWord _ _ _

/-- Settles O1: the fields of the encoded word are the operands and the opcode it was built from. -/
theorem decodeEncode : Obligations.DecodeEncode := by
  refine fun i => decode_eq_instr_iff.mpr ⟨rsvField_encode i, ?_⟩
  cases i with
  | init => exact .inl ⟨rfl, pinField_cmdWord _ _ _, fField_cmdWord _ _ _, opField_cmdWord _ _ _⟩
  | write ord w =>
    refine .inr (.inl ⟨?_, pinField_cmdWord _ _ _, opField_cmdWord _ _ _⟩)
    rw [encode, fField_cmdWord, ordOfF_fOfOrd]
  | writePin pin x =>
    refine .inr (.inr (.inl ⟨?_, opField_cmdWord _ _ _⟩))
    rw [encode, pinField_cmdWord, fField_cmdWord]
  | allOff latch =>
    refine .inr (.inr (.inr (.inl ⟨?_, pinField_cmdWord _ _ _, opField_cmdWord _ _ _⟩)))
    rw [encode, fField_cmdWord]
  | state =>
    exact .inr (.inr (.inr (.inr ⟨rfl, pinField_cmdWord _ _ _, fField_cmdWord _ _ _, opField_cmdWord _ _ _⟩)))

/-- A legal word has the fields of the word that its instruction is encoded to. -/
theorem encode_cw_of_decode {cw : Word} {wdata : Nat} {i : Instr} (h : decode cw wdata = .instr i) :
    (encode i).cw = cw := by
  obtain ⟨hr, ⟨rfl, hp, hf, ho⟩ | ⟨rfl, hp, ho⟩ | ⟨rfl, ho⟩ | ⟨rfl, hp, ho⟩ | ⟨rfl, hp, hf, ho⟩⟩ := decode_instr_cases h
  · exact (eq_cmdWord_iff.mpr ⟨hr, hp, hf, ho⟩).symm
  · exact (eq_cmdWord_iff.mpr ⟨hr, hp, (fOfOrd_ordOfF _).symm, ho⟩).symm
  · exact (eq_cmdWord_iff.mpr ⟨hr, rfl, rfl, ho⟩).symm
  · exact (eq_cmdWord_iff.mpr ⟨hr, hp, rfl, ho⟩).symm
  · exact (eq_cmdWord_iff.mpr ⟨hr, hp, hf, ho⟩).symm

/-- Settles O2: the words agree field by field, and the row of WRITE hands the data operand on. -/
theorem encodeDecode : Obligations.EncodeDecode := fun _ _ _ h =>
  ⟨encode_cw_of_decode h, fun _ _ hi => (decode_eq_write_iff.mp (hi ▸ h)).2.2⟩

/-- Settles O5: each word is the one its instruction is encoded to. -/
theorem wordsDecode : Obligations.WordsDecode :=
  ⟨decodeEncode .init, decodeEncode (.write .lsbFirst 7), decodeEncode (.write .msbFirst 7),
    decodeEncode (.writePin 8 true), decodeEncode (.writePin 65535 false), decodeEncode (.allOff true),
    decodeEncode (.allOff false), decodeEncode .state⟩

/-- Only the row of WRITE hands the data operand on (30_encoding.md R100). -/
theorem decode_wdata_unread {cw : Word} (hop : opField cw ≠ 2#4) (w w' : Nat) : decode cw w = decode cw w' := by
  simp only [decode, if_neg hop]

end Sys2Proof

namespace Sys2Proof.Machine

/-- Settles O6: what is accepted and run is what is decoded. -/
theorem dataOperandReadOnlyByWrite : Obligations.DataOperandReadOnlyByWrite := by
  intro s cw w w' hop
  have hdecode := decode_wdata_unread (mt opField_eq_iff.mp hop) w w'
  have haccept : acceptCommand ⟨cw, w⟩ s = acceptCommand ⟨cw, w'⟩ s := by rw [acceptCommand, hdecode, acceptCommand]
  exact ⟨haccept, congrArg (toDone s) haccept⟩

theorem statusCode_ne_reserved (st : Status) : statusCode st ≠ 3#2 := by cases st <;> decide

theorem statusOfCode_statusCode (st : Status) : statusOfCode (statusCode st) = some st := by cases st <;> rfl

/-- Settles O7, status by status. -/
theorem statusCodes : Obligations.StatusCodes :=
  ⟨rfl, rfl, rfl, statusCode_ne_reserved, statusOfCode_statusCode, rfl⟩

end Sys2Proof.Machine
end

section
/-! PROOFS. The machine as a whole (10_state.md): a step runs the decoded command (R45, R50), writes no configuration (R30),
keeps the invariant and never stops (93_implementation_defined.md section 1), and does not depend on the chain
(92_eei_decisions.md D31). -/

namespace Sys2Proof.Machine

/-! ### The accept step and the configuration -/

/-- An idle controller executes the instruction that the presented command decodes to (10_state.md R45). -/
theorem controllerStep_of_decode {s : State} {c : Command} {rest : List Command} {i : Instr} (hs : s.seq = .idle)
    (hp : s.cmdPort = c :: rest) (hd : decode c.cw c.wdata = .instr i) :
    controllerStep s = exec i (s.withPort rest) := by
  simp only [controllerStep, hs, idleStep, hp, acceptCommand, hd]

/-- An idle controller's accept step starts the instruction's micro-program (R45). -/
theorem exec_idle {s : State} (hs : s.seq = .idle) (i : Instr) :
    exec i s = .next (s.withSeq (.busy (programOf s.cfg s.shadow i) 0 (statusOf s.cfg i))) := by
  rw [exec_eq, startCommand_idle hs]

/-- Settles O8: the controller's step is the accept step, and the chain looks on. -/
theorem stepRunsDecodedCommand : Obligations.StepRunsDecodedCommand := by
  intro s c rest i hv hr hs hp hd
  have hexec := exec_idle (s := s.sampled.withPort rest) hs i
  have hctrl := (controllerStep_of_decode (s := s.sampled) hs hp hd).trans hexec
  exact ⟨_, hexec, step_of_advance hv hr (advance_next_iff.mpr ⟨_, hctrl, rfl⟩), rfl, rfl⟩

/-- Settles O22: neither a reset nor the controller's step writes the configuration. -/
theorem configurationImmutable : Obligations.ConfigurationImmutable := by
  intro s t h
  obtain ⟨-, ⟨-, rfl⟩ | ⟨-, u, hu, rfl⟩⟩ := step_cases h
  · rfl
  · have hcfg := controllerStep_cfg hu
    exact hcfg

/-! ### The invariant at reset -/

theorem resetOf_inv {c : Config} (hc : c.valid = true) : (State.resetOf c).Inv := by
  obtain ⟨hsr, hst⟩ := Chain.unknown_length c.n 0
  exact (State.inv_iff _).mpr ⟨hc, rfl, linesMatch_reset c, rfl, hsr, hst, rfl⟩

/-- Settles O19: the reset value of each register meets its part of the invariant. -/
theorem resetInv : Obligations.ResetInv := ⟨fun _ => resetOf_inv, resetOf_inv (by decide)⟩

/-! ### The invariant under each operation -/

/-- A command reports a failure only with an empty micro-program (60_exceptions.md R231). -/
theorem statusOf_ok_or_nil (c : Config) (m : Memory) (i : Instr) : statusOf c i = .ok ∨ programOf c m i = [] := by
  cases i with
  | writePin pin turnOn =>
    rw [statusOf, programOf]
    split
    · exact .inl rfl
    · exact .inr rfl
  | init | write | allOff | state => exact .inl rfl

theorem commandStatus_ok_or_nil (c : Config) (m : Memory) (cmd : Command) :
    commandStatus c cmd = .ok ∨ commandProgram c m cmd = [] := by
  unfold commandStatus commandProgram
  cases decode cmd.cw cmd.wdata with
  | instr i => exact statusOf_ok_or_nil c m i
  | illegal why => exact .inr rfl

/-- Every accepted command starts a sequencer as 10_state.md R41 and R43 describe it. -/
theorem seqWf_accepted (c : Config) (m : Memory) (cmd : Command) :
    seqWf c (.busy (commandProgram c m cmd) 0 (commandStatus c cmd)) = true :=
  seqWf_busy_iff.mpr ⟨Nat.zero_le _, commandProgram_ok c m cmd, commandStatus_ok_or_nil c m cmd⟩

/-- The sequencer stays within its micro-program when it goes on after a micro-operation (R41, R46). -/
theorem seqWf_succ {c : Config} {prog : List MicroOp} {upc : Nat} {st : Status} {op : MicroOp}
    (h : seqWf c (.busy prog upc st) = true) (hop : prog[upc]? = some op) :
    seqWf c (.busy prog (upc + 1) st) = true := by
  obtain ⟨-, hok, hst⟩ := seqWf_busy_iff.mp h
  obtain ⟨hlt, -⟩ := List.getElem?_eq_some_iff.mp hop
  exact seqWf_busy_iff.mpr ⟨hlt, hok, hst⟩

section Kept

variable {s : State} (hi : s.Inv)
include hi

theorem State.Inv.withSeq {q : Seq} (hq : seqWf s.cfg q = true) : (s.withSeq q).Inv := by
  obtain ⟨hv, hm, hl, -, hchain⟩ := (State.inv_iff s).mp hi
  exact (State.inv_iff _).mpr ⟨hv, hm, hl, hq, hchain⟩

theorem State.Inv.withPort_tail {c : Command} {rest : List Command} (hp : s.cmdPort = c :: rest) :
    (s.withPort rest).Inv := by
  obtain ⟨hv, hm, hl, hq, hsr, hst, hport⟩ := (State.inv_iff s).mp hi
  rw [hp, List.all_cons, Bool.and_eq_true] at hport
  exact (State.inv_iff _).mpr ⟨hv, hm, hl, hq, hsr, hst, hport.2⟩

/-- A micro-operation that names what exists keeps the shadow canonical and the registers of the connected lines. -/
theorem State.Inv.applyOp {op : MicroOp} (hc : op.check s.cfg = none) : (applyOp op s).Inv := by
  obtain ⟨hv, hm, hl, hrest⟩ := (State.inv_iff s).mp hi
  have hok : ProgOk s.cfg [op] := by simpa [ProgOk] using hc
  exact (State.inv_iff _).mpr ⟨hv, hok.shadow_wf hm, (linesMatch_onLines s.cfg op s.lines).trans hl, hrest⟩

theorem State.Inv.complete (prog : List MicroOp) (st : Status) : (settleInit prog (complete st s)).Inv :=
  hi.withSeq (q := .idle) rfl

theorem State.Inv.controllerReset : (controllerReset s).Inv := by
  obtain ⟨hv, -, -, -, hchain⟩ := (State.inv_iff s).mp hi
  exact (State.inv_iff _).mpr ⟨hv, rfl, linesMatch_reset s.cfg, rfl, hchain⟩

/-- The chain keeps its stages when it sees a step that keeps the rest. -/
theorem State.Inv.observeChain {u : State} (hu : u.Inv) (hcfg : u.cfg = s.cfg) : (observeChain s u).Inv := by
  obtain ⟨-, -, -, -, hsr, hst, -⟩ := (State.inv_iff s).mp hi
  obtain ⟨hv, hm, hl, hq, -, -, hport⟩ := (State.inv_iff u).mp hu
  rw [← hcfg] at hsr hst
  obtain ⟨hsr', hst'⟩ := Chain.afterStep_length s.freeTick s.abandoned u.abandoned s.lines u.lines hsr hst
  exact (State.inv_iff _).mpr ⟨hv, hm, hl, hq, hsr', hst', hport⟩

theorem State.Inv.controllerStep {t : State} (h : controllerStep s = .next t) : t.Inv := by
  obtain ⟨-, -, rfl⟩ | ⟨c, rest, -, hp, rfl⟩ | ⟨prog, upc, st, op, hs, hop, hc, rfl⟩ | ⟨prog, st, -, rfl⟩ :=
    controllerStep_cases h
  · exact hi
  · exact (hi.withPort_tail hp).withSeq (seqWf_accepted s.cfg s.shadow c)
  · obtain ⟨-, -, -, hq, -⟩ := (State.inv_iff s).mp hi
    exact (hi.withSeq (seqWf_succ (hs ▸ hq) hop)).applyOp hc
  · exact hi.complete prog st

/-- The sequencer of a state of the invariant is never past its end, and the micro-operation it is at names what exists. -/
theorem State.Inv.exists_controllerStep : ∃ t, Machine.controllerStep s = .next t := by
  obtain ⟨hs, hp⟩ | ⟨c, rest, hs, hp⟩ | ⟨prog, upc, st, op, hs, hop, hc⟩ | ⟨prog, upc, st, op, f, hs, hop, hc⟩ |
    ⟨prog, st, hs⟩ | ⟨prog, upc, st, hs, hu⟩ := controllerStep_situations s
  · exact ⟨_, controllerStep_wait hs hp⟩
  · exact ⟨_, controllerStep_accept hs hp⟩
  · exact ⟨_, controllerStep_op hs hop hc⟩
  · obtain ⟨-, -, hok⟩ := hi.busy hs
    have hnone := hok op (List.mem_of_getElem? hop)
    simp [hc] at hnone
  · exact ⟨_, controllerStep_complete hs⟩
  · obtain ⟨-, hle, -⟩ := hi.busy hs
    omega

end Kept

/-- Settles O20: reset and the controller's step keep the invariant, and so does the chain's looking on. The sample of the
reset input is not part of it. -/
theorem stepKeepsInv : Obligations.StepKeepsInv := by
  intro s t hi h
  have hs : s.sampled.Inv := hi
  obtain ⟨-, ⟨-, rfl⟩ | ⟨-, u, hu, rfl⟩⟩ := step_cases h
  · exact hs.observeChain hs.controllerReset rfl
  · exact hs.observeChain (hs.controllerStep hu) (controllerStep_cfg hu)

/-! ### Progress -/

theorem State.Inv.exists_step {s : State} (hi : s.Inv) : ∃ t, step s = .next t := by
  obtain ⟨hv, -⟩ := (State.inv_iff s).mp hi
  cases hr : s.resetNow with
  | true => exact ⟨_, step_of_reset hv hr⟩
  | false =>
    have hs : s.sampled.Inv := hi
    obtain ⟨u, hu⟩ := hs.exists_controllerStep
    exact ⟨_, step_of_advance hv hr (advance_next_iff.mpr ⟨u, hu, rfl⟩)⟩

/-- Settles O21: there is a next state, and the step to it keeps the invariant. -/
theorem invStateNeverStops : Obligations.InvStateNeverStops := fun s hi =>
  let ⟨t, h⟩ := hi.exists_step
  ⟨t, h, stepKeepsInv s t hi h⟩

/-! ### Beside another chain -/

/-- The controller's step reads no chain: beside another it differs at most in whether an abandoned command is still pending,
which the completion of an INIT ends (70_reset_and_hazards.md R283). -/
theorem controllerStep_withChain (s : State) (ch : Chain) (k : Nat) (x : Bool) :
    ∃ x', controllerStep (s.withChain ch k x) = mapNext (·.withChain ch k x') (controllerStep s) := by
  obtain ⟨hs, hp⟩ | ⟨c, rest, hs, hp⟩ | ⟨prog, upc, st, op, hs, hop, hc⟩ | ⟨prog, upc, st, op, f, hs, hop, hc⟩ |
    ⟨prog, st, hs⟩ | ⟨prog, upc, st, hs, hu⟩ := controllerStep_situations s
  · exact ⟨x, by rw [controllerStep_wait hs hp, controllerStep_wait (s := s.withChain ch k x) hs hp]; rfl⟩
  · exact ⟨x, by rw [controllerStep_accept hs hp, controllerStep_accept (s := s.withChain ch k x) hs hp]; rfl⟩
  · exact ⟨x, by rw [controllerStep_op hs hop hc, controllerStep_op (s := s.withChain ch k x) hs hop hc]; rfl⟩
  · exact ⟨x, by rw [controllerStep_badOp hs hop hc, controllerStep_badOp (s := s.withChain ch k x) hs hop hc]; rfl⟩
  · refine ⟨x && prog != progInit s.cfg, ?_⟩
    rw [controllerStep_complete hs, controllerStep_complete (s := s.withChain ch k x) hs]
    rfl
  · exact ⟨x, by rw [controllerStep_pastEnd hs hu, controllerStep_pastEnd (s := s.withChain ch k x) hs hu]; rfl⟩

theorem advance_withChain (s : State) (ch : Chain) (k : Nat) (x : Bool) :
    ∃ ch' k' x', advance (s.withChain ch k x) = mapNext (·.withChain ch' k' x') (advance s) := by
  obtain ⟨x', hx⟩ := controllerStep_withChain s ch k x
  rw [advance_eq_mapNext, advance_eq_mapNext, hx]
  cases controllerStep s with
  | next u => exact ⟨(observeChain (s.withChain ch k x) (u.withChain ch k x')).chain, k + 1, x', rfl⟩
  | fault f => exact ⟨ch, k, x, rfl⟩
  | refused r => exact ⟨ch, k, x, rfl⟩

/-- Settles O29: neither a reset nor the controller's step reads the chain. -/
theorem controllerIgnoresChain : Obligations.ControllerIgnoresChain := by
  intro s ch k x
  cases hv : s.cfg.valid with
  | false =>
    exact ⟨ch, k, x, by rw [step_of_invalid hv, step_of_invalid (s := s.withChain ch k x) hv]; rfl⟩
  | true =>
    cases hr : s.resetNow with
    | true =>
      refine ⟨(resetStep (s.sampled.withChain ch k x)).chain, k + 1, x || s.seq != .idle, ?_⟩
      rw [step_of_reset hv hr, step_of_reset (s := s.withChain ch k x) hv hr]
      rfl
    | false =>
      rw [step_of_quiet hv hr, step_of_quiet (s := s.withChain ch k x) hv hr]
      exact advance_withChain s.sampled ch k x

end Sys2Proof.Machine
end
